-- ==== Sys2Proof/Word.lean ====
section
/-! DEFINITION. The words of the block (00_scope.md R5, R7): all are unsigned bit vectors, bit 0 the least significant. -/

namespace Sys2Proof

/-- A data register or operand port, `XLEN` = 128 bits (R5). -/
abbrev XWord := BitVec 128

/-- A command word `CW16` (R50). -/
abbrev CmdWord := BitVec 16

/-- An exception-flag vector `{NV, DZ, OF, UF, NX}`, `NX` at bit 0 (R25). -/
abbrev FlagBits := BitVec 5

end Sys2Proof
end

