-- ==== Sys2Proof/Syntax.lean ====
section
/-! DEFINITION. The commands of the block (30_encoding.md R54): one constructor per row of spec/opcode_table.json,
carrying only the fields the operation uses (R59: an ignored field is no part of the command). -/

namespace Sys2Proof

/-- The four formats (R2, R52). -/
inductive Fmt where
  | f16 | f32 | f64 | f128
deriving DecidableEq, Repr

/-- The five rounding modes (R14, R53); 90_conflicts.md C1 excludes a sixth. -/
inductive Rm where
  | rne   -- ties to even
  | rtz   -- toward zero
  | rdn   -- toward negative infinity
  | rup   -- toward positive infinity
  | rmm   -- ties away from zero
deriving DecidableEq, Repr

/-- The four integer types of the conversions (R5, N19). -/
inductive IntTy where
  | u32 | u64 | i32 | i64
deriving DecidableEq, Repr

/-- The four causes of a rejection (60_exceptions.md R174). -/
inductive Reject where
  | rsvd    -- ERR_RSVD: a reserved bit of the command word is set
  | op      -- ERR_OP: a reserved operation code
  | rm      -- ERR_RM: a reserved rounding-mode code on an operation that takes a mode
  | width   -- ERR_WIDTH: a used operand has a bit above its width
deriving DecidableEq, Repr

/-- A decoded command. `fmt` is the field `CW.fmt`, `rm` the field `CW.rm` of the operations that take a mode. -/
inductive Instr where
  | bits (fmt : Fmt)                 -- R100
  | classify (fmt : Fmt)             -- CLASS, R101
  | add (fmt : Fmt) (rm : Rm)        -- R111
  | sub (fmt : Fmt) (rm : Rm)        -- R112
  | mul (fmt : Fmt) (rm : Rm)        -- R113
  | div (fmt : Fmt) (rm : Rm)        -- R114
  | fma (fmt : Fmt) (rm : Rm)        -- R115
  | rem (fmt : Fmt) (rm : Rm)        -- R116
  | sqrt (fmt : Fmt) (rm : Rm)       -- R117
  | rint (fmt : Fmt) (rm : Rm)       -- R118
  | eq (fmt : Fmt)                   -- R131
  | lt (fmt : Fmt)                   -- R132
  | le (fmt : Fmt)                   -- R133
  | ltq (fmt : Fmt)                  -- R134
  | leq (fmt : Fmt)                  -- R135
  | cmp (fmt : Fmt)                  -- R136
  | fromU32 (fmt : Fmt) (rm : Rm)    -- R141
  | fromU64 (fmt : Fmt) (rm : Rm)    -- R142
  | fromI32 (fmt : Fmt) (rm : Rm)    -- R143
  | fromI64 (fmt : Fmt) (rm : Rm)    -- R144
  | toU32 (fmt : Fmt) (rm : Rm)      -- R145
  | toU64 (fmt : Fmt) (rm : Rm)      -- R146
  | toI32 (fmt : Fmt) (rm : Rm)      -- R147
  | toI64 (fmt : Fmt) (rm : Rm)      -- R148
  | toF16 (fmt : Fmt) (rm : Rm)      -- R151
  | toF32 (fmt : Fmt) (rm : Rm)      -- R152
  | toF64 (fmt : Fmt) (rm : Rm)      -- R153
  | toF128 (fmt : Fmt) (rm : Rm)     -- R154
  | rdflags                          -- R160
  | clrflags                         -- R161
deriving DecidableEq, Repr

end Sys2Proof
end

