-- ==== Sys2Proof/Config.lean ====
section
/-! DEFINITION. What the spec leaves to the implementation (00_scope.md R6, 93_implementation_defined.md list U).
Every constant here is opaque and has no body: nothing can evaluate it, so a theorem holds whatever it is. -/

namespace Sys2Proof

/-- One request to the delegated units, the ports `u_sel` … `u_c` (10_state.md R21, 40_dispatch.md R81, R84). -/
structure UnitRequest where
  sel : BitVec 5
  op  : BitVec 5
  fmt : BitVec 2
  rm  : BitVec 3
  a   : XWord
  b   : XWord
  c   : XWord
deriving DecidableEq, Repr

/-- The units' answer, the ports `u_res` and `u_flags` (R21, R84). -/
structure UnitAnswer where
  res   : XWord
  flags : FlagBits
deriving DecidableEq, Repr, Inhabited

namespace Config

/-- The uninterpreted part of `K` (R84, U9): every result bit and flag bit that no contract rule fixes is read here.
A function of the request alone (assumption A4). Log entry 6. -/
opaque unit : UnitRequest → UnitAnswer

/-- `IS_SNAN` (R6, R12, U6): which NaN patterns are signaling. Log entry 7. -/
opaque isSnan : Fmt → XWord → Bool

/-- `CMP_QNAN_INVALID` (R6, R136, U4): whether `CMP` raises `NV` on a quiet NaN. Log entry 7. -/
opaque cmpQnanInvalid : Bool

/-- `RINT_INEXACT` (R6, R125, U5): whether `RINT` raises `NX` when it changes the value. Log entry 7. -/
opaque rintInexact : Bool

/-- `NAN_TO_INT` (R6, R149, U1): `true` when a NaN saturates to the type's maximum, `false` for its minimum. Log entry 7. -/
opaque nanToMax : IntTy → Bool

/-- What `CW` holds after the `n`-th `Reset` step: unspecified (R190, U16). Log entry 3. -/
opaque freeCw : Nat → CmdWord

/-- What `A`, `B`, `C` (ports 0, 1, 2) hold after the `n`-th `Reset` step: unspecified (R190, U16). Log entry 3. -/
opaque freeOperand : Nat → Nat → XWord

end Config

end Sys2Proof
end

