-- ==== Sys2Proof/Machine/Operands.lean ====
section
/-! DEFINITION. The format selector (40_dispatch.md R73) and the operand forms: the constants of each format, the
field partition of a value, its class, its place on the integer line, and the columns of the operation table that
say which operands a command uses and how wide they and the result are. -/

namespace Sys2Proof

/-! ## Constants of a format (R5, R8) -/

/-- `N(fmt)`: total width in bits. -/
def Fmt.width : Fmt → Nat
  | .f16 => 16 | .f32 => 32 | .f64 => 64 | .f128 => 128

/-- `E(fmt)`: exponent width. -/
def Fmt.expWidth : Fmt → Nat
  | .f16 => 5 | .f32 => 8 | .f64 => 11 | .f128 => 15

/-- `F(fmt)`: fraction width. -/
def Fmt.fracWidth : Fmt → Nat
  | .f16 => 10 | .f32 => 23 | .f64 => 52 | .f128 => 112

/-- The exponent field of infinities and NaNs, all ones: `2^E - 1` (R12). -/
def Fmt.expMax (fmt : Fmt) : Nat := 2 ^ fmt.expWidth - 1

/-- `bias = 2^(E-1) - 1` (R13). -/
def Fmt.bias (fmt : Fmt) : Nat := 2 ^ (fmt.expWidth - 1) - 1

/-! ## Slices of a port (R7, R43, R44) -/

/-- `zext_128(x[w-1:0])`: the low `w` bits, zeros above (R44, R88). -/
def low (w : Nat) (x : XWord) : XWord := (x.setWidth w).setWidth 128

/-- No bit of `x` above width `w` is set: `x[127:w] = 0` (R43, check (4) of R72). -/
def fits (w : Nat) (x : XWord) : Bool := x.extractLsb' w (128 - w) == 0

/-! ## Field partition of a value (R8) -/

/-- `sign(x) = x[N-1]`. -/
def Fmt.sign (fmt : Fmt) (x : XWord) : Bool := x.getLsbD (fmt.width - 1)

/-- `exp(x) = x[N-2:F]`. -/
def Fmt.exp (fmt : Fmt) (x : XWord) : Nat := (x.extractLsb' fmt.fracWidth fmt.expWidth).toNat

/-- `frac(x) = x[F-1:0]`. -/
def Fmt.frac (fmt : Fmt) (x : XWord) : Nat := (x.extractLsb' 0 fmt.fracWidth).toNat

/-- `mag(x) = x[N-2:0]`. -/
def Fmt.mag (fmt : Fmt) (x : XWord) : Nat := (x.extractLsb' 0 (fmt.width - 1)).toNat

/-! ## Classes (R12) -/

def Fmt.isNaN (fmt : Fmt) (x : XWord) : Bool := fmt.exp x == fmt.expMax && fmt.frac x != 0

def Fmt.isInf (fmt : Fmt) (x : XWord) : Bool := fmt.exp x == fmt.expMax && fmt.frac x == 0

def Fmt.isZero (fmt : Fmt) (x : XWord) : Bool := fmt.exp x == 0 && fmt.frac x == 0

def Fmt.isSub (fmt : Fmt) (x : XWord) : Bool := fmt.exp x == 0 && fmt.frac x != 0

/-- `isSNaN`: a NaN for which the open predicate `IS_SNAN` holds (R12); the predicate sees the `N` bits of the value. -/
def Fmt.isSNaN (fmt : Fmt) (x : XWord) : Bool := fmt.isNaN x && Config.isSnan fmt (low fmt.width x)

def Fmt.isQNaN (fmt : Fmt) (x : XWord) : Bool := fmt.isNaN x && !fmt.isSNaN x

/-! ## The order of non-NaN values (43_comparison.md R130) -/

/-- `ord(x)`: zero for both zeros, else the magnitude with the sign of `x`. -/
def Fmt.ord (fmt : Fmt) (x : XWord) : Int :=
  if fmt.sign x then - (fmt.mag x : Int) else (fmt.mag x : Int)

/-- `unordered(a, b)`: an operand is a NaN. -/
def Fmt.unordered (fmt : Fmt) (a b : XWord) : Bool := fmt.isNaN a || fmt.isNaN b

/-! ## Columns of the operation table (30_encoding.md R54, 40_dispatch.md R73, R79, R80, R82) -/

/-- Column `arity`: how many of `A`, `B`, `C` the operation uses. -/
def Instr.arity : Instr → Nat
  | .bits _ => 1 | .classify _ => 1
  | .add _ _ => 2 | .sub _ _ => 2 | .mul _ _ => 2 | .div _ _ => 2 | .fma _ _ => 3 | .rem _ _ => 2
  | .sqrt _ _ => 1 | .rint _ _ => 1
  | .eq _ => 2 | .lt _ => 2 | .le _ => 2 | .ltq _ => 2 | .leq _ => 2 | .cmp _ => 2
  | .fromU32 _ _ => 1 | .fromU64 _ _ => 1 | .fromI32 _ _ => 1 | .fromI64 _ _ => 1
  | .toU32 _ _ => 1 | .toU64 _ _ => 1 | .toI32 _ _ => 1 | .toI64 _ _ => 1
  | .toF16 _ _ => 1 | .toF32 _ _ => 1 | .toF64 _ _ => 1 | .toF128 _ _ => 1
  | .rdflags => 0 | .clrflags => 0

/-- Column `in` (`in_width`, R73): the width of each used operand; not used by the flag commands. -/
def Instr.inWidth : Instr → Nat
  | .bits f => f.width | .classify f => f.width
  | .add f _ => f.width | .sub f _ => f.width | .mul f _ => f.width | .div f _ => f.width
  | .fma f _ => f.width | .rem f _ => f.width | .sqrt f _ => f.width | .rint f _ => f.width
  | .eq f => f.width | .lt f => f.width | .le f => f.width
  | .ltq f => f.width | .leq f => f.width | .cmp f => f.width
  | .fromU32 _ _ => 32 | .fromU64 _ _ => 64 | .fromI32 _ _ => 32 | .fromI64 _ _ => 64
  | .toU32 f _ => f.width | .toU64 f _ => f.width | .toI32 f _ => f.width | .toI64 f _ => f.width
  | .toF16 f _ => f.width | .toF32 f _ => f.width | .toF64 f _ => f.width | .toF128 f _ => f.width
  | .rdflags => 128 | .clrflags => 128

/-- Column `out` (`out_width`, R79): the width `W` of the result. -/
def Instr.outWidth : Instr → Nat
  | .bits f => f.width | .classify _ => 4
  | .add f _ => f.width | .sub f _ => f.width | .mul f _ => f.width | .div f _ => f.width
  | .fma f _ => f.width | .rem f _ => f.width | .sqrt f _ => f.width | .rint f _ => f.width
  | .eq _ => 1 | .lt _ => 1 | .le _ => 1 | .ltq _ => 1 | .leq _ => 1 | .cmp _ => 2
  | .fromU32 f _ => f.width | .fromU64 f _ => f.width | .fromI32 f _ => f.width | .fromI64 f _ => f.width
  | .toU32 _ _ => 32 | .toU64 _ _ => 64 | .toI32 _ _ => 32 | .toI64 _ _ => 64
  | .toF16 _ _ => 16 | .toF32 _ _ => 32 | .toF64 _ _ => 64 | .toF128 _ _ => 128
  | .rdflags => 5 | .clrflags => 0

/-- The command is LOCAL: completed by the block inside `Accept` (R80). -/
def Instr.isLocal : Instr → Bool
  | .bits _ => true | .classify _ => true
  | .add _ _ => false | .sub _ _ => false | .mul _ _ => false | .div _ _ => false
  | .fma _ _ => false | .rem _ _ => false | .sqrt _ _ => false | .rint _ _ => false
  | .eq _ => true | .lt _ => true | .le _ => true | .ltq _ => true | .leq _ => true | .cmp _ => true
  | .fromU32 _ _ => false | .fromU64 _ _ => false | .fromI32 _ _ => false | .fromI64 _ _ => false
  | .toU32 _ _ => false | .toU64 _ _ => false | .toI32 _ _ => false | .toI64 _ _ => false
  | .toF16 f _ => f == .f16 | .toF32 f _ => f == .f32 | .toF64 f _ => f == .f64 | .toF128 f _ => f == .f128
  | .rdflags => true | .clrflags => true

/-- `unit_select(op)` (R82): bit 0 adder, 1 multiplier, 2 divide, 3 sqrt, 4 rounding network; 0 for the operations
that are always LOCAL. -/
def Instr.unitSelect : Instr → BitVec 5
  | .bits _ => 0b00000 | .classify _ => 0b00000
  | .add _ _ => 0b00001 | .sub _ _ => 0b00001 | .mul _ _ => 0b00010 | .div _ _ => 0b00100
  | .fma _ _ => 0b00011 | .rem _ _ => 0b00100 | .sqrt _ _ => 0b01000 | .rint _ _ => 0b10000
  | .eq _ => 0b00000 | .lt _ => 0b00000 | .le _ => 0b00000
  | .ltq _ => 0b00000 | .leq _ => 0b00000 | .cmp _ => 0b00000
  | .fromU32 _ _ => 0b10000 | .fromU64 _ _ => 0b10000 | .fromI32 _ _ => 0b10000 | .fromI64 _ _ => 0b10000
  | .toU32 _ _ => 0b10000 | .toU64 _ _ => 0b10000 | .toI32 _ _ => 0b10000 | .toI64 _ _ => 0b10000
  | .toF16 _ _ => 0b10000 | .toF32 _ _ => 0b10000 | .toF64 _ _ => 0b10000 | .toF128 _ _ => 0b10000
  | .rdflags => 0b00000 | .clrflags => 0b00000

/-- The operand checks of `validate` (R72 check (4)): every used operand fits the operand width. -/
def Instr.operandsFit (i : Instr) (a b c : XWord) : Bool :=
  (decide (i.arity < 1) || fits i.inWidth a) &&
  (decide (i.arity < 2) || fits i.inWidth b) &&
  (decide (i.arity < 3) || fits i.inWidth c)

end Sys2Proof
end

