-- ==== Sys2Proof/Machine/Flags.lean ====
section
/-! DEFINITION. The exception flags (10_state.md R25) and the flag rule of the comparisons (43_comparison.md R137), the
only flags the block computes itself (60_exceptions.md R171). -/

namespace Sys2Proof.Machine

/-- Inexact. -/
def flagNX : FlagBits := 0b00001

/-- Underflow. -/
def flagUF : FlagBits := 0b00010

/-- Overflow. -/
def flagOF : FlagBits := 0b00100

/-- Divide-by-zero. -/
def flagDZ : FlagBits := 0b01000

/-- Invalid-operation. -/
def flagNV : FlagBits := 0b10000

/-- The flag `f` when the condition holds, no flag otherwise. -/
def flagIf (condition : Bool) (f : FlagBits) : FlagBits := if condition then f else 0

/-- `snan` of R137: an operand is a signaling NaN. -/
def anySNaN (fmt : Fmt) (a b : XWord) : Bool := fmt.isSNaN a || fmt.isSNaN b

/-- `NV(EQ)`, `NV(LTQ)`, `NV(LEQ)`: only a signaling NaN signals (90_conflicts.md C4, C5). -/
def quietCompareFlags (fmt : Fmt) (a b : XWord) : FlagBits := flagIf (anySNaN fmt a b) flagNV

/-- `NV(LT)`, `NV(LE)`: any NaN signals. -/
def signalingCompareFlags (fmt : Fmt) (a b : XWord) : FlagBits := flagIf (fmt.unordered a b) flagNV

/-- `NV(CMP)`: a signaling NaN, and any NaN when the open parameter says so. -/
def cmpFlags (fmt : Fmt) (a b : XWord) : FlagBits :=
  flagIf (anySNaN fmt a b || (fmt.unordered a b && Config.cmpQnanInvalid)) flagNV

end Sys2Proof.Machine
end

