-- ==== Sys2Proof/WellFormed.lean ====
section
/-! DEFINITION. Well-formedness. Every term of `Instr` is a legal command word: its fields are the four formats and
the five modes, so the reserved codes of R53 and R56 cannot be written down. What can be ill-formed is a command
TOGETHER WITH its operands: a used operand with a bit above its width (20_memory.md R43). -/

namespace Sys2Proof

/-- A command as the requester issues it: the operation and the three operand ports. -/
structure Command where
  instr : Instr
  a : XWord
  b : XWord
  c : XWord
deriving DecidableEq, Repr

/-- The command is not malformed: `A`, then `B`, then `C` fit the operand width where the operation uses them (R43). -/
def Command.wellFormed (k : Command) : Bool := k.instr.operandsFit k.a k.b k.c

end Sys2Proof
end

