-- ==== Sys2Proof/Decode.lean ====
section
/-! DEFINITION. Decoding and encoding of the command word `CW16` (30_encoding.md R51 to R58): a decoder total on all
16-bit words, which rejects by name, and the encoder of the canonical spelling (ignored fields zero, R59). -/

namespace Sys2Proof

/-! ## Field codes -/

/-- Format codes (R52). -/
def Fmt.code : Fmt → BitVec 2
  | .f16 => 0b00 | .f32 => 0b01 | .f64 => 0b10 | .f128 => 0b11

/-- All four values of the field are legal (R52). -/
def Fmt.ofCode (f : BitVec 2) : Fmt :=
  match f.toNat with
  | 0 => .f16
  | 1 => .f32
  | 2 => .f64
  | _ => .f128

/-- Rounding-mode codes (R53). -/
def Rm.code : Rm → BitVec 3
  | .rne => 0b000 | .rtz => 0b001 | .rdn => 0b010 | .rup => 0b011 | .rmm => 0b100

/-- 5, 6 and 7 are reserved (R53). -/
def Rm.ofCode (r : BitVec 3) : Option Rm :=
  match r.toNat with
  | 0 => some .rne
  | 1 => some .rtz
  | 2 => some .rdn
  | 3 => some .rup
  | 4 => some .rmm
  | _ => none

/-- Operation codes (R54, column `op`). -/
def Instr.opcode : Instr → BitVec 5
  | .bits _ => 0 | .classify _ => 1
  | .add _ _ => 2 | .sub _ _ => 3 | .mul _ _ => 4 | .div _ _ => 5 | .fma _ _ => 6 | .rem _ _ => 7
  | .sqrt _ _ => 8 | .rint _ _ => 9
  | .eq _ => 10 | .lt _ => 11 | .le _ => 12 | .ltq _ => 13 | .leq _ => 14 | .cmp _ => 15
  | .fromU32 _ _ => 16 | .fromU64 _ _ => 17 | .fromI32 _ _ => 18 | .fromI64 _ _ => 19
  | .toU32 _ _ => 20 | .toU64 _ _ => 21 | .toI32 _ _ => 22 | .toI64 _ _ => 23
  | .toF16 _ _ => 24 | .toF32 _ _ => 25 | .toF64 _ _ => 26 | .toF128 _ _ => 27
  | .rdflags => 28 | .clrflags => 29

/-- The field `fmt` of the canonical word: zero where the operation ignores it (R59). -/
def Instr.fmtCode : Instr → BitVec 2
  | .bits f => f.code | .classify f => f.code
  | .add f _ => f.code | .sub f _ => f.code | .mul f _ => f.code | .div f _ => f.code
  | .fma f _ => f.code | .rem f _ => f.code | .sqrt f _ => f.code | .rint f _ => f.code
  | .eq f => f.code | .lt f => f.code | .le f => f.code
  | .ltq f => f.code | .leq f => f.code | .cmp f => f.code
  | .fromU32 f _ => f.code | .fromU64 f _ => f.code | .fromI32 f _ => f.code | .fromI64 f _ => f.code
  | .toU32 f _ => f.code | .toU64 f _ => f.code | .toI32 f _ => f.code | .toI64 f _ => f.code
  | .toF16 f _ => f.code | .toF32 f _ => f.code | .toF64 f _ => f.code | .toF128 f _ => f.code
  | .rdflags => 0 | .clrflags => 0

/-- The field `rm` of the canonical word: zero where the operation takes no mode (R58, R59). -/
def Instr.rmCode : Instr → BitVec 3
  | .bits _ => 0 | .classify _ => 0
  | .add _ r => r.code | .sub _ r => r.code | .mul _ r => r.code | .div _ r => r.code
  | .fma _ r => r.code | .rem _ r => r.code | .sqrt _ r => r.code | .rint _ r => r.code
  | .eq _ => 0 | .lt _ => 0 | .le _ => 0 | .ltq _ => 0 | .leq _ => 0 | .cmp _ => 0
  | .fromU32 _ r => r.code | .fromU64 _ r => r.code | .fromI32 _ r => r.code | .fromI64 _ r => r.code
  | .toU32 _ r => r.code | .toU64 _ r => r.code | .toI32 _ r => r.code | .toI64 _ r => r.code
  | .toF16 _ r => r.code | .toF32 _ r => r.code | .toF64 _ r => r.code | .toF128 _ r => r.code
  | .rdflags => 0 | .clrflags => 0

/-! ## Decoder -/

/-- The mode check of an operation with `rm? = yes` (R58): a legal code makes the command, a reserved one rejects it. -/
def withMode (r : BitVec 3) (mk : Rm → Instr) : Except Reject Instr :=
  match Rm.ofCode r with
  | some rm => .ok (mk rm)
  | none => .error .rm

/-- The command named by the fields `op`, `fmt`, `rm` (R54 to R56, R58). -/
def decodeFields (op : BitVec 5) (f : BitVec 2) (r : BitVec 3) : Except Reject Instr :=
  let fmt := Fmt.ofCode f
  match op.toNat with
  | 0 => .ok (.bits fmt)
  | 1 => .ok (.classify fmt)
  | 2 => withMode r (.add fmt)
  | 3 => withMode r (.sub fmt)
  | 4 => withMode r (.mul fmt)
  | 5 => withMode r (.div fmt)
  | 6 => withMode r (.fma fmt)
  | 7 => withMode r (.rem fmt)
  | 8 => withMode r (.sqrt fmt)
  | 9 => withMode r (.rint fmt)
  | 10 => .ok (.eq fmt)
  | 11 => .ok (.lt fmt)
  | 12 => .ok (.le fmt)
  | 13 => .ok (.ltq fmt)
  | 14 => .ok (.leq fmt)
  | 15 => .ok (.cmp fmt)
  | 16 => withMode r (.fromU32 fmt)
  | 17 => withMode r (.fromU64 fmt)
  | 18 => withMode r (.fromI32 fmt)
  | 19 => withMode r (.fromI64 fmt)
  | 20 => withMode r (.toU32 fmt)
  | 21 => withMode r (.toU64 fmt)
  | 22 => withMode r (.toI32 fmt)
  | 23 => withMode r (.toI64 fmt)
  | 24 => withMode r (.toF16 fmt)
  | 25 => withMode r (.toF32 fmt)
  | 26 => withMode r (.toF64 fmt)
  | 27 => withMode r (.toF128 fmt)
  | 28 => .ok .rdflags
  | 29 => .ok .clrflags
  | _ => .error .op

/-- The fields of `CW16` (R51). -/
def cwOp (cw : CmdWord) : BitVec 5 := cw.extractLsb' 0 5

def cwFmt (cw : CmdWord) : BitVec 2 := cw.extractLsb' 5 2

def cwRm (cw : CmdWord) : BitVec 3 := cw.extractLsb' 7 3

def cwRsv (cw : CmdWord) : BitVec 6 := cw.extractLsb' 10 6

/-- The decoder of R55: `rsv` first, then `op`, then `rm` where the operation takes a mode. -/
def decode (cw : CmdWord) : Except Reject Instr :=
  if cwRsv cw ≠ 0 then .error .rsvd else decodeFields (cwOp cw) (cwFmt cw) (cwRm cw)

/-! ## Encoder -/

/-- The canonical word `rsv = 0 | rm | fmt | op` of R51. -/
def encode (i : Instr) : CmdWord := 0#6 ++ i.rmCode ++ i.fmtCode ++ i.opcode

/-- The host's reading of a row of spec/opcode_table.json: the command word is one 16-bit word on `req_cw`, so its bits
are numbered as the table numbers them; bits above `nbits` are 0. -/
def decodeTableWord (nbits w : Nat) : Option Instr :=
  match decode (BitVec.ofNat 16 (w % 2 ^ nbits)) with
  | .ok i => some i
  | .error _ => none

end Sys2Proof
end

