-- ==== Sys2Proof/Machine/State.lean ====
section
/-! DEFINITION. The state of the block (10_state.md), as plain data. -/

namespace Sys2Proof.Machine

/-- `PHASE` (R24): no command held; a request with the units; a response held. The code 3 never occurs. -/
inductive Phase where
  | idle | wait | done
deriving DecidableEq, Repr

/-- `STATUS` (R28, R174): `OK`, or the code of the rejection. The codes 5 to 7 are never produced. -/
inductive Status where
  | ok
  | rejected (r : Reject)
deriving DecidableEq, Repr

/-- What the outside drives on the input ports of R21 during one step. -/
structure Inputs where
  rst      : Bool      -- reset, R190
  reqValid : Bool      -- the requester offers a command
  reqCw    : CmdWord   -- the command word offered
  reqA     : XWord     -- operands offered
  reqB     : XWord
  reqC     : XWord
  rspReady : Bool      -- the requester takes the response
  uDone    : Bool      -- the units answer; what they answer is `K`, R84
deriving DecidableEq, Repr

/-- The state of the block. -/
structure State where
  cw     : CmdWord             -- `CW`, the latched command word (R24)
  a      : XWord               -- `A` = x[0] (R22)
  b      : XWord               -- `B` = x[1] (R22)
  c      : XWord               -- `C` = x[2] (R22)
  res    : XWord               -- `RES` = x[3] (R22)
  rflags : FlagBits            -- `RFLAGS` (R26)
  fflags : FlagBits            -- `FFLAGS`, the sticky accumulator (R26)
  status : Status              -- `STATUS` (R28)
  phase  : Phase               -- `PHASE` (R24)
  uReq   : Option UnitRequest  -- the unit request ports: `some` while `u_valid` = 1 (R81, R198)
  inputs : List Inputs         -- the model's own: what the outside drives, one entry a step (log entry 1)
  freeNo : Nat                 -- the model's own: how many free values `Reset` steps took (log entry 3)
deriving DecidableEq, Repr

/-- The faults that stop the machine: none. Every command is executed or rejected with a code (60_exceptions.md R174 to
R178), and a rejection is a next state, so this type has no constructor: safe, since no step can stop. -/
inductive Fault
deriving DecidableEq, Repr

/-- The refusals of the model. -/
inductive Refusal where
  /-- Raised by an arm of `exec` that has no meaning yet, by name. Safe: it stops where the hardware goes on.
  No arm raises it. -/
  | notModelled (mnemonic : String)
deriving DecidableEq, Repr

/-- The block right after reset (10_state.md R32). `CW`, `A`, `B`, `C` have no reset value in the spec: 0 is
DESIGN CHOICE, unsafe, log entry 2. No input is scheduled: the ports read as low (log entry 1). -/
def State.reset : State where
  cw := 0
  a := 0
  b := 0
  c := 0
  res := 0
  rflags := 0
  fflags := 0
  status := .ok
  phase := .idle
  uReq := none
  inputs := []
  freeNo := 0

end Sys2Proof.Machine
end

