-- ==== Sys2Proof/Machine/Ops.lean ====
section
/-! DEFINITION. The named operations on the state: the writes of each step of 40_dispatch.md, taking a rejection
(60_exceptions.md R176, the block's only exception entry) and the return from it (R177), the output ports of
10_state.md R21, and how the input ports are sampled. -/

namespace Sys2Proof.Machine

/-! ## Input ports -/

/-- All input ports low: nothing is offered, taken, answered or reset. -/
def Inputs.quiet : Inputs where
  rst := false
  reqValid := false
  reqCw := 0
  reqA := 0
  reqB := 0
  reqC := 0
  rspReady := false
  uDone := false

/-- The values of the input ports in this step. -/
def State.sampled (s : State) : Inputs := s.inputs.headD Inputs.quiet

/-- What every step does to the ports: the sampled entry is used up, and the one-step pulse of `u_valid` ends (R81). -/
def State.advance (s : State) : State := { s with inputs := s.inputs.tail, uReq := none }

/-! ## Output ports (R21) -/

/-- The code of `STATUS` on `rsp_status` (R174). -/
def Status.code : Status → BitVec 3
  | .ok => 0
  | .rejected .rsvd => 1
  | .rejected .op => 2
  | .rejected .rm => 3
  | .rejected .width => 4

/-- The code of `PHASE` (R24). -/
def Phase.code : Phase → BitVec 2
  | .idle => 0
  | .wait => 1
  | .done => 2

def State.reqReady (s : State) : Bool := s.phase == .idle

def State.rspValid (s : State) : Bool := s.phase == .done

def State.uValid (s : State) : Bool := s.uReq.isSome

/-- What a delivery hands to the requester (R89): `rsp_status`, `rsp_res`, `rsp_flags`; they are visible only while
`rsp_valid` = 1 (R23). -/
def State.response (s : State) : Option (BitVec 3 × XWord × FlagBits) :=
  if s.rspValid then some (s.status.code, s.res, s.rflags) else none

/-! ## Writes of the steps -/

/-- Acceptance samples the command word and the three operands together (R71, R45). -/
def State.latch (s : State) (cw : CmdWord) (a b c : XWord) : State :=
  { s with cw := cw, a := a, b := b, c := c }

/-- `complete(v, fl)` for a result of width `w` (R88). -/
def State.complete (s : State) (w : Nat) (v : XWord) (fl : FlagBits) : State :=
  { s with res := low w v, rflags := fl, fflags := s.fflags ||| fl, status := .ok, phase := .done }

/-- `raise Reject(code)` (R176): the entry into the block's only exception. `FFLAGS` keeps its value and no request is
presented. -/
def State.reject (s : State) (r : Reject) : State :=
  { s with res := 0, rflags := 0, status := .rejected r, phase := .done }

/-- The delivery of a response (R89), which is also the return from a rejection (R177). -/
def State.deliver (s : State) : State := { s with phase := .idle }

/-- The completion of `CLRFLAGS`, the one that does not OR (R161). -/
def State.clearFlags (s : State) : State :=
  { s with fflags := 0, res := 0, rflags := 0, status := .ok, phase := .done }

/-- The request of a dispatched command (R81): operands unmodified, the ports beyond the arity driven to zero. -/
def State.unitRequest (s : State) (i : Instr) : UnitRequest where
  sel := i.unitSelect
  op := i.opcode
  fmt := i.fmtCode
  rm := i.rmCode
  a := s.a
  b := if 2 ≤ i.arity then s.b else 0
  c := if 3 ≤ i.arity then s.c else 0

/-- `dispatch()` (R81): the request is presented and the block waits. -/
def State.dispatch (s : State) (q : UnitRequest) : State := { s with uReq := some q, phase := .wait }

/-- `UnitAnswer` (R86): the low `w` bits of `u_res` and all five bits of `u_flags` complete the command. -/
def State.takeAnswer (s : State) (w : Nat) (ans : UnitAnswer) : State := s.complete w ans.res ans.flags

/-- The `Reset` step (R190): the registers of R32, and unspecified values in `CW`, `A`, `B`, `C` (log entry 3). -/
def State.resetStep (s : State) : State :=
  { s with
    cw := Config.freeCw s.freeNo
    a := Config.freeOperand 0 s.freeNo
    b := Config.freeOperand 1 s.freeNo
    c := Config.freeOperand 2 s.freeNo
    res := 0
    rflags := 0
    fflags := 0
    status := .ok
    phase := .idle
    uReq := none
    freeNo := s.freeNo + 1 }

/-- `validate(CW, A, B, C)` (R72): the first failing check, in the order of R175. -/
def validate (cw : CmdWord) (a b c : XWord) : Status :=
  match decode cw with
  | .error r => .rejected r
  | .ok i => if i.operandsFit a b c then .ok else .rejected .width

/-- The state in which the requester offers the word `cw` in the next step: the block idle, `req_valid` up and `rst`
down in the next entry of the inputs; the operand ports of that entry as they were (log entry 16). -/
def State.offering (s : State) (cw : CmdWord) : State :=
  { s with
    phase := .idle
    inputs := { s.sampled with rst := false, reqValid := true, reqCw := cw } :: s.inputs.tail }

end Sys2Proof.Machine
end

