-- ==== Sys2Proof/Machine/Cycle.lean ====
section
/-! DEFINITION. One step of the block (40_dispatch.md R70, R91; 70_reset_and_hazards.md R190), over the meanings given as
`run`: the inputs are sampled, reset wins, and then the phase decides which of `Accept`, `UnitAnswer`, `Deliver` may
happen. -/

namespace Sys2Proof.Machine

/-- `Accept` (R71): the latch, then rejection by the decoder or the command's own part. -/
def acceptStep (run : Instr → State → Host.Outcome State Fault Refusal) (p : Inputs) (s : State) :
    Host.Outcome State Fault Refusal :=
  let t := s.latch p.reqCw p.reqA p.reqB p.reqC
  match decode p.reqCw with
  | .error r => .next (t.reject r)
  | .ok i => run i t

/-- `UnitAnswer` (R86) for the command held in `CW`. In WAIT the word always decodes; in a state no run reaches where it
does not, no step is enabled and nothing changes. -/
def answerStep (run : Instr → State → Host.Outcome State Fault Refusal) (s : State) : Host.Outcome State Fault Refusal :=
  match decode s.cw with
  | .error _ => .next s
  | .ok i => run i s

/-- One step under the sampled inputs `p` (R91, R190). Where no step is enabled the registers keep their values (R196). -/
def stepUnder (run : Instr → State → Host.Outcome State Fault Refusal) (p : Inputs) (s : State) :
    Host.Outcome State Fault Refusal :=
  if p.rst then .next s.resetStep
  else match s.phase with
    | .idle => if p.reqValid then acceptStep run p s else .next s
    | .wait => if p.uDone then answerStep run s else .next s
    | .done => if p.rspReady then .next s.deliver else .next s

/-- One step: the inputs of this step are sampled and used up. -/
def cycle (run : Instr → State → Host.Outcome State Fault Refusal) (s : State) : Host.Outcome State Fault Refusal :=
  stepUnder run s.sampled s.advance

end Sys2Proof.Machine
end

