-- ==== Sys2Proof/Machine/Numerics.lean ====
section
/-! DEFINITION. The reference numerics (00_scope.md R12 to R15) the contract rules on the delegated units are written
in: the value of a pattern, the exact magnitude of a result, and rounding it once under a rounding mode. The spec marks
them as general knowledge of IEEE-754; log entry 13. The block itself uses none of this file. -/

namespace Sys2Proof

/-- The exponent of the last place of subnormal numbers, `1 - bias - F` (R13). -/
def Fmt.qMin (fmt : Fmt) : Int := 1 - (fmt.bias : Int) - (fmt.fracWidth : Int)

/-- The magnitude bits of infinity: exponent all ones, fraction zero (R12). One less is `MAXF` (R13). -/
def Fmt.infMag (fmt : Fmt) : Nat := fmt.expMax * 2 ^ fmt.fracWidth

/-- The pattern with the given sign and magnitude bits (R8). -/
def Fmt.pattern (fmt : Fmt) (neg : Bool) (mag : Nat) : XWord :=
  BitVec.ofNat 128 ((if neg then 2 ^ (fmt.width - 1) else 0) + mag)

namespace Machine

/-- The value of a non-NaN pattern as an extended real (R13): an infinity, or `± m · 2^e` with the sign kept on zero. -/
inductive Value where
  | inf (neg : Bool)
  | fin (neg : Bool) (m : Nat) (e : Int)
deriving DecidableEq, Repr

/-- `val(fmt, x)` of a non-NaN pattern (R13); callers have set NaNs aside. -/
def valueOf (fmt : Fmt) (x : XWord) : Value :=
  if fmt.exp x = fmt.expMax then .inf (fmt.sign x)
  else if fmt.exp x = 0 then .fin (fmt.sign x) (fmt.frac x) fmt.qMin
  else .fin (fmt.sign x) (2 ^ fmt.fracWidth + fmt.frac x) ((fmt.exp x : Int) - 1 + fmt.qMin)

/-- The value with its sign changed. -/
def Value.neg : Value → Value
  | .inf n => .inf (!n)
  | .fin n m e => .fin (!n) m e

/-- Where an exact result lies between two neighbours: on the lower one, below, at or above their midpoint. -/
inductive Residue where
  | exact | below | tie | above
deriving DecidableEq, Repr

/-- The residue of a remainder `r` of a division by `d`. -/
def residueOf (r d : Nat) : Residue :=
  if r = 0 then .exact else if 2 * r < d then .below else if 2 * r = d then .tie else .above

/-- The rule of R14 for a result between two neighbours in magnitude: whether the larger magnitude is taken. `odd` says
that the smaller one has an odd last place. -/
def roundsUp (rm : Rm) (neg odd : Bool) (r : Residue) : Bool :=
  match rm with
  | .rne => r == .above || (r == .tie && odd)
  | .rtz => false
  | .rdn => neg && r != .exact
  | .rup => !neg && r != .exact
  | .rmm => r == .tie || r == .above

/-- An exact positive magnitude: `(n / d) · 2^e`, or `√(m · 2^e)`. -/
inductive Magnitude where
  | ratio (n d : Nat) (e : Int)
  | root (m : Nat) (e : Int)
deriving DecidableEq, Repr

/-- `2^k` for `k > 0` and 1 otherwise: the factor by which a shift by `k` scales the numerator. -/
def pow2 (k : Int) : Nat := 2 ^ k.toNat

/-- The integer square root, bit by bit from the highest. -/
def isqrtFrom : Nat → Nat → Nat → Nat
  | 0, _, r => r
  | b + 1, n, r => isqrtFrom b n (if (r + 2 ^ b) * (r + 2 ^ b) ≤ n then r + 2 ^ b else r)

/-- `⌊√n⌋`. -/
def isqrt (n : Nat) : Nat := isqrtFrom (n.log2 / 2 + 1) n 0

/-- `⌊log2⌋` of the magnitude. -/
def Magnitude.ilog : Magnitude → Int
  | .ratio n d e =>
    let l : Int := (n.log2 : Int) - (d.log2 : Int)
    e + (if d * pow2 l ≤ n * pow2 (-l) then l else l - 1)
  | .root m e => (e + (m.log2 : Int)) / 2

/-- The magnitude in units of `2^q`: its integer part, and where the rest lies. -/
def Magnitude.inUnits (x : Magnitude) (q : Int) : Nat × Residue :=
  match x with
  | .ratio n d e =>
    let num := n * pow2 (e - q)
    let den := d * pow2 (q - e)
    (num / den, residueOf (num % den) den)
  | .root m e =>
    let num := m * pow2 (e - 2 * q)
    let den := pow2 (2 * q - e)
    let k := isqrt (num / den)
    (k, if num = den * (k * k) then .exact
        else if 4 * num < den * ((2 * k + 1) * (2 * k + 1)) then .below
        else if 4 * num = den * ((2 * k + 1) * (2 * k + 1)) then .tie
        else .above)

/-- The magnitude rounded once to a multiple of `2^q`: the multiple, and whether it differs from the exact value. -/
def Magnitude.roundAt (x : Magnitude) (rm : Rm) (neg : Bool) (q : Int) : Nat × Bool :=
  let kr := x.inUnits q
  (if roundsUp rm neg (kr.1 % 2 == 1) kr.2 then kr.1 + 1 else kr.1, kr.2 != .exact)

/-- The result of rounding an exact nonzero magnitude to a format (R15), with what the flag conditions of R16 ask. -/
structure Rounded where
  pattern    : XWord   -- the correctly rounded result
  inexact    : Bool    -- it differs from the exact one
  overflow   : Bool    -- rounded as if the exponent were unbounded, it exceeds the largest finite magnitude
  tinyBefore : Bool    -- the exact magnitude is below the smallest normal
  tinyAfter  : Bool    -- and so it is rounded as if the exponent were unbounded
deriving DecidableEq, Repr

/-- The magnitude bits on overflow (R15): infinity or `MAXF`, by mode and sign. -/
def overflowMag (fmt : Fmt) (rm : Rm) (neg : Bool) : Nat :=
  match rm with
  | .rne => fmt.infMag
  | .rmm => fmt.infMag
  | .rtz => fmt.infMag - 1
  | .rdn => if neg then fmt.infMag else fmt.infMag - 1
  | .rup => if neg then fmt.infMag - 1 else fmt.infMag

/-- `round(fmt, rm, ± x)` for a nonzero magnitude (R15). The last place is `2^q`; a count `k` of last places above the
place `qMin` of subnormals has the magnitude bits `(q - qMin) · 2^F + k`, the carry into the exponent included. The sign
of the exact result is kept also when the magnitude rounds to zero (PRESUMED, log entry 18). -/
def roundTo (fmt : Fmt) (rm : Rm) (neg : Bool) (x : Magnitude) : Rounded :=
  let q := max (x.ilog - fmt.fracWidth) fmt.qMin
  let k := x.roundAt rm neg q
  let mag := (q - fmt.qMin).toNat * 2 ^ fmt.fracWidth + k.1
  let huge := decide (fmt.infMag ≤ mag)
  let smallestNormal : Int := fmt.qMin + fmt.fracWidth
  let free := x.roundAt rm neg (x.ilog - fmt.fracWidth)
  { pattern := fmt.pattern neg (if huge then overflowMag fmt rm neg else mag)
    inexact := k.2 || huge
    overflow := huge
    tinyBefore := decide (x.ilog < smallestNormal)
    tinyAfter := decide (x.ilog + 1 < smallestNormal) ||
      (decide (x.ilog < smallestNormal) && decide (free.1 < 2 ^ (fmt.fracWidth + 1))) }

/-- `round_to_integer(rm, val)` of a finite value (R14 applied to the integers, 44_conversion.md R150): the magnitude of
the integer, and whether it differs from the value. -/
def roundToInteger (rm : Rm) (neg : Bool) (m : Nat) (e : Int) : Nat × Bool :=
  (Magnitude.ratio m 1 e).roundAt rm neg 0

end Machine

end Sys2Proof
end

