-- ==== Sys2Proof/Machine/Contract.lean ====
section
/-! DEFINITION. The contract rules on the delegated units (42_arithmetic.md R119 to R125, 44_conversion.md R149, R150):
for each dispatched operation, what the spec says of the result and of each flag. What the spec leaves open stays open:
a NaN result is any NaN, and a flag bit in `may` is whatever the units return. -/

namespace Sys2Proof.Machine

/-- What the contract says of the low bits of `u_res`. -/
inductive ResultSpec where
  | bits (x : XWord)     -- this pattern
  | anyNaN (fmt : Fmt)   -- some NaN of the format, which one is open (R119, U2)
deriving DecidableEq, Repr

/-- What the contract says of an answer: the result, the flags that are raised, the flags left to the units. Every other
flag is 0 (log entry 12). -/
structure Contract where
  res  : ResultSpec
  must : FlagBits
  may  : FlagBits
deriving DecidableEq, Repr

namespace Contract

/-- An exact result: no flag. -/
def exactly (x : XWord) : Contract := { res := .bits x, must := 0, may := 0 }

/-- A zero of the given sign. -/
def zero (fmt : Fmt) (neg : Bool) : Contract := exactly (fmt.pattern neg 0)

/-- An infinity of the given sign. -/
def infinity (fmt : Fmt) (neg : Bool) : Contract := exactly (fmt.pattern neg fmt.infMag)

/-- An invalid operation of SFW's list (R121): a NaN, and `NV`. -/
def invalid (fmt : Fmt) : Contract := { res := .anyNaN fmt, must := flagNV, may := 0 }

/-- An invalid operation of IEEE-754 that SFW does not list (R121, N8): a NaN, and `NV` left to the units
(log entry 11). -/
def unlistedInvalid (fmt : Fmt) : Contract := { res := .anyNaN fmt, must := 0, may := flagNV }

/-- NaN propagation (R119): a NaN, `NV` when an operand is signaling. -/
def propagated (fmt : Fmt) (signaling : Bool) : Contract :=
  { res := .anyNaN fmt, must := flagIf signaling flagNV, may := 0 }

/-- A nonzero result rounded once (R120). `UF` is raised where every reading of underflow agrees, and left to the units
where the source is silent: an exact tiny result, or tininess that depends on being tested before or after rounding
(N12, U7, log entry 9). -/
def rounded (fmt : Fmt) (rm : Rm) (neg : Bool) (x : Magnitude) : Contract :=
  let r := roundTo fmt rm neg x
  let under := r.tinyBefore && r.inexact && r.tinyAfter
  { res := .bits r.pattern
    must := flagIf r.inexact flagNX ||| flagIf r.overflow flagOF ||| flagIf under flagUF
    may := flagIf (r.tinyBefore && !under) flagUF }

/-- A finite result `± m · 2^e`: exact zero keeps the sign given, anything else is rounded once. -/
def ofValue (fmt : Fmt) (rm : Rm) : Value → Contract
  | .inf neg => infinity fmt neg
  | .fin neg m e => if m = 0 then zero fmt neg else rounded fmt rm neg (.ratio m 1 e)

end Contract

/-! ## Values combined exactly -/

/-- `± m` as an integer. -/
def signedInt (neg : Bool) (m : Nat) : Int := if neg then - (m : Int) else (m : Int)

/-- The sum of two finite values, exact, and its rounding. An exact zero takes the common sign of the addends, or by
R123 is `-0` under `RDN` and `+0` otherwise. -/
def sumFinite (fmt : Fmt) (rm : Rm) (n1 : Bool) (m1 : Nat) (e1 : Int) (n2 : Bool) (m2 : Nat) (e2 : Int) : Contract :=
  let e := min e1 e2
  let t := signedInt n1 (m1 * pow2 (e1 - e)) + signedInt n2 (m2 * pow2 (e2 - e))
  if t = 0 then Contract.zero fmt (if n1 = n2 then n1 else rm == .rdn)
  else Contract.rounded fmt rm (decide (t < 0)) (.ratio t.natAbs 1 e)

/-- Addition of values (R120, R122, R123): `∞ − ∞` is an invalid operation of SFW's list (R121). -/
def addValues (fmt : Fmt) (rm : Rm) : Value → Value → Contract
  | .inf n1, .inf n2 => if n1 = n2 then Contract.infinity fmt n1 else Contract.invalid fmt
  | .inf n1, .fin _ _ _ => Contract.infinity fmt n1
  | .fin _ _ _, .inf n2 => Contract.infinity fmt n2
  | .fin n1 m1 e1, .fin n2 m2 e2 => sumFinite fmt rm n1 m1 e1 n2 m2 e2

/-- The exact product (R113): the sign is the exclusive or of the signs; `none` for `0 × ∞`. -/
def mulValues : Value → Value → Option Value
  | .inf n1, .inf n2 => some (.inf (n1 != n2))
  | .inf n1, .fin n2 m2 _ => if m2 = 0 then none else some (.inf (n1 != n2))
  | .fin n1 m1 _, .inf n2 => if m1 = 0 then none else some (.inf (n1 != n2))
  | .fin n1 m1 e1, .fin n2 m2 e2 => some (.fin (n1 != n2) (m1 * m2) (e1 + e2))

/-! ## The eight arithmetic operations (42_arithmetic.md) -/

/-- R119 first: a NaN among the operands decides the result. -/
def withNaNs (fmt : Fmt) (ops : List XWord) (k : Contract) : Contract :=
  if ops.any fmt.isNaN then Contract.propagated fmt (ops.any fmt.isSNaN) else k

/-- `ADD` (R111). -/
def addContract (fmt : Fmt) (rm : Rm) (a b : XWord) : Contract :=
  withNaNs fmt [a, b] (addValues fmt rm (valueOf fmt a) (valueOf fmt b))

/-- `SUB` (R112): `exact = val(a) − val(b)`. -/
def subContract (fmt : Fmt) (rm : Rm) (a b : XWord) : Contract :=
  withNaNs fmt [a, b] (addValues fmt rm (valueOf fmt a) (valueOf fmt b).neg)

/-- `MUL` (R113). -/
def mulContract (fmt : Fmt) (rm : Rm) (a b : XWord) : Contract :=
  withNaNs fmt [a, b]
    (match mulValues (valueOf fmt a) (valueOf fmt b) with
     | none => Contract.unlistedInvalid fmt
     | some v => Contract.ofValue fmt rm v)

/-- Division of values (R114, R121, R122). -/
def divValues (fmt : Fmt) (rm : Rm) : Value → Value → Contract
  | .inf _, .inf _ => Contract.invalid fmt
  | .inf n1, .fin n2 _ _ => Contract.infinity fmt (n1 != n2)
  | .fin n1 _ _, .inf n2 => Contract.zero fmt (n1 != n2)
  | .fin n1 m1 e1, .fin n2 m2 e2 =>
    if m2 = 0 then
      if m1 = 0 then Contract.invalid fmt
      else { res := .bits (fmt.pattern (n1 != n2) fmt.infMag), must := flagDZ, may := 0 }
    else if m1 = 0 then Contract.zero fmt (n1 != n2)
    else Contract.rounded fmt rm (n1 != n2) (.ratio m1 m2 (e1 - e2))

/-- `DIV` (R114). -/
def divContract (fmt : Fmt) (rm : Rm) (a b : XWord) : Contract :=
  withNaNs fmt [a, b] (divValues fmt rm (valueOf fmt a) (valueOf fmt b))

/-- `FMA` (R115): one rounding of the exact `a × b + c`. With `0 × ∞` beside a NaN addend the invalid condition is one
SFW does not list, so `NV` is left to the units there too (R119, R121). -/
def fmaContract (fmt : Fmt) (rm : Rm) (a b c : XWord) : Contract :=
  let product := mulValues (valueOf fmt a) (valueOf fmt b)
  if [a, b].any fmt.isNaN then Contract.propagated fmt ([a, b, c].any fmt.isSNaN)
  else if fmt.isNaN c then
    { Contract.propagated fmt (fmt.isSNaN c) with may := flagIf (product.isNone && !fmt.isSNaN c) flagNV }
  else match product with
    | none => Contract.unlistedInvalid fmt
    | some p => addValues fmt rm p (valueOf fmt c)

/-- The IEEE-754 remainder of two nonzero finite values (R116): `a − b · n`, `n` the integer nearest `a / b`, ties to even;
a zero result has the sign of `a`. Over the common last place `2^e` it is a remainder of naturals. -/
def remFinite (fmt : Fmt) (n1 : Bool) (m1 : Nat) (e1 : Int) (m2 : Nat) (e2 : Int) : Contract :=
  let e := min e1 e2
  let a := m1 * pow2 (e1 - e)
  let b := m2 * pow2 (e2 - e)
  let r := a % b
  let up := decide (b < 2 * r) || (2 * r == b && a / b % 2 == 1)
  Contract.ofValue fmt .rne (.fin (if up then !n1 else n1) (if up then b - r else r) e)

/-- Remainder of values (R116); `rem(∞, y)` and `rem(x, 0)` are not in SFW's list of invalid operations (R121). The
remainder by an infinity is the dividend; where that is subnormal, `UF` is left to the units (N12, U7, log entry 9). -/
def remValues (fmt : Fmt) (a : XWord) : Value → Value → Contract
  | .inf _, _ => Contract.unlistedInvalid fmt
  | .fin _ _ _, .inf _ => { Contract.exactly (low fmt.width a) with may := flagIf (fmt.isSub a) flagUF }
  | .fin n1 m1 e1, .fin _ m2 e2 =>
    if m2 = 0 then Contract.unlistedInvalid fmt
    else if m1 = 0 then Contract.zero fmt n1
    else remFinite fmt n1 m1 e1 m2 e2

/-- `REM` (R116): no rounding mode enters. `rem(∞, y)` and `rem(x, 0)` beside a quiet NaN are not set apart by R121, so `NV`
is left to the units there too (R119, log entry 11). -/
def remContract (fmt : Fmt) (a b : XWord) : Contract :=
  if [a, b].any fmt.isNaN then
    let signaling := [a, b].any fmt.isSNaN
    { Contract.propagated fmt signaling with may := flagIf ((fmt.isInf a || fmt.isZero b) && !signaling) flagNV }
  else remValues fmt a (valueOf fmt a) (valueOf fmt b)

/-- Square root of a value (R117); `sqrt(−∞)` is not in SFW's list of invalid operations (R121). -/
def sqrtValue (fmt : Fmt) (rm : Rm) : Value → Contract
  | .inf neg => if neg then Contract.unlistedInvalid fmt else Contract.infinity fmt false
  | .fin neg m e =>
    if m = 0 then Contract.zero fmt neg
    else if neg then Contract.invalid fmt
    else Contract.rounded fmt rm false (.root m e)

/-- `SQRT` (R117). -/
def sqrtContract (fmt : Fmt) (rm : Rm) (a : XWord) : Contract :=
  withNaNs fmt [a] (sqrtValue fmt rm (valueOf fmt a))

/-- Rounding a value to an integral value of its format (R118); `NX` by the open parameter (R125). A value that is already
integral, or infinite, is returned unchanged. -/
def rintValue (fmt : Fmt) (rm : Rm) (a : XWord) : Value → Contract
  | .inf neg => Contract.infinity fmt neg
  | .fin neg m e =>
    let k := roundToInteger rm neg m e
    if k.2 then
      { Contract.ofValue fmt .rne (.fin neg k.1 0) with must := flagIf Config.rintInexact flagNX }
    else Contract.exactly (low fmt.width a)

/-- `RINT` (R118). -/
def rintContract (fmt : Fmt) (rm : Rm) (a : XWord) : Contract :=
  withNaNs fmt [a] (rintValue fmt rm a (valueOf fmt a))

/-! ## Conversions (44_conversion.md) -/

/-- Width of an integer type. -/
def intWidth : IntTy → Nat
  | .u32 => 32 | .u64 => 64 | .i32 => 32 | .i64 => 64

/-- Whether an integer type is signed. -/
def intSigned : IntTy → Bool
  | .u32 => false | .u64 => false | .i32 => true | .i64 => true

/-- `lo` of the destination range (R145 to R149). -/
def intMin (t : IntTy) : Int := if intSigned t then - 2 ^ (intWidth t - 1) else 0

/-- `hi` of the destination range (R145 to R149). -/
def intMax (t : IntTy) : Int := if intSigned t then 2 ^ (intWidth t - 1) - 1 else 2 ^ intWidth t - 1

/-- The representation of an integer of the type: two's complement in its own width, zeros above (R44, R147). -/
def intBits (t : IntTy) (j : Int) : XWord := low (intWidth t) (BitVec.ofInt 128 j)

/-- The integer an operand stands for: unsigned, or two's complement within its own width (R60, R143). -/
def intValue (t : IntTy) (a : XWord) : Int :=
  if intSigned t then (a.setWidth (intWidth t)).toInt else ((a.setWidth (intWidth t)).toNat : Int)

/-- Integer to float (R141 to R144, R150 (a)): zero gives `+0`. -/
def fromIntContract (t : IntTy) (fmt : Fmt) (rm : Rm) (a : XWord) : Contract :=
  let i := intValue t a
  Contract.ofValue fmt rm (.fin (decide (i < 0)) i.natAbs 0)

/-- A saturated conversion (R149): the boundary and `NV`; `OF` and `NX` are left to the units (C8, log entry 10). -/
def saturated (t : IntTy) (toMax : Bool) : Contract :=
  { res := .bits (intBits t (if toMax then intMax t else intMin t)), must := flagNV, may := flagOF ||| flagNX }

/-- Float to integer of a value (R149, R150 (b)). Whether rounding raises `NX` in range is left to the units (N11,
log entry 10). -/
def toIntValue (t : IntTy) (rm : Rm) : Value → Contract
  | .inf neg => saturated t (!neg)
  | .fin neg m e =>
    let k := roundToInteger rm neg m e
    let j := signedInt neg k.1
    if intMax t < j then saturated t true
    else if j < intMin t then saturated t false
    else { res := .bits (intBits t j), must := 0, may := flagIf k.2 flagNX }

/-- `TO_U32`, `TO_U64`, `TO_I32`, `TO_I64` (R145 to R148); which boundary a NaN takes is `NAN_TO_INT` (R149). -/
def toIntContract (t : IntTy) (fmt : Fmt) (rm : Rm) (a : XWord) : Contract :=
  if fmt.isNaN a then saturated t (Config.nanToMax t) else toIntValue t rm (valueOf fmt a)

/-- `TO_Fn` to another format (R150 (c), (d), (e)): rounded once into the destination, exact when it widens; a NaN gives
a NaN of the destination, `NV` when it is signaling. -/
def toFloatContract (dst fmt : Fmt) (rm : Rm) (a : XWord) : Contract :=
  if fmt.isNaN a then Contract.propagated dst (fmt.isSNaN a) else Contract.ofValue dst rm (valueOf fmt a)

end Sys2Proof.Machine
end

