-- ==== Sys2Proof/Machine/Units.lean ====
section
/-! DEFINITION. The delegated units as the block sees them: the function `K` of 40_dispatch.md R84. `K` is the
uninterpreted `Config.unit` with the contract rules imposed on it, so it may be any function that meets them and nothing
more is assumed (log entry 6). -/

namespace Sys2Proof.Machine

/-- The contract of a command on its operands. LOCAL commands are never presented (R80, R84); the contract given here for
them says nothing of their answer that any rule reads. -/
def contractOf (i : Instr) (a b c : XWord) : Option Contract :=
  match i with
  | .add f rm => some (addContract f rm a b)
  | .sub f rm => some (subContract f rm a b)
  | .mul f rm => some (mulContract f rm a b)
  | .div f rm => some (divContract f rm a b)
  | .fma f rm => some (fmaContract f rm a b c)
  | .rem f _ => some (remContract f a b)
  | .sqrt f rm => some (sqrtContract f rm a)
  | .rint f rm => some (rintContract f rm a)
  | .fromU32 f rm => some (fromIntContract .u32 f rm a)
  | .fromU64 f rm => some (fromIntContract .u64 f rm a)
  | .fromI32 f rm => some (fromIntContract .i32 f rm a)
  | .fromI64 f rm => some (fromIntContract .i64 f rm a)
  | .toU32 f rm => some (toIntContract .u32 f rm a)
  | .toU64 f rm => some (toIntContract .u64 f rm a)
  | .toI32 f rm => some (toIntContract .i32 f rm a)
  | .toI64 f rm => some (toIntContract .i64 f rm a)
  | .toF16 f rm => some (toFloatContract .f16 f rm a)
  | .toF32 f rm => some (toFloatContract .f32 f rm a)
  | .toF64 f rm => some (toFloatContract .f64 f rm a)
  | .toF128 f rm => some (toFloatContract .f128 f rm a)
  | .bits _ => none
  | .classify _ => none
  | .eq _ => none
  | .lt _ => none
  | .le _ => none
  | .ltq _ => none
  | .leq _ => none
  | .cmp _ => none
  | .rdflags => none
  | .clrflags => none

/-- A NaN of the format, as the units chose it: their own low bits when those are a NaN, else the same bits with the
exponent set to all ones and the fraction made nonzero. Every NaN can come out (U2, log entry 8). -/
def someNaN (fmt : Fmt) (x : XWord) : XWord :=
  if fmt.isNaN x then low fmt.width x else low fmt.width (x ||| BitVec.ofNat 128 (fmt.infMag + 1))

/-- The result bits of an answer under a contract. -/
def imposeResult (r : ResultSpec) (x : XWord) : XWord :=
  match r with
  | .bits p => p
  | .anyNaN fmt => someNaN fmt x

/-- The flags of an answer under a contract: those it raises, and of those it leaves open what the units return. -/
def imposeFlags (k : Contract) (fl : FlagBits) : FlagBits :=
  if k.may = 0 then k.must else k.must ||| (k.may &&& fl)

/-- An answer made to meet a contract. -/
def Contract.impose (k : Contract) (ans : UnitAnswer) : UnitAnswer where
  res := imposeResult k.res ans.res
  flags := imposeFlags k ans.flags

/-- An answer meets a contract: on the low `w` bits of the result, which are all the block reads (R86), and on the flags. -/
def Contract.Meets (k : Contract) (w : Nat) (ans : UnitAnswer) : Prop :=
  (match k.res with
   | .bits p => low w ans.res = low w p
   | .anyNaN fmt => fmt.isNaN (low w ans.res) = true) ∧
  k.must ||| (k.may &&& ans.flags) = ans.flags

/-- The request whose raw answer is read: for `REM` the units' answer does not depend on the mode (R116 (c)). -/
def rawRequest (q : UnitRequest) : UnitRequest := if q.op = 7 then { q with rm := 0 } else q

/-- `K` (R84). A request that R81 cannot produce gets the raw answer. -/
def Units.answer (q : UnitRequest) : UnitAnswer :=
  match decodeFields q.op q.fmt q.rm with
  | .error _ => Config.unit q
  | .ok i =>
    match contractOf i q.a q.b q.c with
    | none => Config.unit q
    | some k => k.impose (Config.unit (rawRequest q))

end Sys2Proof.Machine
end

