-- ==== Sys2Proof/Machine/Commands.lean ====
section
/-! DEFINITION. The two shapes of a command (40_dispatch.md R71, R80, R81, R86, R91), shared by every meaning. A meaning is
asked for the command latched in `CW`, `A`, `B`, `C`; what it does depends on the phase:
in IDLE the rest of `Accept` after the latch, in WAIT the `UnitAnswer` step, in DONE nothing (R71: not accepted). -/

namespace Sys2Proof.Machine

/-- A LOCAL command: the operand check, then `local_complete` inside `Accept` (R80). No other step concerns it. -/
def localCommand (i : Instr) (finish : State → State) (s : State) : Host.Outcome State Fault Refusal :=
  match s.phase with
  | .idle => if i.operandsFit s.a s.b s.c then .next (finish s) else .next (s.reject .width)
  | .wait => .next s
  | .done => .next s

/-- A dispatched command: in `Accept` the operand check, then one request (R81); in `UnitAnswer` the answer of `K`,
masked to the result width (R86, R88). -/
def unitCommand (i : Instr) (s : State) : Host.Outcome State Fault Refusal :=
  match s.phase with
  | .idle => if i.operandsFit s.a s.b s.c then .next (s.dispatch (s.unitRequest i)) else .next (s.reject .width)
  | .wait => .next (s.takeAnswer i.outWidth (Units.answer (s.unitRequest i)))
  | .done => .next s

end Sys2Proof.Machine
end

