-- ==== Sys2Proof/Machine/Arithmetic.lean ====
section
/-! DEFINITION. The arithmetic operations (42_arithmetic.md): `ADD`, `SUB`, `MUL`, `DIV`, `FMA`, `REM`, `SQRT`, `RINT`. All are
dispatched (R110); what the units answer is `contractOf` in Machine/Units.lean. -/

namespace Sys2Proof.Machine

/-- `ADD.fmt rm a, b`: `a + b` (R111, contract `addContract`). -/
def execAdd (fmt : Fmt) (rm : Rm) (s : State) : Host.Outcome State Fault Refusal := unitCommand (.add fmt rm) s

/-- `SUB.fmt rm a, b`: `a − b`, presented as `SUB`, not as an `ADD` (R112, contract `subContract`). -/
def execSub (fmt : Fmt) (rm : Rm) (s : State) : Host.Outcome State Fault Refusal := unitCommand (.sub fmt rm) s

/-- `MUL.fmt rm a, b`: `a × b` (R113, contract `mulContract`). -/
def execMul (fmt : Fmt) (rm : Rm) (s : State) : Host.Outcome State Fault Refusal := unitCommand (.mul fmt rm) s

/-- `DIV.fmt rm a, b`: `a ÷ b`; division by zero is a flag, no rejection (R114, contract `divContract`). -/
def execDiv (fmt : Fmt) (rm : Rm) (s : State) : Host.Outcome State Fault Refusal := unitCommand (.div fmt rm) s

/-- `FMA.fmt rm a, b, c`: `a × b + c` in one request and one rounding (R115, contract `fmaContract`). -/
def execFma (fmt : Fmt) (rm : Rm) (s : State) : Host.Outcome State Fault Refusal := unitCommand (.fma fmt rm) s

/-- `REM.fmt rm a, b`: IEEE-754 remainder; `rm` is checked and routed, and ignored by the unit (R116, contract `remContract`). -/
def execRem (fmt : Fmt) (rm : Rm) (s : State) : Host.Outcome State Fault Refusal := unitCommand (.rem fmt rm) s

/-- `SQRT.fmt rm a`: square root (R117, contract `sqrtContract`). -/
def execSqrt (fmt : Fmt) (rm : Rm) (s : State) : Host.Outcome State Fault Refusal := unitCommand (.sqrt fmt rm) s

/-- `RINT.fmt rm a`: an integral value of the same format (R118, R125, contract `rintContract`). -/
def execRint (fmt : Fmt) (rm : Rm) (s : State) : Host.Outcome State Fault Refusal := unitCommand (.rint fmt rm) s

end Sys2Proof.Machine
end

