-- ==== Sys2Proof/Machine/Comparison.lean ====
section
/-! DEFINITION. The comparison operations (43_comparison.md): `EQ`, `LT`, `LE`, `LTQ`, `LEQ`, `CMP`. All are LOCAL. -/

namespace Sys2Proof.Machine

/-- The ordering result of `CMP`: a sum of four outcomes, encoded only at the port (R136). -/
inductive Ordering4 where
  | less | equal | greater | unordered
deriving DecidableEq, Repr

/-- The result code of `CMP` (R136). -/
def Ordering4.code : Ordering4 → XWord
  | .less => 0 | .equal => 1 | .greater => 2 | .unordered => 3

/-- The three-way comparison (R136). -/
def compare4 (fmt : Fmt) (a b : XWord) : Ordering4 :=
  if fmt.unordered a b then .unordered
  else if fmt.ord a < fmt.ord b then .less
  else if fmt.ord a = fmt.ord b then .equal
  else .greater

/-- A predicate's result bit. -/
def boolBit (p : Bool) : XWord := if p then 1 else 0

/-- `EQ`'s result (R131): false on a NaN. -/
def eqBit (fmt : Fmt) (a b : XWord) : XWord := boolBit (!fmt.unordered a b && fmt.ord a == fmt.ord b)

/-- `LT`'s and `LTQ`'s result (R132, R134). -/
def ltBit (fmt : Fmt) (a b : XWord) : XWord := boolBit (!fmt.unordered a b && decide (fmt.ord a < fmt.ord b))

/-- `LE`'s and `LEQ`'s result (R133, R135). -/
def leBit (fmt : Fmt) (a b : XWord) : XWord := boolBit (!fmt.unordered a b && decide (fmt.ord a ≤ fmt.ord b))

/-- `EQ.fmt a, b` (R131). -/
def execEq (fmt : Fmt) (s : State) : Host.Outcome State Fault Refusal :=
  localCommand (.eq fmt) (fun s => s.complete 1 (eqBit fmt s.a s.b) (quietCompareFlags fmt s.a s.b)) s

/-- `LT.fmt a, b` (R132). -/
def execLt (fmt : Fmt) (s : State) : Host.Outcome State Fault Refusal :=
  localCommand (.lt fmt) (fun s => s.complete 1 (ltBit fmt s.a s.b) (signalingCompareFlags fmt s.a s.b)) s

/-- `LE.fmt a, b` (R133). -/
def execLe (fmt : Fmt) (s : State) : Host.Outcome State Fault Refusal :=
  localCommand (.le fmt) (fun s => s.complete 1 (leBit fmt s.a s.b) (signalingCompareFlags fmt s.a s.b)) s

/-- `LTQ.fmt a, b` (R134). -/
def execLtq (fmt : Fmt) (s : State) : Host.Outcome State Fault Refusal :=
  localCommand (.ltq fmt) (fun s => s.complete 1 (ltBit fmt s.a s.b) (quietCompareFlags fmt s.a s.b)) s

/-- `LEQ.fmt a, b` (R135). -/
def execLeq (fmt : Fmt) (s : State) : Host.Outcome State Fault Refusal :=
  localCommand (.leq fmt) (fun s => s.complete 1 (leBit fmt s.a s.b) (quietCompareFlags fmt s.a s.b)) s

/-- `CMP.fmt a, b` (R136). -/
def execCmp (fmt : Fmt) (s : State) : Host.Outcome State Fault Refusal :=
  localCommand (.cmp fmt) (fun s => s.complete 2 (compare4 fmt s.a s.b).code (cmpFlags fmt s.a s.b)) s

end Sys2Proof.Machine
end

