-- ==== Sys2Proof/Machine/Conversion.lean ====
section
/-! DEFINITION. The conversion operations (44_conversion.md). All are dispatched to the rounding network but the identity
conversion, which is LOCAL (R155); what the units answer is `contractOf` in Machine/Units.lean. -/

namespace Sys2Proof.Machine

/-- A float-to-float conversion `i` from `fmt` to `dst` (R155, R156): to its own format it copies the operand bit for bit
and raises nothing; to another format it is dispatched. -/
def convertFormat (dst fmt : Fmt) (i : Instr) (s : State) : Host.Outcome State Fault Refusal :=
  if fmt = dst then localCommand i (fun s => s.complete fmt.width s.a 0) s else unitCommand i s

/-- `FROM_U32.fmt rm a`: unsigned 32-bit integer to `fmt` (R141). -/
def execFromU32 (fmt : Fmt) (rm : Rm) (s : State) : Host.Outcome State Fault Refusal := unitCommand (.fromU32 fmt rm) s

/-- `FROM_U64.fmt rm a`: unsigned 64-bit integer to `fmt` (R142). -/
def execFromU64 (fmt : Fmt) (rm : Rm) (s : State) : Host.Outcome State Fault Refusal := unitCommand (.fromU64 fmt rm) s

/-- `FROM_I32.fmt rm a`: signed 32-bit integer to `fmt` (R143). -/
def execFromI32 (fmt : Fmt) (rm : Rm) (s : State) : Host.Outcome State Fault Refusal := unitCommand (.fromI32 fmt rm) s

/-- `FROM_I64.fmt rm a`: signed 64-bit integer to `fmt` (R144). -/
def execFromI64 (fmt : Fmt) (rm : Rm) (s : State) : Host.Outcome State Fault Refusal := unitCommand (.fromI64 fmt rm) s

/-- `TO_U32.fmt rm a`: `fmt` to unsigned 32-bit integer (R145). -/
def execToU32 (fmt : Fmt) (rm : Rm) (s : State) : Host.Outcome State Fault Refusal := unitCommand (.toU32 fmt rm) s

/-- `TO_U64.fmt rm a`: `fmt` to unsigned 64-bit integer (R146). -/
def execToU64 (fmt : Fmt) (rm : Rm) (s : State) : Host.Outcome State Fault Refusal := unitCommand (.toU64 fmt rm) s

/-- `TO_I32.fmt rm a`: `fmt` to signed 32-bit integer (R147). -/
def execToI32 (fmt : Fmt) (rm : Rm) (s : State) : Host.Outcome State Fault Refusal := unitCommand (.toI32 fmt rm) s

/-- `TO_I64.fmt rm a`: `fmt` to signed 64-bit integer (R148). -/
def execToI64 (fmt : Fmt) (rm : Rm) (s : State) : Host.Outcome State Fault Refusal := unitCommand (.toI64 fmt rm) s

/-- `TO_F16.fmt rm a`: `fmt` to `F16`; the identity when `fmt` is `F16` (R151, R155, R156). -/
def execToF16 (fmt : Fmt) (rm : Rm) (s : State) : Host.Outcome State Fault Refusal := convertFormat .f16 fmt (.toF16 fmt rm) s

/-- `TO_F32.fmt rm a`: `fmt` to `F32`; the identity when `fmt` is `F32` (R152, R155, R156). -/
def execToF32 (fmt : Fmt) (rm : Rm) (s : State) : Host.Outcome State Fault Refusal := convertFormat .f32 fmt (.toF32 fmt rm) s

/-- `TO_F64.fmt rm a`: `fmt` to `F64`; the identity when `fmt` is `F64` (R153, R155, R156). -/
def execToF64 (fmt : Fmt) (rm : Rm) (s : State) : Host.Outcome State Fault Refusal := convertFormat .f64 fmt (.toF64 fmt rm) s

/-- `TO_F128.fmt rm a`: `fmt` to `F128`; the identity when `fmt` is `F128` (R154, R155, R156). -/
def execToF128 (fmt : Fmt) (rm : Rm) (s : State) : Host.Outcome State Fault Refusal := convertFormat .f128 fmt (.toF128 fmt rm) s

end Sys2Proof.Machine
end

