-- ==== Sys2Proof/Machine/FlagAccess.lean ====
section
/-! DEFINITION. The flag access operations (45_flag_access.md): `RDFLAGS`, `CLRFLAGS`, the block's only system commands. -/

namespace Sys2Proof.Machine

/-- `RDFLAGS` (R160): the accumulator in `RES[4:0]`; nothing raised, nothing cleared. -/
def execRdflags (s : State) : Host.Outcome State Fault Refusal :=
  localCommand .rdflags (fun s => s.complete 5 (s.fflags.setWidth 128) 0) s

/-- `CLRFLAGS` (R161): the accumulator cleared, `RES` = 0. -/
def execClrflags (s : State) : Host.Outcome State Fault Refusal :=
  localCommand .clrflags State.clearFlags s

end Sys2Proof.Machine
end

