-- ==== Sys2Proof/Machine/FormatOps.lean ====
section
/-! DEFINITION. The format operations (41_format_ops.md): `BITS`, `CLASS`. -/

namespace Sys2Proof.Machine

/-- The predicate vector of `CLASS` (R101): bit 0 NaN, 1 infinite, 2 zero, 3 sign. -/
def classBits (fmt : Fmt) (x : XWord) : XWord :=
  (BitVec.ofBool (fmt.sign x) ++ BitVec.ofBool (fmt.isZero x) ++ BitVec.ofBool (fmt.isInf x) ++
    BitVec.ofBool (fmt.isNaN x)).setWidth 128

/-- `BITS.fmt a` (R100): the pattern, bit for bit. -/
def execBits (fmt : Fmt) (s : State) : Host.Outcome State Fault Refusal :=
  localCommand (.bits fmt) (fun s => s.complete fmt.width s.a 0) s

/-- `CLASS.fmt a` (R101): no flag, signaling NaNs included. -/
def execClassify (fmt : Fmt) (s : State) : Host.Outcome State Fault Refusal :=
  localCommand (.classify fmt) (fun s => s.complete 4 (classBits fmt s.a) 0) s

end Sys2Proof.Machine
end

