-- ==== Sys2Proof/Machine/Dispatch.lean ====
section
/-! DEFINITION. The dispatch of a decoded command to its meaning. -/

namespace Sys2Proof.Machine

def exec (i : Instr) (s : State) : Host.Outcome State Fault Refusal :=
  match i with
  | .bits fmt => Sys2Proof.Machine.execBits fmt s
  | .classify fmt => Sys2Proof.Machine.execClassify fmt s
  | .add fmt rm => Sys2Proof.Machine.execAdd fmt rm s
  | .sub fmt rm => Sys2Proof.Machine.execSub fmt rm s
  | .mul fmt rm => Sys2Proof.Machine.execMul fmt rm s
  | .div fmt rm => Sys2Proof.Machine.execDiv fmt rm s
  | .fma fmt rm => Sys2Proof.Machine.execFma fmt rm s
  | .rem fmt rm => Sys2Proof.Machine.execRem fmt rm s
  | .sqrt fmt rm => Sys2Proof.Machine.execSqrt fmt rm s
  | .rint fmt rm => Sys2Proof.Machine.execRint fmt rm s
  | .eq fmt => Sys2Proof.Machine.execEq fmt s
  | .lt fmt => Sys2Proof.Machine.execLt fmt s
  | .le fmt => Sys2Proof.Machine.execLe fmt s
  | .ltq fmt => Sys2Proof.Machine.execLtq fmt s
  | .leq fmt => Sys2Proof.Machine.execLeq fmt s
  | .cmp fmt => Sys2Proof.Machine.execCmp fmt s
  | .fromU32 fmt rm => Sys2Proof.Machine.execFromU32 fmt rm s
  | .fromU64 fmt rm => Sys2Proof.Machine.execFromU64 fmt rm s
  | .fromI32 fmt rm => Sys2Proof.Machine.execFromI32 fmt rm s
  | .fromI64 fmt rm => Sys2Proof.Machine.execFromI64 fmt rm s
  | .toU32 fmt rm => Sys2Proof.Machine.execToU32 fmt rm s
  | .toU64 fmt rm => Sys2Proof.Machine.execToU64 fmt rm s
  | .toI32 fmt rm => Sys2Proof.Machine.execToI32 fmt rm s
  | .toI64 fmt rm => Sys2Proof.Machine.execToI64 fmt rm s
  | .toF16 fmt rm => Sys2Proof.Machine.execToF16 fmt rm s
  | .toF32 fmt rm => Sys2Proof.Machine.execToF32 fmt rm s
  | .toF64 fmt rm => Sys2Proof.Machine.execToF64 fmt rm s
  | .toF128 fmt rm => Sys2Proof.Machine.execToF128 fmt rm s
  | .rdflags => Sys2Proof.Machine.execRdflags s
  | .clrflags => Sys2Proof.Machine.execClrflags s

end Sys2Proof.Machine
end

