-- ==== Sys2Proof/Machine/Step.lean ====
section
/-! DEFINITION. The step function, and how the host places a command where the next step accepts it. -/

namespace Sys2Proof.Machine

/-- One step of the block: `Accept`, `UnitAnswer`, `Deliver` or `Reset`, or none of them (R70, R91). -/
def step (s : State) : Host.Outcome State Fault Refusal := cycle exec s

/-- `s` with the command word `w` offered to the next step (log entry 16): the block fetches nothing (R27), a command
comes whole on the request port, and every command is one 16-bit word. -/
def State.withFetchWord (s : State) (nbits w : Nat) : State := s.offering (BitVec.ofNat 16 (w % 2 ^ nbits))

end Sys2Proof.Machine
end

