-- ==== Sys2Proof/Safety.lean ====
section
/-! DEFINITION. What counts as a sound state of the block (10_state.md R33 and the facts it rests on), and the words the
claims use. -/

namespace Sys2Proof.Machine

/-! ## The invariant -/

/-- In WAIT the latched command is valid and one that is dispatched (R71, R91). -/
def State.WaitHoldsDispatched (s : State) : Prop :=
  s.phase = .wait → validate s.cw s.a s.b s.c = .ok ∧ ∃ i, decode s.cw = .ok i ∧ i.isLocal = false

/-- In DONE the status is the verdict of `validate` on the latched command (R72, R88, R176). -/
def State.StatusIsVerdict (s : State) : Prop :=
  s.phase = .done → s.status = validate s.cw s.a s.b s.c

/-- In DONE with `STATUS = 0`, `RES[127:W] = 0` with `W` the result width of the latched operation (R33 (b)). -/
def State.ResultFits (s : State) : Prop :=
  s.phase = .done → s.status = .ok → ∃ i, decode s.cw = .ok i ∧ fits i.outWidth s.res = true

/-- In DONE with `STATUS ≠ 0`, `RES = 0` and `RFLAGS = 0` (R33 (c)). -/
def State.RejectionIsEmpty (s : State) : Prop :=
  s.phase = .done → s.status ≠ .ok → s.res = 0 ∧ s.rflags = 0

/-- `u_valid` is up only in WAIT, and then the request is that of the latched command (R81, R198). -/
def State.RequestIsLatched (s : State) : Prop :=
  ∀ q, s.uReq = some q → s.phase = .wait ∧ ∃ i, decode s.cw = .ok i ∧ q = s.unitRequest i

/-- A sound state. Every step keeps it and the reset state has it. -/
structure State.Sound (s : State) : Prop where
  wait    : s.WaitHoldsDispatched
  verdict : s.StatusIsVerdict
  result  : s.ResultFits
  empty   : s.RejectionIsEmpty
  request : s.RequestIsLatched

/-! ## Words of the claims -/

/-- Every flag of `f` is a flag of `g`: `g` is a bitwise superset of `f`. -/
def FlagsWithin (f g : FlagBits) : Prop := f &&& g = f

/-- The step offered by the sampled inputs is the acceptance of a command: the block is idle and not being reset. -/
def State.Accepting (s : State) : Prop :=
  s.phase = .idle ∧ s.sampled.rst = false ∧ s.sampled.reqValid = true

/-- The state a step starts its writes from: the inputs of the step used up, `u_valid` down. -/
def State.Begun (s : State) : State := { s with inputs := s.inputs.tail, uReq := none }

/-- The state right after the latch of an acceptance. -/
def State.Latched (s : State) : State :=
  { s.Begun with cw := s.sampled.reqCw, a := s.sampled.reqA, b := s.sampled.reqB, c := s.sampled.reqC }

/-- `s` with a response of a rejection (R176). -/
def State.WithRejection (s : State) (r : Reject) : State :=
  { s with res := 0, rflags := 0, status := .rejected r, phase := .done }

/-- `s` with a response of a completed command whose result port value is `v` and whose flags are `fl` (R88). -/
def State.WithResponse (s : State) (v : XWord) (fl : FlagBits) : State :=
  { s with res := v, rflags := fl, fflags := s.fflags ||| fl, status := .ok, phase := .done }

/-- The columns of the operation table by operation number (R54): arity, whether a mode is taken, operand width. -/
def tableArity (op : Nat) : Nat :=
  [1, 1, 2, 2, 2, 2, 3, 2, 1, 1, 2, 2, 2, 2, 2, 2, 1, 1, 1, 1, 1, 1, 1, 1, 1, 1, 1, 1, 0, 0].getD op 0

def tableUsesRm (op : Nat) : Bool := (2 ≤ op && op ≤ 9) || (16 ≤ op && op ≤ 27)

def tableInWidth (op fmt : Nat) : Nat :=
  if op = 16 ∨ op = 18 then 32 else if op = 17 ∨ op = 19 then 64 else 16 * 2 ^ fmt

/-- The first failing check of a command, by the arithmetic of its word and operands (R72): fields of R51, columns of
R54. -/
def firstFailure (cw a b c : Nat) : Option Reject :=
  let op := cw % 2 ^ 5
  let w := tableInWidth op (cw / 2 ^ 5 % 2 ^ 2)
  if cw / 2 ^ 10 ≠ 0 then some .rsvd
  else if 30 ≤ op then some .op
  else if tableUsesRm op ∧ 5 ≤ cw / 2 ^ 7 % 2 ^ 3 then some .rm
  else if (1 ≤ tableArity op ∧ 2 ^ w ≤ a) ∨ (2 ≤ tableArity op ∧ 2 ^ w ≤ b) ∨ (3 ≤ tableArity op ∧ 2 ^ w ≤ c) then
    some .width
  else none

/-- The eight arithmetic operations (42_arithmetic.md). -/
def arithmeticOps (fmt : Fmt) (rm : Rm) : List Instr :=
  [.add fmt rm, .sub fmt rm, .mul fmt rm, .div fmt rm, .fma fmt rm, .rem fmt rm, .sqrt fmt rm, .rint fmt rm]

/-- The operands a command uses. -/
def State.usedOperands (s : State) (i : Instr) : List XWord := [s.a, s.b, s.c].take i.arity

/-- A conversion to the integer type `t` (R145 to R148). -/
def toIntOp (t : IntTy) (fmt : Fmt) (rm : Rm) : Instr :=
  match t with
  | .u32 => .toU32 fmt rm | .u64 => .toU64 fmt rm | .i32 => .toI32 fmt rm | .i64 => .toI64 fmt rm

/-- A conversion from the integer type `t` (R141 to R144). -/
def fromIntOp (t : IntTy) (fmt : Fmt) (rm : Rm) : Instr :=
  match t with
  | .u32 => .fromU32 fmt rm | .u64 => .fromU64 fmt rm | .i32 => .fromI32 fmt rm | .i64 => .fromI64 fmt rm

/-- A conversion to the format `dst` (R151 to R154). -/
def toFmtOp (dst fmt : Fmt) (rm : Rm) : Instr :=
  match dst with
  | .f16 => .toF16 fmt rm | .f32 => .toF32 fmt rm | .f64 => .toF64 fmt rm | .f128 => .toF128 fmt rm

/-- The boundary patterns of an integer type (R149): `lo` and `hi`. -/
def loPattern : IntTy → XWord
  | .u32 => 0x00000000 | .i32 => 0x80000000 | .u64 => 0x0000000000000000 | .i64 => 0x8000000000000000

def hiPattern : IntTy → XWord
  | .u32 => 0xFFFFFFFF | .i32 => 0x7FFFFFFF | .u64 => 0xFFFFFFFFFFFFFFFF | .i64 => 0x7FFFFFFFFFFFFFFF

/-- `[lo, hi]` of an integer type (R145 to R148). -/
def loValue : IntTy → Int
  | .u32 => 0 | .i32 => -2147483648 | .u64 => 0 | .i64 => -9223372036854775808

def hiValue : IntTy → Int
  | .u32 => 4294967295 | .i32 => 2147483647 | .u64 => 18446744073709551615 | .i64 => 9223372036854775807

/-- `a` is a finite number of the format: neither NaN nor infinity (R12). -/
def IsFinite (fmt : Fmt) (a : XWord) : Prop := fmt.isNaN a = false ∧ fmt.isInf a = false

/-- The value of a finite pattern, as R13 writes it: `s · frac · 2^(1 - bias - F)` with exponent field 0, else
`s · (2^F + frac) · 2^(exp - bias - F)`. -/
def realValue (fmt : Fmt) (a : XWord) : ℚ :=
  (if fmt.sign a then -1 else 1) *
  (if fmt.exp a = 0 then (fmt.frac a : ℚ) * 2 ^ (1 - (fmt.bias : ℤ) - fmt.fracWidth)
   else (2 ^ fmt.fracWidth + (fmt.frac a : ℚ)) * 2 ^ ((fmt.exp a : ℤ) - fmt.bias - fmt.fracWidth))

/-- `r` is the correctly rounded result for the exact real `x`, as R14 words the five modes, among the finite numbers of
the format. -/
def RoundsTo (fmt : Fmt) (rm : Rm) (x : ℝ) (r : XWord) : Prop :=
  IsFinite fmt r ∧
  match rm with
  | .rne => ∀ y, IsFinite fmt y →
      |(realValue fmt r : ℝ) - x| ≤ |(realValue fmt y : ℝ) - x| ∧
      (|(realValue fmt r : ℝ) - x| = |(realValue fmt y : ℝ) - x| → realValue fmt y ≠ realValue fmt r → fmt.frac r % 2 = 0)
  | .rtz => |(realValue fmt r : ℝ)| ≤ |x| ∧
      ∀ y, IsFinite fmt y → |(realValue fmt y : ℝ)| ≤ |x| → |(realValue fmt r : ℝ) - x| ≤ |(realValue fmt y : ℝ) - x|
  | .rdn => (realValue fmt r : ℝ) ≤ x ∧ ∀ y, IsFinite fmt y → (realValue fmt y : ℝ) ≤ x → realValue fmt y ≤ realValue fmt r
  | .rup => x ≤ (realValue fmt r : ℝ) ∧ ∀ y, IsFinite fmt y → x ≤ (realValue fmt y : ℝ) → realValue fmt r ≤ realValue fmt y
  | .rmm => ∀ y, IsFinite fmt y →
      |(realValue fmt r : ℝ) - x| ≤ |(realValue fmt y : ℝ) - x| ∧
      (|(realValue fmt r : ℝ) - x| = |(realValue fmt y : ℝ) - x| → |realValue fmt y| ≤ |realValue fmt r|)

/-- `j` is the real `x` rounded to an integer under the mode (R14 applied to the integers, R150 (b)). -/
def RoundsToInt (rm : Rm) (x : ℚ) (j : Int) : Prop :=
  match rm with
  | .rne => ∀ i : Int, |(j : ℚ) - x| ≤ |(i : ℚ) - x| ∧ (|(j : ℚ) - x| = |(i : ℚ) - x| → i ≠ j → j % 2 = 0)
  | .rtz => |(j : ℚ)| ≤ |x| ∧ ∀ i : Int, |(i : ℚ)| ≤ |x| → |(j : ℚ) - x| ≤ |(i : ℚ) - x|
  | .rdn => (j : ℚ) ≤ x ∧ ∀ i : Int, (i : ℚ) ≤ x → i ≤ j
  | .rup => x ≤ (j : ℚ) ∧ ∀ i : Int, x ≤ (i : ℚ) → j ≤ i
  | .rmm => ∀ i : Int, |(j : ℚ) - x| ≤ |(i : ℚ) - x| ∧ (|(j : ℚ) - x| = |(i : ℚ) - x| → |i| ≤ |j|)

/-- The five flags of a flag vector (R25). -/
def NX (f : FlagBits) : Bool := f.getLsbD 0

def UF (f : FlagBits) : Bool := f.getLsbD 1

def OF (f : FlagBits) : Bool := f.getLsbD 2

def DZ (f : FlagBits) : Bool := f.getLsbD 3

def NV (f : FlagBits) : Bool := f.getLsbD 4

/-- The pattern of a zero of the given sign: all bits zero, or only bit `N − 1` (R123). -/
def signedZero (fmt : Fmt) (neg : Bool) : XWord := if neg then BitVec.ofNat 128 (2 ^ (fmt.width - 1)) else 0

/-- The pattern of an infinity of the given sign: exponent all ones, fraction zero (R12). -/
def signedInfinity (fmt : Fmt) (neg : Bool) : XWord :=
  BitVec.ofNat 128 ((if neg then 2 ^ (fmt.width - 1) else 0) + (2 ^ fmt.expWidth - 1) * 2 ^ fmt.fracWidth)

/-- The magnitude bits of an overflowed result (R15): of an infinity, or one less for the largest finite magnitude `MAXF`. -/
def overflowedMagnitude (fmt : Fmt) (rm : Rm) (neg : Bool) : Nat :=
  let inf := (2 ^ fmt.expWidth - 1) * 2 ^ fmt.fracWidth
  match rm with
  | .rne => inf
  | .rmm => inf
  | .rtz => inf - 1
  | .rdn => if neg then inf else inf - 1
  | .rup => if neg then inf - 1 else inf

/-- `MAXF(fmt)`, the largest finite magnitude (R13): exponent `2^E - 2`, fraction all ones. -/
def largestFinite (fmt : Fmt) : ℚ :=
  realValue fmt (BitVec.ofNat 128 ((2 ^ fmt.expWidth - 1) * 2 ^ fmt.fracWidth - 1))

/-- `OF` and the result it goes with, for an exact result of magnitude `x` and sign `neg`: it is raised only above `MAXF`,
always from the next power of two on, and then the magnitude is that of R15. -/
def OverflowsAs (fmt : Fmt) (rm : Rm) (neg : Bool) (x : ℚ) (t : State) : Prop :=
  (OF t.rflags = true → largestFinite fmt < x ∧ fmt.mag t.res = overflowedMagnitude fmt rm neg) ∧
  ((2 : ℚ) ^ (fmt.bias + 1) ≤ x → OF t.rflags = true)

/-- The product of `a` and `b` is an infinity: one of them is infinite and the other neither a NaN nor a zero. -/
def InfiniteProduct (fmt : Fmt) (a b : XWord) : Prop :=
  (fmt.isInf a = true ∧ fmt.isNaN b = false ∧ fmt.isZero b = false) ∨
  (fmt.isInf b = true ∧ fmt.isNaN a = false ∧ fmt.isZero a = false)

/-- The product of `a` and `b` is `0 × ∞`, an invalid operation. -/
def InvalidProduct (fmt : Fmt) (a b : XWord) : Prop :=
  (fmt.isZero a = true ∧ fmt.isInf b = true) ∨ (fmt.isInf a = true ∧ fmt.isZero b = true)

/-- The operands of a two-operand command of the format fit their width. -/
def State.TwoFit (s : State) (fmt : Fmt) : Prop :=
  s.a.toNat < 2 ^ fmt.width ∧ s.b.toNat < 2 ^ fmt.width

/-- The two steps of a dispatched command, with its request written out: in IDLE with fitting operands the request is
presented and nothing else changes, with a malformed operand it is rejected; in WAIT the low `w` bits of the answer and its
five flags complete it. -/
def RunsAs (i : Instr) (inW w : Nat) (request : State → UnitRequest)
    (checked : State → List XWord) : Prop :=
  ∀ s : State,
    (s.phase = .idle → (∀ x ∈ checked s, x.toNat < 2 ^ inW) →
      exec i s = .next { s with uReq := some (request s), phase := .wait }) ∧
    (s.phase = .idle → (∃ x ∈ checked s, 2 ^ inW ≤ x.toNat) → exec i s = .next (s.WithRejection .width)) ∧
    (s.phase = .wait → exec i s = .next (s.WithResponse
      (BitVec.ofNat 128 ((Units.answer (request s)).res.toNat % 2 ^ w)) (Units.answer (request s)).flags))

/-- The exact result of an arithmetic operation on finite operands, where it has one (R111 to R115, R117). -/
noncomputable def exactResult (i : Instr) (fmt : Fmt) (s : State) : Option ℝ :=
  let a : ℝ := realValue fmt s.a
  let b : ℝ := realValue fmt s.b
  let c : ℝ := realValue fmt s.c
  match i with
  | .add _ _ => some (a + b)
  | .sub _ _ => some (a - b)
  | .mul _ _ => some (a * b)
  | .div _ _ => if b = 0 then none else some (a / b)
  | .fma _ _ => some (a * b + c)
  | .sqrt _ _ => if a < 0 then none else some (Real.sqrt a)
  | _ => none

end Sys2Proof.Machine
end

