-- ==== Sys2Proof/Certificates/Slice0/Obligations.lean ====
section
/-! DEFINITION. The statements for the provers. A statement whose conclusion is `exec i s = .next { s with … }` gives the
frame too: every field not named keeps its value. -/

open Sys2Proof Sys2Proof.Machine

/-! ## Encoding (30_encoding.md) -/

/-- Decoding the canonical word of a command gives the command, every field at every legal value. -/
def Obligations.DecodeOfEncodeIsTheCommand : Prop :=
  ∀ i : Instr, decode (encode i) = .ok i

/-- R55: the decoder's verdict on every 16-bit word, by the arithmetic of the word. -/
def Obligations.DecodeIsTotalAndInOrder : Prop :=
  ∀ cw : CmdWord,
    let op := cw.toNat % 2 ^ 5
    let fmt := cw.toNat / 2 ^ 5 % 2 ^ 2
    let rm := cw.toNat / 2 ^ 7 % 2 ^ 3
    let rsv := cw.toNat / 2 ^ 10
    (rsv ≠ 0 → decode cw = .error .rsvd) ∧
    (rsv = 0 → 30 ≤ op → decode cw = .error .op) ∧
    (rsv = 0 → op < 30 → tableUsesRm op = true → 5 ≤ rm → decode cw = .error .rm) ∧
    (rsv = 0 → op < 30 → (tableUsesRm op = true → rm < 5) →
      ∃ i, decode cw = .ok i ∧ i.opcode.toNat = op ∧ i.fmtCode.toNat = (if op < 28 then fmt else 0) ∧
        i.rmCode.toNat = (if tableUsesRm op then rm else 0))

/-- R59: fields and ports an operation does not use are ignored. -/
def Obligations.UnusedFieldsAndPortsAreIgnored : Prop :=
  (∀ cw cw' : CmdWord, cw.toNat % 2 ^ 5 = cw'.toNat % 2 ^ 5 → cw.toNat / 2 ^ 10 = cw'.toNat / 2 ^ 10 →
    (cw.toNat % 2 ^ 5 < 28 → cw.toNat / 2 ^ 5 % 2 ^ 2 = cw'.toNat / 2 ^ 5 % 2 ^ 2) →
    (tableUsesRm (cw.toNat % 2 ^ 5) = true → cw.toNat / 2 ^ 7 % 2 ^ 3 = cw'.toNat / 2 ^ 7 % 2 ^ 3) →
    decode cw = decode cw') ∧
  (∀ (i : Instr) (s : State) (x y z : XWord), ∃ t,
    exec i s = .next t ∧
    (i.arity < 3 → exec i { s with c := z } = .next { t with c := z }) ∧
    (i.arity < 2 → exec i { s with b := y, c := z } = .next { t with b := y, c := z }) ∧
    (i.arity < 1 → exec i { s with a := x, b := y, c := z } = .next { t with a := x, b := y, c := z }))

/-- Words of the worked encodings (R62) and of the vectors of 95_test_vectors.md. -/
def Obligations.WorkedEncodingsDecode : Prop :=
  decode 0x0001 = .ok (.classify .f16) ∧ decode 0x0022 = .ok (.add .f32 .rne) ∧ decode 0x0122 = .ok (.add .f32 .rdn) ∧
  decode 0x0266 = .ok (.fma .f128 .rmm) ∧ decode 0x002F = .ok (.cmp .f32) ∧ decode 0x00B4 = .ok (.toU32 .f32 .rtz) ∧
  decode 0x00B8 = .ok (.toF16 .f32 .rtz) ∧ decode 0x001D = .ok .clrflags ∧ decode 0x03AA = .ok (.eq .f32) ∧
  decode 0x003E = .error .op ∧ decode 0x02A2 = .error .rm ∧ decode 0x0422 = .error .rsvd

/-! ## The steps (40_dispatch.md, 60_exceptions.md, 70_reset_and_hazards.md) -/

/-- An accepted word that decodes runs exactly the meaning of its command, on the state in which word and operands are
latched, the inputs of the step used up and `u_valid` down. -/
def Obligations.AcceptRunsTheDecodedCommand : Prop :=
  ∀ (s : State) (i : Instr), s.Accepting → decode s.sampled.reqCw = .ok i →
    step s = exec i { s with
      cw := s.sampled.reqCw, a := s.sampled.reqA, b := s.sampled.reqB, c := s.sampled.reqC
      inputs := s.inputs.tail, uReq := none }

/-- While the units hold a request, the step in which they answer runs the meaning of the command in `CW`; until then
nothing changes but the port pulse and the inputs used up. -/
def Obligations.AnswerRunsTheLatchedCommand : Prop :=
  ∀ (s : State) (i : Instr), s.phase = .wait → s.sampled.rst = false → decode s.cw = .ok i →
    step s = if s.sampled.uDone then exec i { s with inputs := s.inputs.tail, uReq := none }
      else .next { s with inputs := s.inputs.tail, uReq := none }

/-- R72, R176: an offered command with a failing check is rejected with the code of the FIRST failing check, and the
rejection does nothing else: `FFLAGS` keeps its value and no request is presented. -/
def Obligations.RejectionReportsFirstFailureOnly : Prop :=
  ∀ (s : State) (r : Reject), s.Accepting →
    firstFailure s.sampled.reqCw.toNat s.sampled.reqA.toNat s.sampled.reqB.toNat s.sampled.reqC.toNat = some r →
    step s = .next { s with
      cw := s.sampled.reqCw, a := s.sampled.reqA, b := s.sampled.reqB, c := s.sampled.reqC
      inputs := s.inputs.tail, uReq := none
      res := 0, rflags := 0, status := .rejected r, phase := .done }

/-- R178: a command with no failing check is never rejected, whatever values its operands encode: it completes with
`STATUS = OK` in the same step, or it is with the units. -/
def Obligations.ValidCommandsAreNeverRejected : Prop :=
  ∀ s : State, s.Accepting →
    firstFailure s.sampled.reqCw.toNat s.sampled.reqA.toNat s.sampled.reqB.toNat s.sampled.reqC.toNat = none →
    ∃ (i : Instr) (t : State), decode s.sampled.reqCw = .ok i ∧ step s = .next t ∧
      ((i.isLocal = true ∧ t.phase = .done ∧ t.status = .ok ∧ t.uReq = none) ∨
       (i.isLocal = false ∧ t.phase = .wait ∧ t.uReq.isSome = true ∧ t.res = s.res ∧ t.rflags = s.rflags ∧
        t.fflags = s.fflags ∧ t.status = s.status))

/-- R89: a delivery hands over `STATUS`, `RES`, `RFLAGS` and only frees the block; until it happens the response is held. -/
def Obligations.DeliveryFreesTheBlock : Prop :=
  ∀ s : State, s.phase = .done → s.sampled.rst = false →
    s.response = some (s.status.code, s.res, s.rflags) ∧
    step s = .next { s with
      phase := if s.sampled.rspReady then .idle else .done
      inputs := s.inputs.tail, uReq := none }

/-- R190: reset wins over every step, in every phase, and sets the registers of R32. -/
def Obligations.ResetWinsInEveryPhase : Prop :=
  ∀ s : State, s.sampled.rst = true → ∃ t, step s = .next t ∧
    t.phase = .idle ∧ t.fflags = 0 ∧ t.rflags = 0 ∧ t.status = .ok ∧ t.res = 0 ∧ t.uReq = none ∧
    t.reqReady = true ∧ t.rspValid = false ∧ t.uValid = false ∧ t.inputs = s.inputs.tail

/-- The state right after reset (R32). -/
def Obligations.ResetStateIsAsSpecified : Prop :=
  State.reset.phase = .idle ∧ State.reset.fflags = 0 ∧ State.reset.rflags = 0 ∧ State.reset.status.code = 0 ∧
  State.reset.res = 0 ∧ State.reset.reqReady = true ∧ State.reset.rspValid = false ∧ State.reset.uValid = false

/-- R71, R196: in IDLE with nothing offered every register is held. -/
def Obligations.IdleWithoutOfferHoldsEverything : Prop :=
  ∀ s : State, s.phase = .idle → s.sampled.rst = false → s.sampled.reqValid = false →
    step s = .next { s with inputs := s.inputs.tail, uReq := none }

/-- No step of the block faults or is refused, from any state (R174 to R178: every command is executed or rejected). -/
def Obligations.EveryStepHasANextState : Prop :=
  ∀ s : State, ∃ t, step s = .next t

/-- R91, R196: the transition table. From a sound state, without reset, a step makes one of the five transitions with the
writes of its row, or holds every register because nothing is offered, the units have not answered, or nobody takes the
response. -/
def Obligations.TransitionTableIsComplete : Prop :=
  ∀ s t : State, s.Sound → s.sampled.rst = false → step s = .next t →
    (((s.phase = .idle ∧ s.sampled.reqValid = false) ∨ (s.phase = .wait ∧ s.sampled.uDone = false) ∨
        (s.phase = .done ∧ s.sampled.rspReady = false)) ∧
      t = { s with inputs := s.inputs.tail, uReq := none }) ∨
    (s.phase = .idle ∧ s.sampled.reqValid = true ∧ t.phase = .done ∧ t.uReq = none ∧
      t.cw = s.sampled.reqCw ∧ t.a = s.sampled.reqA ∧ t.b = s.sampled.reqB ∧ t.c = s.sampled.reqC ∧
      validate t.cw t.a t.b t.c ≠ .ok ∧ t.status = validate t.cw t.a t.b t.c ∧ t.res = 0 ∧ t.rflags = 0 ∧
      t.fflags = s.fflags) ∨
    (s.phase = .idle ∧ s.sampled.reqValid = true ∧ t.phase = .done ∧ t.uReq = none ∧
      t.cw = s.sampled.reqCw ∧ t.a = s.sampled.reqA ∧ t.b = s.sampled.reqB ∧ t.c = s.sampled.reqC ∧
      validate t.cw t.a t.b t.c = .ok ∧ t.status = .ok ∧ ∃ i, decode t.cw = .ok i ∧ i.isLocal = true) ∨
    (s.phase = .idle ∧ s.sampled.reqValid = true ∧ t.phase = .wait ∧
      t.cw = s.sampled.reqCw ∧ t.a = s.sampled.reqA ∧ t.b = s.sampled.reqB ∧ t.c = s.sampled.reqC ∧
      validate t.cw t.a t.b t.c = .ok ∧ t.res = s.res ∧ t.rflags = s.rflags ∧ t.fflags = s.fflags ∧
      t.status = s.status ∧ ∃ i, decode t.cw = .ok i ∧ i.isLocal = false ∧ t.uReq = some (t.unitRequest i)) ∨
    (s.phase = .wait ∧ s.sampled.uDone = true ∧
      t = { s with inputs := s.inputs.tail, uReq := none, res := t.res, rflags := t.rflags,
                   fflags := s.fflags ||| t.rflags, status := .ok, phase := .done }) ∨
    (s.phase = .done ∧ s.sampled.rspReady = true ∧
      t = { s with inputs := s.inputs.tail, uReq := none, phase := .idle })

/-- R81, R83: an accepted dispatched command presents one request, carrying its own operation, format and mode codes
unchanged and its operands unmodified, the ports beyond the arity zero; the mode is one of the five; the request stands
for one step only. -/
def Obligations.RequestRoutesTheCommandUnchanged : Prop :=
  ∀ (s : State) (i : Instr), s.Accepting → decode s.sampled.reqCw = .ok i → i.isLocal = false →
    i.operandsFit s.sampled.reqA s.sampled.reqB s.sampled.reqC = true →
    ∃ t q, step s = .next t ∧ t.phase = .wait ∧ t.uReq = some q ∧ q.sel = i.unitSelect ∧ q.sel ≠ 0 ∧
      q.op.toNat = s.sampled.reqCw.toNat % 2 ^ 5 ∧ q.fmt.toNat = s.sampled.reqCw.toNat / 2 ^ 5 % 2 ^ 2 ∧
      q.rm.toNat = s.sampled.reqCw.toNat / 2 ^ 7 % 2 ^ 3 ∧ q.rm.toNat < 5 ∧
      q.a = s.sampled.reqA ∧ q.b = (if 2 ≤ i.arity then s.sampled.reqB else 0) ∧
      q.c = (if 3 ≤ i.arity then s.sampled.reqC else 0) ∧
      ∀ t', step t = .next t' → t'.uReq = none

/-! ## Invariants -/

/-- R33: the reset state is sound, every step keeps a sound state sound, and a step leaves `FFLAGS` a superset of what it
was unless it is a reset or the completion of `CLRFLAGS`. -/
def Obligations.ReachableStatesAreSound : Prop :=
  State.reset.Sound ∧
  ∀ s t : State, s.Sound → step s = .next t →
    t.Sound ∧
    (FlagsWithin s.fflags t.fflags ∨ s.sampled.rst = true ∨
      (s.Accepting ∧ decode s.sampled.reqCw = .ok .clrflags ∧ t.fflags = 0))

/-- The state right after reset is sound. -/
def Obligations.ResetStateIsSound : Prop := State.reset.Sound

/-- R26: in any state, only a reset and an accepted `CLRFLAGS` clear a bit of the accumulator; a rejection and a delivery
leave it as it was. -/
def Obligations.FlagsAreStickyUntilCleared : Prop :=
  ∀ s t : State, step s = .next t → s.sampled.rst = false →
    ¬ (s.Accepting ∧ decode s.sampled.reqCw = .ok .clrflags) →
    FlagsWithin s.fflags t.fflags ∧
    (s.phase = .done → t.fflags = s.fflags) ∧
    (∀ r, s.phase = .idle → t.status = .rejected r → t.fflags = s.fflags)

/-! ## Isolation -/

/-- R162: no meaning but `RDFLAGS` depends on the accumulator: with another value in it the command ends in the same state
up to the accumulator, into which it ORs the same flags; `CLRFLAGS` leaves 0 whatever it was. -/
def Obligations.AccumulatorNeverInfluencesACommand : Prop :=
  ∀ (i : Instr) (s : State) (f : FlagBits), i ≠ .rdflags →
    ∃ t g, exec i s = .next t ∧ exec i { s with fflags := f } = .next { t with fflags := g } ∧
      ((∃ fl, t.fflags = s.fflags ||| fl ∧ g = f ||| fl) ∨ (i = .clrflags ∧ t.fflags = 0 ∧ g = 0))

/-- R49: what a command does depends on its word and operands alone, `RDFLAGS` apart: two blocks that differ in everything
they remember, offered the same command, present the same request or hold the same response; and two blocks with the same
command at the units hold the same response after the answer. In particular no rounding mode survives a command (R29). -/
def Obligations.ResponseDependsOnTheCommandAlone : Prop :=
  (∀ s s' t t' : State, s.Accepting → s'.Accepting → s.sampled = s'.sampled → decode s.sampled.reqCw ≠ .ok .rdflags →
    step s = .next t → step s' = .next t' →
    t.phase = t'.phase ∧ t.uReq = t'.uReq ∧ t.cw = t'.cw ∧ t.a = t'.a ∧ t.b = t'.b ∧ t.c = t'.c ∧
    (t.phase = .done → t.response = t'.response)) ∧
  (∀ s s' t t' : State, s.Sound → s'.Sound → s.phase = .wait → s'.phase = .wait → s.sampled = s'.sampled →
    s.sampled.rst = false → s.cw = s'.cw → s.a = s'.a → s.b = s'.b → s.c = s'.c →
    step s = .next t → step s' = .next t' → t.response = t'.response)

/-! ## Liveness under answering units and a taking requester (R85, R195, R199) -/

/-- With units that answer and a requester that takes at the first occasion, an offered command is over in two steps when it
is rejected or LOCAL and in three when it is dispatched, and the block is then ready for the next. -/
def Obligations.CommandsCompleteInBoundedSteps : Prop :=
  ∀ (s : State) (p q r : Inputs) (rest : List Inputs), s.phase = .idle → s.inputs = p :: q :: r :: rest →
    p.rst = false → q.rst = false → r.rst = false → p.reqValid = true →
    q.uDone = true → q.rspReady = true → r.rspReady = true →
    ((validate p.reqCw p.reqA p.reqB p.reqC ≠ .ok ∨ ∃ i, decode p.reqCw = .ok i ∧ i.isLocal = true) →
      ∃ t, Host.Core.run core 2 s = .next t ∧ State.phase t = .idle ∧ State.inputs t = r :: rest ∧
        State.status t = validate p.reqCw p.reqA p.reqB p.reqC) ∧
    (validate p.reqCw p.reqA p.reqB p.reqC = .ok → (∃ i, decode p.reqCw = .ok i ∧ i.isLocal = false) →
      ∃ t, Host.Core.run core 3 s = .next t ∧ State.phase t = .idle ∧ State.inputs t = rest ∧ State.status t = .ok)

/-! ## Fields and classes (00_scope.md R8, R12, 43_comparison.md R130) -/

/-- R8, R12, R130: sign, exponent, fraction and magnitude of a pattern by the arithmetic of its number, the exponent and
fraction masks of each format, the classes, and the order of the comparisons. -/
def Obligations.FieldsAreTheSlicesOfTheFormat : Prop :=
  (∀ (fmt : Fmt) (x : XWord),
    (fmt.sign x = true ↔ x.toNat / 2 ^ (fmt.width - 1) % 2 = 1) ∧
    fmt.exp x = x.toNat / 2 ^ fmt.fracWidth % 2 ^ fmt.expWidth ∧
    fmt.frac x = x.toNat % 2 ^ fmt.fracWidth ∧
    fmt.mag x = x.toNat % 2 ^ (fmt.width - 1) ∧
    fmt.mag x = fmt.exp x * 2 ^ fmt.fracWidth + fmt.frac x ∧
    (fmt.isNaN x = true ↔ fmt.exp x = 2 ^ fmt.expWidth - 1 ∧ fmt.frac x ≠ 0) ∧
    (fmt.isInf x = true ↔ fmt.exp x = 2 ^ fmt.expWidth - 1 ∧ fmt.frac x = 0) ∧
    (fmt.isZero x = true ↔ fmt.exp x = 0 ∧ fmt.frac x = 0) ∧
    (fmt.isSub x = true ↔ fmt.exp x = 0 ∧ fmt.frac x ≠ 0) ∧
    fmt.ord x = (if fmt.mag x = 0 then 0 else if fmt.sign x then - (fmt.mag x : Int) else (fmt.mag x : Int))) ∧
  (∀ fmt : Fmt, 1 + fmt.expWidth + fmt.fracWidth = fmt.width)

/-- R130: the order of the comparisons is the order of the values (R13): of the finite ones as rationals, with the infinities
strictly beyond every finite value on their side. -/
def Obligations.ComparisonOrderIsTheOrderOfValues : Prop :=
  ∀ (fmt : Fmt) (a b : XWord),
    (IsFinite fmt a → IsFinite fmt b →
      (fmt.ord a < fmt.ord b ↔ realValue fmt a < realValue fmt b) ∧
      (fmt.ord a = fmt.ord b ↔ realValue fmt a = realValue fmt b)) ∧
    (fmt.isInf a = true → IsFinite fmt b →
      (fmt.sign a = false → fmt.ord b < fmt.ord a) ∧ (fmt.sign a = true → fmt.ord a < fmt.ord b)) ∧
    (fmt.isInf a = true → fmt.isInf b = true →
      (fmt.ord a < fmt.ord b ↔ fmt.sign a = true ∧ fmt.sign b = false) ∧
      (fmt.ord a = fmt.ord b ↔ fmt.sign a = fmt.sign b))

/-! ## Format operations (41_format_ops.md) -/

/-- R100: `BITS` returns the pattern bit for bit, raises nothing, and rejects only a pattern of the wrong width. -/
def Obligations.BitsReturnsThePattern : Prop :=
  ∀ (fmt : Fmt) (s : State), s.phase = .idle →
    (∀ r : BitVec 3, decode (0#6 ++ r ++ fmt.code ++ 0#5) = .ok (.bits fmt)) ∧
    (s.a.toNat < 2 ^ fmt.width → exec (.bits fmt) s =
      .next { s with res := s.a, rflags := 0, status := .ok, phase := .done }) ∧
    (2 ^ fmt.width ≤ s.a.toNat → exec (.bits fmt) s =
      .next { s with res := 0, rflags := 0, status := .rejected .width, phase := .done })

/-- R101, R102: `CLASS` returns the sign bit and the class code of the table of R102, and raises nothing. -/
def Obligations.ClassFollowsTheTable : Prop :=
  ∀ (fmt : Fmt) (s : State), s.phase = .idle →
    (∀ r : BitVec 3, decode (0#6 ++ r ++ fmt.code ++ 1#5) = .ok (.classify fmt)) ∧
    (s.a.toNat < 2 ^ fmt.width → exec (.classify fmt) s =
      .next { s with
        res := BitVec.ofNat 128 (8 * (s.a.toNat / 2 ^ (fmt.width - 1)) +
          (if fmt.exp s.a = 2 ^ fmt.expWidth - 1 then (if fmt.frac s.a = 0 then 2 else 1)
           else if fmt.exp s.a = 0 ∧ fmt.frac s.a = 0 then 4 else 0))
        rflags := 0, status := .ok, phase := .done }) ∧
    (2 ^ fmt.width ≤ s.a.toNat → exec (.classify fmt) s =
      .next { s with res := 0, rflags := 0, status := .rejected .width, phase := .done })

/-! ## Comparisons (43_comparison.md) -/

/-- R131: `EQ` is 1 exactly for equal non-NaN operands; `NV` exactly for a signaling NaN. -/
def Obligations.EqComparesAndSignals : Prop :=
  ∀ (fmt : Fmt) (s : State), s.phase = .idle →
    (∀ r : BitVec 3, decode (0#6 ++ r ++ fmt.code ++ 10#5) = .ok (.eq fmt)) ∧
    (s.TwoFit fmt → exec (.eq fmt) s = .next (s.WithResponse
      (if fmt.isNaN s.a ∨ fmt.isNaN s.b then 0 else if fmt.ord s.a = fmt.ord s.b then 1 else 0)
      (if fmt.isSNaN s.a ∨ fmt.isSNaN s.b then 0x10 else 0))) ∧
    (¬ s.TwoFit fmt → exec (.eq fmt) s = .next (s.WithRejection .width))

/-- R132, R133: `LT` and `LE` order non-NaN operands, are 0 on a NaN, and raise `NV` exactly when an operand is any NaN. -/
def Obligations.SignalingOrderPredicates : Prop :=
  ∀ (fmt : Fmt) (s : State), s.phase = .idle →
    (∀ r : BitVec 3, decode (0#6 ++ r ++ fmt.code ++ 11#5) = .ok (.lt fmt) ∧
      decode (0#6 ++ r ++ fmt.code ++ 12#5) = .ok (.le fmt)) ∧
    (s.TwoFit fmt →
      exec (.lt fmt) s = .next (s.WithResponse
        (if fmt.isNaN s.a ∨ fmt.isNaN s.b then 0 else if fmt.ord s.a < fmt.ord s.b then 1 else 0)
        (if fmt.isNaN s.a ∨ fmt.isNaN s.b then 0x10 else 0)) ∧
      exec (.le fmt) s = .next (s.WithResponse
        (if fmt.isNaN s.a ∨ fmt.isNaN s.b then 0 else if fmt.ord s.a ≤ fmt.ord s.b then 1 else 0)
        (if fmt.isNaN s.a ∨ fmt.isNaN s.b then 0x10 else 0))) ∧
    (¬ s.TwoFit fmt → exec (.lt fmt) s = .next (s.WithRejection .width) ∧
      exec (.le fmt) s = .next (s.WithRejection .width))

/-- R134, R135: `LTQ` and `LEQ` give the results of `LT` and `LE` and raise `NV` exactly for a signaling NaN. -/
def Obligations.QuietOrderPredicates : Prop :=
  ∀ (fmt : Fmt) (s : State), s.phase = .idle →
    (∀ r : BitVec 3, decode (0#6 ++ r ++ fmt.code ++ 13#5) = .ok (.ltq fmt) ∧
      decode (0#6 ++ r ++ fmt.code ++ 14#5) = .ok (.leq fmt)) ∧
    (s.TwoFit fmt →
      exec (.ltq fmt) s = .next (s.WithResponse
        (if fmt.isNaN s.a ∨ fmt.isNaN s.b then 0 else if fmt.ord s.a < fmt.ord s.b then 1 else 0)
        (if fmt.isSNaN s.a ∨ fmt.isSNaN s.b then 0x10 else 0)) ∧
      exec (.leq fmt) s = .next (s.WithResponse
        (if fmt.isNaN s.a ∨ fmt.isNaN s.b then 0 else if fmt.ord s.a ≤ fmt.ord s.b then 1 else 0)
        (if fmt.isSNaN s.a ∨ fmt.isSNaN s.b then 0x10 else 0))) ∧
    (¬ s.TwoFit fmt → exec (.ltq fmt) s = .next (s.WithRejection .width) ∧
      exec (.leq fmt) s = .next (s.WithRejection .width))

/-- R136: `CMP` returns 3 on a NaN, else 0, 1, 2 for less, equal, greater; `NV` for a signaling NaN, and for any NaN when
the open parameter says so. -/
def Obligations.CmpReturnsTheFourWayResult : Prop :=
  ∀ (fmt : Fmt) (s : State), s.phase = .idle →
    (∀ r : BitVec 3, decode (0#6 ++ r ++ fmt.code ++ 15#5) = .ok (.cmp fmt)) ∧
    (s.TwoFit fmt → exec (.cmp fmt) s = .next (s.WithResponse
      (if fmt.isNaN s.a ∨ fmt.isNaN s.b then 3 else if fmt.ord s.a < fmt.ord s.b then 0
       else if fmt.ord s.a = fmt.ord s.b then 1 else 2)
      (if fmt.isSNaN s.a ∨ fmt.isSNaN s.b ∨ (Config.cmpQnanInvalid ∧ (fmt.isNaN s.a ∨ fmt.isNaN s.b)) then 0x10
       else 0))) ∧
    (¬ s.TwoFit fmt → exec (.cmp fmt) s = .next (s.WithRejection .width))

/-- R138: the laws that tie the six results together, over the results the commands deliver; none depends on the mode
field, on the accumulator or on anything else the block remembers. -/
def Obligations.ComparisonResultsAgree : Prop :=
  (∀ (fmt : Fmt) (s : State), s.phase = .idle → s.TwoFit fmt →
    ∃ eq lt le ltq leq cmp swapped : State,
      exec (.eq fmt) s = .next eq ∧ exec (.lt fmt) s = .next lt ∧ exec (.le fmt) s = .next le ∧
      exec (.ltq fmt) s = .next ltq ∧ exec (.leq fmt) s = .next leq ∧ exec (.cmp fmt) s = .next cmp ∧
      exec (.cmp fmt) { s with a := s.b, b := s.a } = .next swapped ∧
      cmp.res.toNat < 4 ∧
      (eq.res = 1 ↔ cmp.res = 1) ∧ (lt.res = 1 ↔ cmp.res = 0) ∧ lt.res = ltq.res ∧
      (le.res = 1 ↔ cmp.res = 0 ∨ cmp.res = 1) ∧ le.res = leq.res ∧
      (cmp.res = 0 ↔ swapped.res = 2) ∧
      (fmt.isNaN s.a = true ∨ fmt.isNaN s.b = true →
        eq.res = 0 ∧ lt.res = 0 ∧ le.res = 0 ∧ ltq.res = 0 ∧ leq.res = 0 ∧ cmp.res = 3)) ∧
  (∀ (fmt : Fmt) (i : Instr) (s s' : State), i ∈ [Instr.eq fmt, .lt fmt, .le fmt, .ltq fmt, .leq fmt, .cmp fmt] →
    s.phase = .idle → s'.phase = .idle → s.a = s'.a → s.b = s'.b →
    ∃ t t', exec i s = .next t ∧ exec i s' = .next t' ∧ t.res = t'.res ∧
      ∀ r : BitVec 3, decode (0#6 ++ r ++ fmt.code ++ i.opcode) = .ok i)

/-! ## Flag access (45_flag_access.md) -/

/-- R160: `RDFLAGS` returns the accumulator and changes nothing of it; no operand is checked; `fmt` and `rm` are ignored. -/
def Obligations.RdflagsReadsTheAccumulator : Prop :=
  (∀ (f : BitVec 2) (r : BitVec 3), decode (0#6 ++ r ++ f ++ 28#5) = .ok .rdflags) ∧
  ∀ s : State, s.phase = .idle → exec .rdflags s =
    .next { s with res := BitVec.ofNat 128 s.fflags.toNat, rflags := 0, status := .ok, phase := .done }

/-- R161: `CLRFLAGS` clears all five flags and returns 0; no operand is checked; `fmt` and `rm` are ignored; with a reserved
bit set it is rejected and clears nothing. -/
def Obligations.ClrflagsClearsTheAccumulator : Prop :=
  (∀ (f : BitVec 2) (r : BitVec 3), decode (0#6 ++ r ++ f ++ 29#5) = .ok .clrflags) ∧
  (∀ s : State, s.phase = .idle → exec .clrflags s =
    .next { s with fflags := 0, res := 0, rflags := 0, status := .ok, phase := .done }) ∧
  (∀ s t : State, s.Accepting → s.sampled.reqCw.toNat % 2 ^ 5 = 29 → s.sampled.reqCw.toNat / 2 ^ 10 ≠ 0 →
    step s = .next t → t.fflags = s.fflags ∧ t.status.code = 1)

/-! ## Dispatched operations: what the block does with any units (42_arithmetic.md R126, 44_conversion.md R158) -/

/-- R126: the eight arithmetic operations. -/
def Obligations.ArithmeticIsDelegatedUnchanged : Prop :=
  ∀ (fmt : Fmt) (rm : Rm),
    RunsAs (.add fmt rm) fmt.width fmt.width
      (fun s => ⟨0b00001, 2, fmt.code, rm.code, s.a, s.b, 0⟩) (fun s => [s.a, s.b]) ∧
    RunsAs (.sub fmt rm) fmt.width fmt.width
      (fun s => ⟨0b00001, 3, fmt.code, rm.code, s.a, s.b, 0⟩) (fun s => [s.a, s.b]) ∧
    RunsAs (.mul fmt rm) fmt.width fmt.width
      (fun s => ⟨0b00010, 4, fmt.code, rm.code, s.a, s.b, 0⟩) (fun s => [s.a, s.b]) ∧
    RunsAs (.div fmt rm) fmt.width fmt.width
      (fun s => ⟨0b00100, 5, fmt.code, rm.code, s.a, s.b, 0⟩) (fun s => [s.a, s.b]) ∧
    RunsAs (.fma fmt rm) fmt.width fmt.width
      (fun s => ⟨0b00011, 6, fmt.code, rm.code, s.a, s.b, s.c⟩) (fun s => [s.a, s.b, s.c]) ∧
    RunsAs (.rem fmt rm) fmt.width fmt.width
      (fun s => ⟨0b00100, 7, fmt.code, rm.code, s.a, s.b, 0⟩) (fun s => [s.a, s.b]) ∧
    RunsAs (.sqrt fmt rm) fmt.width fmt.width
      (fun s => ⟨0b01000, 8, fmt.code, rm.code, s.a, 0, 0⟩) (fun s => [s.a]) ∧
    RunsAs (.rint fmt rm) fmt.width fmt.width
      (fun s => ⟨0b10000, 9, fmt.code, rm.code, s.a, 0, 0⟩) (fun s => [s.a])

/-- R140, R158: the integer conversions. -/
def Obligations.IntegerConversionsAreDelegatedUnchanged : Prop :=
  ∀ (fmt : Fmt) (rm : Rm),
    RunsAs (.fromU32 fmt rm) 32 fmt.width (fun s => ⟨0b10000, 16, fmt.code, rm.code, s.a, 0, 0⟩) (fun s => [s.a]) ∧
    RunsAs (.fromU64 fmt rm) 64 fmt.width (fun s => ⟨0b10000, 17, fmt.code, rm.code, s.a, 0, 0⟩) (fun s => [s.a]) ∧
    RunsAs (.fromI32 fmt rm) 32 fmt.width (fun s => ⟨0b10000, 18, fmt.code, rm.code, s.a, 0, 0⟩) (fun s => [s.a]) ∧
    RunsAs (.fromI64 fmt rm) 64 fmt.width (fun s => ⟨0b10000, 19, fmt.code, rm.code, s.a, 0, 0⟩) (fun s => [s.a]) ∧
    RunsAs (.toU32 fmt rm) fmt.width 32 (fun s => ⟨0b10000, 20, fmt.code, rm.code, s.a, 0, 0⟩) (fun s => [s.a]) ∧
    RunsAs (.toU64 fmt rm) fmt.width 64 (fun s => ⟨0b10000, 21, fmt.code, rm.code, s.a, 0, 0⟩) (fun s => [s.a]) ∧
    RunsAs (.toI32 fmt rm) fmt.width 32 (fun s => ⟨0b10000, 22, fmt.code, rm.code, s.a, 0, 0⟩) (fun s => [s.a]) ∧
    RunsAs (.toI64 fmt rm) fmt.width 64 (fun s => ⟨0b10000, 23, fmt.code, rm.code, s.a, 0, 0⟩) (fun s => [s.a])

/-- R155, R156, R158: the format conversions: LOCAL and the identity, bit for bit and without a flag, to the operand's own
format; dispatched otherwise. -/
def Obligations.FormatConversionsAreIdentityOrDelegated : Prop :=
  ∀ (dst fmt : Fmt) (rm : Rm),
    (fmt ≠ dst → RunsAs (toFmtOp dst fmt rm) fmt.width dst.width
      (fun s => ⟨0b10000, 24 + dst.code.setWidth 5, fmt.code, rm.code, s.a, 0, 0⟩) (fun s => [s.a])) ∧
    (fmt = dst → ∀ s : State, s.phase = .idle →
      (s.a.toNat < 2 ^ fmt.width → exec (toFmtOp dst fmt rm) s =
        .next { s with res := s.a, rflags := 0, status := .ok, phase := .done }) ∧
      (2 ^ fmt.width ≤ s.a.toNat → exec (toFmtOp dst fmt rm) s = .next (s.WithRejection .width)))

/-- R88: whatever the units drive, the block forces the bits above the result width to zero and passes the low bits and all
five flags through. -/
def Obligations.CompletionMasksAnyAnswer : Prop :=
  ∀ (s : State) (w : Nat) (ans : UnitAnswer), w ≤ 128 →
    s.takeAnswer w ans = s.WithResponse (BitVec.ofNat 128 (ans.res.toNat % 2 ^ w)) ans.flags ∧
    ∀ k, w ≤ k → (s.takeAnswer w ans).res.getLsbD k = false

/-! ## Dispatched operations: the contract of the units -/

/-- `K` meets the contract of every dispatched command on all operands. -/
def Obligations.UnitsMeetTheContract : Prop :=
  ∀ (i : Instr) (s : State) (k : Contract), i.isLocal = false → contractOf i s.a s.b s.c = some k →
    k.Meets i.outWidth (Units.answer (s.unitRequest i))

/-- Imposing a contract assumes nothing beyond it: an answer that meets the contract of a command already comes out as it
is, on all the bits the block reads. -/
def Obligations.ImposingAddsNothingToTheContract : Prop :=
  ∀ (i : Instr) (a b c : XWord) (k : Contract) (ans : UnitAnswer), contractOf i a b c = some k →
    k.Meets i.outWidth ans →
    low i.outWidth (k.impose ans).res = low i.outWidth ans.res ∧ (k.impose ans).flags = ans.flags

/-- R119: an arithmetic operation with a NaN among its used operands returns a NaN; `NV` when one is signaling; and no `NV`
when none is and no invalid condition of R121 stands beside the NaN: `0 × ∞` in `FMA`, an infinite dividend or a zero divisor
in `REM`. -/
def Obligations.ArithmeticPropagatesNaNs : Prop :=
  ∀ (fmt : Fmt) (rm : Rm) (i : Instr) (s : State), i ∈ arithmeticOps fmt rm → s.phase = .wait →
    (∃ x ∈ s.usedOperands i, fmt.isNaN x = true) →
    ∃ t, exec i s = .next t ∧ t.phase = .done ∧ t.status = .ok ∧ fmt.isNaN t.res = true ∧
      ((∃ x ∈ s.usedOperands i, fmt.isSNaN x = true) → NV t.rflags = true) ∧
      ((∀ x ∈ s.usedOperands i, fmt.isSNaN x = false) →
        ¬ (i = .fma fmt rm ∧ ((fmt.isZero s.a ∧ fmt.isInf s.b) ∨ (fmt.isInf s.a ∧ fmt.isZero s.b))) →
        ¬ (i = .rem fmt rm ∧ (fmt.isInf s.a ∨ fmt.isZero s.b)) →
        NV t.rflags = false)

/-- R121: the invalid operations of the source's list return a NaN with `NV`, and a finite nonzero dividend over zero raises
`DZ`; none is a rejection. -/
def Obligations.ListedInvalidOperations : Prop :=
  ∀ (fmt : Fmt) (rm : Rm) (s : State), s.phase = .wait →
    ((fmt.isZero s.a ∧ fmt.isZero s.b) ∨ (fmt.isInf s.a ∧ fmt.isInf s.b) →
      ∃ t, exec (.div fmt rm) s = .next t ∧ t.status = .ok ∧ fmt.isNaN t.res = true ∧ NV t.rflags = true) ∧
    (fmt.isInf s.a ∧ fmt.isInf s.b ∧ fmt.sign s.a ≠ fmt.sign s.b →
      ∃ t, exec (.add fmt rm) s = .next t ∧ t.status = .ok ∧ fmt.isNaN t.res = true ∧ NV t.rflags = true) ∧
    (fmt.isInf s.a ∧ fmt.isInf s.b ∧ fmt.sign s.a = fmt.sign s.b →
      ∃ t, exec (.sub fmt rm) s = .next t ∧ t.status = .ok ∧ fmt.isNaN t.res = true ∧ NV t.rflags = true) ∧
    (InfiniteProduct fmt s.a s.b ∧ fmt.isInf s.c ∧ (fmt.sign s.a ^^ fmt.sign s.b) ≠ fmt.sign s.c →
      ∃ t, exec (.fma fmt rm) s = .next t ∧ t.status = .ok ∧ fmt.isNaN t.res = true ∧ NV t.rflags = true) ∧
    (fmt.sign s.a = true ∧ IsFinite fmt s.a ∧ fmt.isZero s.a = false →
      ∃ t, exec (.sqrt fmt rm) s = .next t ∧ t.status = .ok ∧ fmt.isNaN t.res = true ∧ NV t.rflags = true) ∧
    (IsFinite fmt s.a ∧ fmt.isZero s.a = false ∧ fmt.isZero s.b →
      ∃ t, exec (.div fmt rm) s = .next t ∧ t.status = .ok ∧ DZ t.rflags = true ∧ fmt.isInf t.res = true ∧
        fmt.sign t.res = (fmt.sign s.a ^^ fmt.sign s.b))

/-- R123: a sum or difference of finite values whose equal magnitudes cancel is `-0` under `RDN` and `+0` under the other
four modes, without a flag. With G14 (log entry 13): the sum of two zeros of one sign, and the difference of two zeros of
opposite signs, has the sign of the first in every mode. -/
def Obligations.CancellingSumsAreSignedZeros : Prop :=
  ∀ (fmt : Fmt) (rm : Rm) (s : State), s.phase = .wait → IsFinite fmt s.a → IsFinite fmt s.b → fmt.mag s.a = fmt.mag s.b →
    (fmt.sign s.a ≠ fmt.sign s.b → exec (.add fmt rm) s = .next (s.WithResponse (signedZero fmt (rm = .rdn)) 0)) ∧
    (fmt.sign s.a = fmt.sign s.b → exec (.sub fmt rm) s = .next (s.WithResponse (signedZero fmt (rm = .rdn)) 0)) ∧
    (fmt.isZero s.a = true → fmt.sign s.a = fmt.sign s.b →
      exec (.add fmt rm) s = .next (s.WithResponse (signedZero fmt (fmt.sign s.a)) 0)) ∧
    (fmt.isZero s.a = true → fmt.sign s.a ≠ fmt.sign s.b →
      exec (.sub fmt rm) s = .next (s.WithResponse (signedZero fmt (fmt.sign s.a)) 0))

/-- R117: the square root of either zero is that zero, without a flag. -/
def Obligations.SqrtOfZeroIsThatZero : Prop :=
  ∀ (fmt : Fmt) (rm : Rm) (s : State), s.phase = .wait → fmt.isZero s.a = true →
    exec (.sqrt fmt rm) s = .next (s.WithResponse (signedZero fmt (fmt.sign s.a)) 0)

/-- R116 (b), (c): the remainder does not depend on the rounding mode, and for finite operands and a nonzero divisor it is
exact: neither `NX` nor `OF`; a zero result has the sign of the dividend (G7, log entry 13). -/
def Obligations.RemainderIgnoresTheModeAndIsExact : Prop :=
  ∀ (fmt : Fmt) (rm rm' : Rm) (s : State), s.phase = .wait →
    exec (.rem fmt rm) s = exec (.rem fmt rm') s ∧
    (IsFinite fmt s.a → IsFinite fmt s.b → fmt.isZero s.b = false →
      ∃ t, exec (.rem fmt rm) s = .next t ∧ NX t.rflags = false ∧ OF t.rflags = false ∧ IsFinite fmt t.res ∧
        ∃ n : Int, realValue fmt t.res = realValue fmt s.a - realValue fmt s.b * n ∧
          RoundsToInt .rne (realValue fmt s.a / realValue fmt s.b) n ∧
          (realValue fmt t.res = 0 → fmt.sign t.res = fmt.sign s.a))

/-- R120: with finite operands and no invalid or divide-by-zero condition, the result of `ADD`, `SUB`, `MUL`, `DIV`, `FMA`,
`SQRT` is the exact result correctly rounded once; `NX` exactly when they differ; `OF` only when the exact result exceeds the
largest finite magnitude, and always when it reaches the next power of two; `UF` only when it is nonzero and below the
smallest normal magnitude. -/
def Obligations.ArithmeticIsCorrectlyRounded : Prop :=
  ∀ (fmt : Fmt) (rm : Rm) (i : Instr) (s : State) (x : ℝ), i ∈ arithmeticOps fmt rm → s.phase = .wait →
    (∀ y ∈ s.usedOperands i, IsFinite fmt y) → exactResult i fmt s = some x →
    ∃ t, exec i s = .next t ∧ t.status = .ok ∧
      (OF t.rflags = false → RoundsTo fmt rm x t.res) ∧
      (NX t.rflags = false ↔ IsFinite fmt t.res ∧ (realValue fmt t.res : ℝ) = x) ∧
      (OF t.rflags = true → (realValue fmt (BitVec.ofNat 128 (fmt.infMag - 1)) : ℝ) < |x|) ∧
      ((2 : ℝ) ^ (fmt.bias + 1) ≤ |x| → OF t.rflags = true) ∧
      (UF t.rflags = true → x ≠ 0 ∧ |x| < (2 : ℝ) ^ (1 - (fmt.bias : ℤ)))

/-- R15: on overflow the result is infinity or the largest finite magnitude of the sign of the exact result, by the mode. -/
def Obligations.OverflowResultFollowsTheMode : Prop :=
  ∀ (fmt : Fmt) (rm : Rm) (i : Instr) (s : State) (x : ℝ), i ∈ arithmeticOps fmt rm → s.phase = .wait →
    (∀ y ∈ s.usedOperands i, IsFinite fmt y) → exactResult i fmt s = some x →
    ∃ t, exec i s = .next t ∧ (OF t.rflags = true →
      fmt.sign t.res = decide (x < 0) ∧
      fmt.mag t.res = (match rm with
        | .rne => fmt.infMag
        | .rmm => fmt.infMag
        | .rtz => fmt.infMag - 1
        | .rdn => if x < 0 then fmt.infMag else fmt.infMag - 1
        | .rup => if x < 0 then fmt.infMag - 1 else fmt.infMag))

/-- R118, R125: `RINT` of a finite operand is its value rounded to an integer in the same format, an integer is returned bit
for bit without a flag, and `NX` is raised exactly when the value changed and the open parameter says so. -/
def Obligations.RintRoundsToAnIntegralValue : Prop :=
  ∀ (fmt : Fmt) (rm : Rm) (s : State), s.phase = .wait → IsFinite fmt s.a →
    ∃ (t : State) (j : Int), exec (.rint fmt rm) s = .next t ∧ t.status = .ok ∧ IsFinite fmt t.res ∧
      realValue fmt t.res = j ∧ RoundsToInt rm (realValue fmt s.a) j ∧ fmt.sign t.res = fmt.sign s.a ∧
      (realValue fmt s.a = j → t.res.toNat = s.a.toNat % 2 ^ fmt.width ∧ t.rflags = 0) ∧
      (NX t.rflags = true ↔ Config.rintInexact = true ∧ realValue fmt t.res ≠ realValue fmt s.a)

/-- R150 (a), R141 to R144: an integer that fits the significand converts exactly and raises nothing; zero gives `+0`; any
other is correctly rounded, or overflows to the result of R15; the sign of the result is that of the integer. -/
def Obligations.IntegersConvertCorrectlyRounded : Prop :=
  ∀ (ty : IntTy) (fmt : Fmt) (rm : Rm) (s : State), s.phase = .wait →
    ∃ t, exec (fromIntOp ty fmt rm) s = .next t ∧ t.status = .ok ∧
      (intValue ty s.a = 0 → t.res = 0 ∧ t.rflags = 0) ∧
      ((intValue ty s.a).natAbs < 2 ^ (fmt.fracWidth + 1) →
        IsFinite fmt t.res ∧ realValue fmt t.res = intValue ty s.a ∧ t.rflags = 0) ∧
      (OF t.rflags = false → RoundsTo fmt rm ((intValue ty s.a : ℚ) : ℝ) t.res) ∧
      OverflowsAs fmt rm (decide (intValue ty s.a < 0)) |(intValue ty s.a : ℚ)| t ∧
      (fmt.sign t.res = true ↔ intValue ty s.a < 0) ∧
      (NX t.rflags = false ↔ IsFinite fmt t.res ∧ realValue fmt t.res = intValue ty s.a)

/-- R145 to R148, R150 (b): a finite operand that rounds into the destination range gives that integer in the destination's
representation, and no flag but possibly `NX` when the value was not an integer. -/
def Obligations.InRangeConversionsToIntegers : Prop :=
  ∀ (ty : IntTy) (fmt : Fmt) (rm : Rm) (s : State) (j : Int), s.phase = .wait → IsFinite fmt s.a →
    RoundsToInt rm (realValue fmt s.a) j → loValue ty ≤ j → j ≤ hiValue ty →
    ∃ t, exec (toIntOp ty fmt rm) s = .next t ∧ t.status = .ok ∧
      t.res.toNat = (j % 2 ^ intWidth ty).toNat ∧ FlagsWithin t.rflags 0b00001 ∧
      (realValue fmt s.a = j → t.rflags = 0)

/-- R149: a NaN, an infinity and a value that rounds out of the destination range saturate to a boundary pattern with `NV`:
the nearer one, and for a NaN the one the open parameter names. -/
def Obligations.OutOfRangeConversionsSaturate : Prop :=
  ∀ (ty : IntTy) (fmt : Fmt) (rm : Rm) (s : State), s.phase = .wait →
    ∃ t, exec (toIntOp ty fmt rm) s = .next t ∧ t.status = .ok ∧
      (fmt.isNaN s.a = true →
        t.res = (if Config.nanToMax ty then hiPattern ty else loPattern ty) ∧ NV t.rflags = true) ∧
      (fmt.isInf s.a = true →
        t.res = (if fmt.sign s.a then loPattern ty else hiPattern ty) ∧ NV t.rflags = true) ∧
      (∀ j : Int, IsFinite fmt s.a → RoundsToInt rm (realValue fmt s.a) j →
        (hiValue ty < j → t.res = hiPattern ty ∧ NV t.rflags = true) ∧
        (j < loValue ty → t.res = loPattern ty ∧ NV t.rflags = true))

/-- R150 (c), (e): a conversion to another format rounds a finite value once, or overflows to the result of R15, with `UF`
only for nonzero values below the smallest normal magnitude of the destination (log entry 9); keeps an infinity; and gives a NaN for a NaN, `NV` exactly when it is signaling. The result of a finite value has its sign: where a
nonzero value rounds to zero this is the model's choice (log entry 18). -/
def Obligations.FormatConversionsRoundOnce : Prop :=
  ∀ (dst fmt : Fmt) (rm : Rm) (s : State), dst ≠ fmt → s.phase = .wait →
    ∃ t, exec (toFmtOp dst fmt rm) s = .next t ∧ t.status = .ok ∧
      (fmt.isNaN s.a = true → dst.isNaN t.res = true ∧ NV t.rflags = fmt.isSNaN s.a) ∧
      (fmt.isInf s.a = true → dst.isInf t.res = true ∧ dst.sign t.res = fmt.sign s.a ∧ t.rflags = 0) ∧
      (IsFinite fmt s.a →
        (OF t.rflags = false → RoundsTo dst rm ((realValue fmt s.a : ℚ) : ℝ) t.res) ∧
        OverflowsAs dst rm (fmt.sign s.a) |realValue fmt s.a| t ∧ dst.sign t.res = fmt.sign s.a ∧
        (UF t.rflags = true → realValue fmt s.a ≠ 0 ∧ |realValue fmt s.a| < (2 : ℚ) ^ (1 - (dst.bias : ℤ))) ∧
        (NX t.rflags = false ↔ IsFinite dst t.res ∧ realValue dst t.res = realValue fmt s.a))

/-- R150 (d): a widening conversion of a non-NaN operand is exact under every mode and raises nothing. -/
def Obligations.WideningIsExact : Prop :=
  ∀ (dst fmt : Fmt) (rm : Rm) (s : State), fmt.width < dst.width → s.phase = .wait → IsFinite fmt s.a →
    ∃ t, exec (toFmtOp dst fmt rm) s = .next t ∧ t.rflags = 0 ∧ IsFinite dst t.res ∧
      realValue dst t.res = realValue fmt s.a ∧ dst.sign t.res = fmt.sign s.a

/-- R157: for every non-NaN pattern of `F32`, widening to `F64` and narrowing back reproduces it, whatever the two modes. -/
def Obligations.WideningRoundTripReproduces : Prop :=
  ∀ (rm rm' : Rm) (s : State), s.phase = .wait → s.a.toNat < 2 ^ 32 → Fmt.f32.isNaN s.a = false →
    ∃ t u, exec (.toF64 .f32 rm) s = .next t ∧ exec (.toF32 .f64 rm') { s with a := t.res } = .next u ∧ u.res = s.a

/-! ## Infinities, signs of zeros and unlisted invalid operations (R113, R121, R122; the spec's general knowledge) -/

/-- R122 with G6 (log entries 12, 13): `ADD`, `SUB`, `MUL`, `FMA` on infinite operands that make no invalid operation give the
infinity of the sign of the sum or product, without a flag. -/
def Obligations.InfiniteSumsAndProducts : Prop :=
  ∀ (fmt : Fmt) (rm : Rm) (s : State), s.phase = .wait →
    let product := fmt.sign s.a ^^ fmt.sign s.b
    (fmt.isInf s.a = true → (IsFinite fmt s.b ∨ fmt.isInf s.b = true ∧ fmt.sign s.a = fmt.sign s.b) →
      exec (.add fmt rm) s = .next (s.WithResponse (signedInfinity fmt (fmt.sign s.a)) 0)) ∧
    (IsFinite fmt s.a → fmt.isInf s.b = true →
      exec (.add fmt rm) s = .next (s.WithResponse (signedInfinity fmt (fmt.sign s.b)) 0)) ∧
    (fmt.isInf s.a = true → (IsFinite fmt s.b ∨ fmt.isInf s.b = true ∧ fmt.sign s.a ≠ fmt.sign s.b) →
      exec (.sub fmt rm) s = .next (s.WithResponse (signedInfinity fmt (fmt.sign s.a)) 0)) ∧
    (IsFinite fmt s.a → fmt.isInf s.b = true →
      exec (.sub fmt rm) s = .next (s.WithResponse (signedInfinity fmt (!fmt.sign s.b)) 0)) ∧
    (InfiniteProduct fmt s.a s.b →
      exec (.mul fmt rm) s = .next (s.WithResponse (signedInfinity fmt product) 0)) ∧
    (InfiniteProduct fmt s.a s.b → (IsFinite fmt s.c ∨ fmt.isInf s.c = true ∧ product = fmt.sign s.c) →
      exec (.fma fmt rm) s = .next (s.WithResponse (signedInfinity fmt product) 0)) ∧
    (IsFinite fmt s.a → IsFinite fmt s.b → fmt.isInf s.c = true →
      exec (.fma fmt rm) s = .next (s.WithResponse (signedInfinity fmt (fmt.sign s.c)) 0))

/-- R122 with G6 and G7 (log entries 12, 13): `DIV`, `REM`, `SQRT`, `RINT` on infinite operands that make no invalid
operation. `UF` of a subnormal remainder is open (log entry 9); no other flag is raised. -/
def Obligations.InfiniteQuotientsRemaindersAndRoots : Prop :=
  ∀ (fmt : Fmt) (rm : Rm) (s : State), s.phase = .wait →
    (fmt.isInf s.a = true → IsFinite fmt s.b →
      exec (.div fmt rm) s = .next (s.WithResponse (signedInfinity fmt (fmt.sign s.a ^^ fmt.sign s.b)) 0)) ∧
    (IsFinite fmt s.a → fmt.isInf s.b = true →
      exec (.div fmt rm) s = .next (s.WithResponse (signedZero fmt (fmt.sign s.a ^^ fmt.sign s.b)) 0)) ∧
    (IsFinite fmt s.a → fmt.isInf s.b = true →
      ∃ fl, exec (.rem fmt rm) s = .next (s.WithResponse (BitVec.ofNat 128 (s.a.toNat % 2 ^ fmt.width)) fl) ∧
        FlagsWithin fl 0b00010 ∧ (fmt.isSub s.a = false → fl = 0)) ∧
    (fmt.isInf s.a = true → fmt.sign s.a = false →
      exec (.sqrt fmt rm) s = .next (s.WithResponse (signedInfinity fmt false) 0)) ∧
    (fmt.isInf s.a = true →
      exec (.rint fmt rm) s = .next (s.WithResponse (signedInfinity fmt (fmt.sign s.a)) 0))

/-- R113 with G6 and G14 (log entry 13): the sign of a product and of a quotient is the exclusive or of the signs, zeros
included; an `FMA` whose exact result is zero follows the rule of sums; and every other result has the sign of the exact one,
also where it rounds to zero (log entry 18). -/
def Obligations.ResultsHaveTheSignOfTheExactValue : Prop :=
  ∀ (fmt : Fmt) (rm : Rm) (s : State), s.phase = .wait → IsFinite fmt s.a → IsFinite fmt s.b →
    (∃ t, exec (.mul fmt rm) s = .next t ∧ fmt.sign t.res = (fmt.sign s.a ^^ fmt.sign s.b)) ∧
    (fmt.isZero s.b = false →
      ∃ t, exec (.div fmt rm) s = .next t ∧ fmt.sign t.res = (fmt.sign s.a ^^ fmt.sign s.b)) ∧
    (IsFinite fmt s.c → realValue fmt s.a * realValue fmt s.b + realValue fmt s.c = 0 →
      exec (.fma fmt rm) s = .next (s.WithResponse (signedZero fmt
        (if (fmt.sign s.a ^^ fmt.sign s.b) = fmt.sign s.c then fmt.sign s.c else rm = .rdn)) 0)) ∧
    (∀ (i : Instr) (x : ℝ), i ∈ arithmeticOps fmt rm → IsFinite fmt s.c → exactResult i fmt s = some x → x ≠ 0 →
      ∃ t, exec i s = .next t ∧ (fmt.sign t.res = true ↔ x < 0))

/-- R121, by the model's choice of log entry 11: the invalid operations the source does not list complete with a NaN and no
flag but possibly `NV`, which is open. -/
def Obligations.UnlistedInvalidOperationsGiveNaN : Prop :=
  ∀ (fmt : Fmt) (rm : Rm) (i : Instr) (s : State), s.phase = .wait →
    (i = .mul fmt rm ∧ InvalidProduct fmt s.a s.b ∨
     i = .fma fmt rm ∧ InvalidProduct fmt s.a s.b ∨
     i = .sqrt fmt rm ∧ fmt.isInf s.a = true ∧ fmt.sign s.a = true ∨
     i = .rem fmt rm ∧ fmt.isInf s.a = true ∨
     i = .rem fmt rm ∧ fmt.isZero s.b = true) →
    ∃ t, exec i s = .next t ∧ t.status = .ok ∧ fmt.isNaN t.res = true ∧ FlagsWithin t.rflags 0b10000
end

