-- ==== Sys2Proof/Laws/State.lean ====
section
/-! SUPPORT. One lemma per field per update of the state, each true by definition. -/

namespace Sys2Proof.Machine

variable (s : State)

/-! ## advance -/

@[simp] theorem State.advance_cw : (s.advance).cw = s.cw := rfl
@[simp] theorem State.advance_a : (s.advance).a = s.a := rfl
@[simp] theorem State.advance_b : (s.advance).b = s.b := rfl
@[simp] theorem State.advance_c : (s.advance).c = s.c := rfl
@[simp] theorem State.advance_res : (s.advance).res = s.res := rfl
@[simp] theorem State.advance_rflags : (s.advance).rflags = s.rflags := rfl
@[simp] theorem State.advance_fflags : (s.advance).fflags = s.fflags := rfl
@[simp] theorem State.advance_status : (s.advance).status = s.status := rfl
@[simp] theorem State.advance_phase : (s.advance).phase = s.phase := rfl
@[simp] theorem State.advance_uReq : (s.advance).uReq = none := rfl
@[simp] theorem State.advance_inputs : (s.advance).inputs = s.inputs.tail := rfl
@[simp] theorem State.advance_freeNo : (s.advance).freeNo = s.freeNo := rfl

/-! ## latch -/

@[simp] theorem State.latch_cw (cw : CmdWord) (a b c : XWord) : (s.latch cw a b c).cw = cw := rfl
@[simp] theorem State.latch_a (cw : CmdWord) (a b c : XWord) : (s.latch cw a b c).a = a := rfl
@[simp] theorem State.latch_b (cw : CmdWord) (a b c : XWord) : (s.latch cw a b c).b = b := rfl
@[simp] theorem State.latch_c (cw : CmdWord) (a b c : XWord) : (s.latch cw a b c).c = c := rfl
@[simp] theorem State.latch_res (cw : CmdWord) (a b c : XWord) : (s.latch cw a b c).res = s.res := rfl
@[simp] theorem State.latch_rflags (cw : CmdWord) (a b c : XWord) : (s.latch cw a b c).rflags = s.rflags := rfl
@[simp] theorem State.latch_fflags (cw : CmdWord) (a b c : XWord) : (s.latch cw a b c).fflags = s.fflags := rfl
@[simp] theorem State.latch_status (cw : CmdWord) (a b c : XWord) : (s.latch cw a b c).status = s.status := rfl
@[simp] theorem State.latch_phase (cw : CmdWord) (a b c : XWord) : (s.latch cw a b c).phase = s.phase := rfl
@[simp] theorem State.latch_uReq (cw : CmdWord) (a b c : XWord) : (s.latch cw a b c).uReq = s.uReq := rfl
@[simp] theorem State.latch_inputs (cw : CmdWord) (a b c : XWord) : (s.latch cw a b c).inputs = s.inputs := rfl
@[simp] theorem State.latch_freeNo (cw : CmdWord) (a b c : XWord) : (s.latch cw a b c).freeNo = s.freeNo := rfl

/-! ## complete -/

@[simp] theorem State.complete_cw (w : Nat) (v : XWord) (fl : FlagBits) : (s.complete w v fl).cw = s.cw := rfl
@[simp] theorem State.complete_a (w : Nat) (v : XWord) (fl : FlagBits) : (s.complete w v fl).a = s.a := rfl
@[simp] theorem State.complete_b (w : Nat) (v : XWord) (fl : FlagBits) : (s.complete w v fl).b = s.b := rfl
@[simp] theorem State.complete_c (w : Nat) (v : XWord) (fl : FlagBits) : (s.complete w v fl).c = s.c := rfl
@[simp] theorem State.complete_res (w : Nat) (v : XWord) (fl : FlagBits) : (s.complete w v fl).res = low w v := rfl
@[simp] theorem State.complete_rflags (w : Nat) (v : XWord) (fl : FlagBits) : (s.complete w v fl).rflags = fl := rfl
@[simp] theorem State.complete_fflags (w : Nat) (v : XWord) (fl : FlagBits) : (s.complete w v fl).fflags = s.fflags ||| fl := rfl
@[simp] theorem State.complete_status (w : Nat) (v : XWord) (fl : FlagBits) : (s.complete w v fl).status = .ok := rfl
@[simp] theorem State.complete_phase (w : Nat) (v : XWord) (fl : FlagBits) : (s.complete w v fl).phase = .done := rfl
@[simp] theorem State.complete_uReq (w : Nat) (v : XWord) (fl : FlagBits) : (s.complete w v fl).uReq = s.uReq := rfl
@[simp] theorem State.complete_inputs (w : Nat) (v : XWord) (fl : FlagBits) : (s.complete w v fl).inputs = s.inputs := rfl
@[simp] theorem State.complete_freeNo (w : Nat) (v : XWord) (fl : FlagBits) : (s.complete w v fl).freeNo = s.freeNo := rfl

/-! ## reject -/

@[simp] theorem State.reject_cw (r : Reject) : (s.reject r).cw = s.cw := rfl
@[simp] theorem State.reject_a (r : Reject) : (s.reject r).a = s.a := rfl
@[simp] theorem State.reject_b (r : Reject) : (s.reject r).b = s.b := rfl
@[simp] theorem State.reject_c (r : Reject) : (s.reject r).c = s.c := rfl
@[simp] theorem State.reject_res (r : Reject) : (s.reject r).res = 0 := rfl
@[simp] theorem State.reject_rflags (r : Reject) : (s.reject r).rflags = 0 := rfl
@[simp] theorem State.reject_fflags (r : Reject) : (s.reject r).fflags = s.fflags := rfl
@[simp] theorem State.reject_status (r : Reject) : (s.reject r).status = .rejected r := rfl
@[simp] theorem State.reject_phase (r : Reject) : (s.reject r).phase = .done := rfl
@[simp] theorem State.reject_uReq (r : Reject) : (s.reject r).uReq = s.uReq := rfl
@[simp] theorem State.reject_inputs (r : Reject) : (s.reject r).inputs = s.inputs := rfl
@[simp] theorem State.reject_freeNo (r : Reject) : (s.reject r).freeNo = s.freeNo := rfl

/-! ## deliver -/

@[simp] theorem State.deliver_cw : (s.deliver).cw = s.cw := rfl
@[simp] theorem State.deliver_a : (s.deliver).a = s.a := rfl
@[simp] theorem State.deliver_b : (s.deliver).b = s.b := rfl
@[simp] theorem State.deliver_c : (s.deliver).c = s.c := rfl
@[simp] theorem State.deliver_res : (s.deliver).res = s.res := rfl
@[simp] theorem State.deliver_rflags : (s.deliver).rflags = s.rflags := rfl
@[simp] theorem State.deliver_fflags : (s.deliver).fflags = s.fflags := rfl
@[simp] theorem State.deliver_status : (s.deliver).status = s.status := rfl
@[simp] theorem State.deliver_phase : (s.deliver).phase = .idle := rfl
@[simp] theorem State.deliver_uReq : (s.deliver).uReq = s.uReq := rfl
@[simp] theorem State.deliver_inputs : (s.deliver).inputs = s.inputs := rfl
@[simp] theorem State.deliver_freeNo : (s.deliver).freeNo = s.freeNo := rfl

/-! ## clearFlags -/

@[simp] theorem State.clearFlags_cw : (s.clearFlags).cw = s.cw := rfl
@[simp] theorem State.clearFlags_a : (s.clearFlags).a = s.a := rfl
@[simp] theorem State.clearFlags_b : (s.clearFlags).b = s.b := rfl
@[simp] theorem State.clearFlags_c : (s.clearFlags).c = s.c := rfl
@[simp] theorem State.clearFlags_res : (s.clearFlags).res = 0 := rfl
@[simp] theorem State.clearFlags_rflags : (s.clearFlags).rflags = 0 := rfl
@[simp] theorem State.clearFlags_fflags : (s.clearFlags).fflags = 0 := rfl
@[simp] theorem State.clearFlags_status : (s.clearFlags).status = .ok := rfl
@[simp] theorem State.clearFlags_phase : (s.clearFlags).phase = .done := rfl
@[simp] theorem State.clearFlags_uReq : (s.clearFlags).uReq = s.uReq := rfl
@[simp] theorem State.clearFlags_inputs : (s.clearFlags).inputs = s.inputs := rfl
@[simp] theorem State.clearFlags_freeNo : (s.clearFlags).freeNo = s.freeNo := rfl

/-! ## dispatch -/

@[simp] theorem State.dispatch_cw (q : UnitRequest) : (s.dispatch q).cw = s.cw := rfl
@[simp] theorem State.dispatch_a (q : UnitRequest) : (s.dispatch q).a = s.a := rfl
@[simp] theorem State.dispatch_b (q : UnitRequest) : (s.dispatch q).b = s.b := rfl
@[simp] theorem State.dispatch_c (q : UnitRequest) : (s.dispatch q).c = s.c := rfl
@[simp] theorem State.dispatch_res (q : UnitRequest) : (s.dispatch q).res = s.res := rfl
@[simp] theorem State.dispatch_rflags (q : UnitRequest) : (s.dispatch q).rflags = s.rflags := rfl
@[simp] theorem State.dispatch_fflags (q : UnitRequest) : (s.dispatch q).fflags = s.fflags := rfl
@[simp] theorem State.dispatch_status (q : UnitRequest) : (s.dispatch q).status = s.status := rfl
@[simp] theorem State.dispatch_phase (q : UnitRequest) : (s.dispatch q).phase = .wait := rfl
@[simp] theorem State.dispatch_uReq (q : UnitRequest) : (s.dispatch q).uReq = some q := rfl
@[simp] theorem State.dispatch_inputs (q : UnitRequest) : (s.dispatch q).inputs = s.inputs := rfl
@[simp] theorem State.dispatch_freeNo (q : UnitRequest) : (s.dispatch q).freeNo = s.freeNo := rfl

/-! ## takeAnswer -/

@[simp] theorem State.takeAnswer_cw (w : Nat) (ans : UnitAnswer) : (s.takeAnswer w ans).cw = s.cw := rfl
@[simp] theorem State.takeAnswer_a (w : Nat) (ans : UnitAnswer) : (s.takeAnswer w ans).a = s.a := rfl
@[simp] theorem State.takeAnswer_b (w : Nat) (ans : UnitAnswer) : (s.takeAnswer w ans).b = s.b := rfl
@[simp] theorem State.takeAnswer_c (w : Nat) (ans : UnitAnswer) : (s.takeAnswer w ans).c = s.c := rfl
@[simp] theorem State.takeAnswer_res (w : Nat) (ans : UnitAnswer) : (s.takeAnswer w ans).res = low w ans.res := rfl
@[simp] theorem State.takeAnswer_rflags (w : Nat) (ans : UnitAnswer) : (s.takeAnswer w ans).rflags = ans.flags := rfl
@[simp] theorem State.takeAnswer_fflags (w : Nat) (ans : UnitAnswer) : (s.takeAnswer w ans).fflags = s.fflags ||| ans.flags := rfl
@[simp] theorem State.takeAnswer_status (w : Nat) (ans : UnitAnswer) : (s.takeAnswer w ans).status = .ok := rfl
@[simp] theorem State.takeAnswer_phase (w : Nat) (ans : UnitAnswer) : (s.takeAnswer w ans).phase = .done := rfl
@[simp] theorem State.takeAnswer_uReq (w : Nat) (ans : UnitAnswer) : (s.takeAnswer w ans).uReq = s.uReq := rfl
@[simp] theorem State.takeAnswer_inputs (w : Nat) (ans : UnitAnswer) : (s.takeAnswer w ans).inputs = s.inputs := rfl
@[simp] theorem State.takeAnswer_freeNo (w : Nat) (ans : UnitAnswer) : (s.takeAnswer w ans).freeNo = s.freeNo := rfl

/-! ## resetStep -/

@[simp] theorem State.resetStep_cw : (s.resetStep).cw = Config.freeCw s.freeNo := rfl
@[simp] theorem State.resetStep_a : (s.resetStep).a = Config.freeOperand 0 s.freeNo := rfl
@[simp] theorem State.resetStep_b : (s.resetStep).b = Config.freeOperand 1 s.freeNo := rfl
@[simp] theorem State.resetStep_c : (s.resetStep).c = Config.freeOperand 2 s.freeNo := rfl
@[simp] theorem State.resetStep_res : (s.resetStep).res = 0 := rfl
@[simp] theorem State.resetStep_rflags : (s.resetStep).rflags = 0 := rfl
@[simp] theorem State.resetStep_fflags : (s.resetStep).fflags = 0 := rfl
@[simp] theorem State.resetStep_status : (s.resetStep).status = .ok := rfl
@[simp] theorem State.resetStep_phase : (s.resetStep).phase = .idle := rfl
@[simp] theorem State.resetStep_uReq : (s.resetStep).uReq = none := rfl
@[simp] theorem State.resetStep_inputs : (s.resetStep).inputs = s.inputs := rfl
@[simp] theorem State.resetStep_freeNo : (s.resetStep).freeNo = s.freeNo + 1 := rfl

/-! ## offering -/

@[simp] theorem State.offering_cw (w : CmdWord) : (s.offering w).cw = s.cw := rfl
@[simp] theorem State.offering_a (w : CmdWord) : (s.offering w).a = s.a := rfl
@[simp] theorem State.offering_b (w : CmdWord) : (s.offering w).b = s.b := rfl
@[simp] theorem State.offering_c (w : CmdWord) : (s.offering w).c = s.c := rfl
@[simp] theorem State.offering_res (w : CmdWord) : (s.offering w).res = s.res := rfl
@[simp] theorem State.offering_rflags (w : CmdWord) : (s.offering w).rflags = s.rflags := rfl
@[simp] theorem State.offering_fflags (w : CmdWord) : (s.offering w).fflags = s.fflags := rfl
@[simp] theorem State.offering_status (w : CmdWord) : (s.offering w).status = s.status := rfl
@[simp] theorem State.offering_phase (w : CmdWord) : (s.offering w).phase = .idle := rfl
@[simp] theorem State.offering_uReq (w : CmdWord) : (s.offering w).uReq = s.uReq := rfl
@[simp] theorem State.offering_inputs (w : CmdWord) : (s.offering w).inputs = { s.sampled with rst := false, reqValid := true, reqCw := w } :: s.inputs.tail := rfl
@[simp] theorem State.offering_freeNo (w : CmdWord) : (s.offering w).freeNo = s.freeNo := rfl

end Sys2Proof.Machine
end

