-- ==== Sys2Proof/Laws/Words.lean ====
section
/-! SUPPORT. Lemmas of the slices of a port: `low` and `fits`. -/

namespace Sys2Proof

@[simp] theorem low_toNat (w : Nat) (x : XWord) (h : w ≤ 128) : (low w x).toNat = x.toNat % 2 ^ w := by
  have : x.toNat % 2 ^ w < 2 ^ 128 :=
    lt_of_lt_of_le (Nat.mod_lt _ (Nat.two_pow_pos w)) (Nat.pow_le_pow_right (by decide) h)
  simp only [low, BitVec.toNat_setWidth]
  exact Nat.mod_eq_of_lt this

theorem fits_iff_lt (w : Nat) (x : XWord) (h : w ≤ 128) : fits w x = true ↔ x.toNat < 2 ^ w := by
  have hlt : x.toNat / 2 ^ w < 2 ^ (128 - w) := by
    rw [Nat.div_lt_iff_lt_mul (Nat.two_pow_pos w), ← Nat.pow_add, Nat.sub_add_cancel h]
    exact x.isLt
  simp only [fits, beq_iff_eq, BitVec.toNat_eq, BitVec.extractLsb'_toNat,
    Nat.shiftRight_eq_div_pow]
  rw [Nat.mod_eq_of_lt hlt, show (0 : BitVec (128 - w)).toNat = 0 by simp, Nat.div_eq_zero_iff]
  exact ⟨fun h => h.resolve_left (Nat.two_pow_pos w).ne', Or.inr⟩

theorem fits_low (w : Nat) (x : XWord) (h : w ≤ 128) : fits w (low w x) = true := by
  rw [fits_iff_lt w _ h, low_toNat w x h]
  exact Nat.mod_lt _ (Nat.two_pow_pos w)

theorem low_eq_self (w : Nat) (x : XWord) (h : w ≤ 128) (hf : fits w x = true) : low w x = x := by
  rw [BitVec.toNat_eq, low_toNat w x h, Nat.mod_eq_of_lt ((fits_iff_lt w x h).1 hf)]

theorem low_low (w : Nat) (x : XWord) (h : w ≤ 128) : low w (low w x) = low w x :=
  low_eq_self w _ h (fits_low w x h)

@[simp] theorem low_zero (w : Nat) : low w 0 = 0 := by
  simp [low]

theorem Fmt.width_le (fmt : Fmt) : fmt.width ≤ 128 := by
  cases fmt <;> decide

theorem Instr.outWidth_le (i : Instr) : i.outWidth ≤ 128 := by
  cases i <;> simp only [Instr.outWidth] <;> first | decide | exact Fmt.width_le _

theorem Instr.inWidth_le (i : Instr) : i.inWidth ≤ 128 := by
  cases i <;> simp only [Instr.inWidth] <;> first | decide | exact Fmt.width_le _

end Sys2Proof
end

