-- ==== Sys2Proof/Laws/Commands.lean ====
section
/-! SUPPORT. What the two shapes of a command can do, once each; the meanings are these shapes. -/

namespace Sys2Proof.Machine

variable (i : Instr) (finish : State → State) (s : State)

theorem localCommand_idle (hp : s.phase = .idle) (h : i.operandsFit s.a s.b s.c = true) :
    localCommand i finish s = .next (finish s) := by
  simp [localCommand, hp, h]

theorem localCommand_idle_unfit (hp : s.phase = .idle) (h : i.operandsFit s.a s.b s.c = false) :
    localCommand i finish s = .next (s.reject .width) := by
  simp [localCommand, hp, h]

theorem localCommand_busy (hp : s.phase ≠ .idle) : localCommand i finish s = .next s := by
  unfold localCommand
  split <;> first | rfl | contradiction

/-- Everything a LOCAL command can do: finish, be rejected, or be out of its turn. -/
theorem localCommand_cases :
    localCommand i finish s = .next s ∨
    (s.phase = .idle ∧ i.operandsFit s.a s.b s.c = true ∧ localCommand i finish s = .next (finish s)) ∨
    (s.phase = .idle ∧ i.operandsFit s.a s.b s.c = false ∧ localCommand i finish s = .next (s.reject .width)) := by
  by_cases hp : s.phase = .idle
  · cases h : i.operandsFit s.a s.b s.c
    · exact .inr (.inr ⟨hp, rfl, localCommand_idle_unfit i finish s hp h⟩)
    · exact .inr (.inl ⟨hp, rfl, localCommand_idle i finish s hp h⟩)
  · exact .inl (localCommand_busy i finish s hp)

theorem unitCommand_idle (hp : s.phase = .idle) (h : i.operandsFit s.a s.b s.c = true) :
    unitCommand i s = .next (s.dispatch (s.unitRequest i)) := by
  simp [unitCommand, hp, h]

theorem unitCommand_idle_unfit (hp : s.phase = .idle) (h : i.operandsFit s.a s.b s.c = false) :
    unitCommand i s = .next (s.reject .width) := by
  simp [unitCommand, hp, h]

theorem unitCommand_wait (hp : s.phase = .wait) :
    unitCommand i s = .next (s.takeAnswer i.outWidth (Units.answer (s.unitRequest i))) := by
  simp [unitCommand, hp]

theorem unitCommand_done (hp : s.phase = .done) : unitCommand i s = .next s := by
  simp [unitCommand, hp]

/-- Everything a dispatched command can do: present its request, be rejected, take its answer, or be out of its turn. -/
theorem unitCommand_cases :
    (s.phase = .idle ∧ i.operandsFit s.a s.b s.c = true ∧ unitCommand i s = .next (s.dispatch (s.unitRequest i))) ∨
    (s.phase = .idle ∧ i.operandsFit s.a s.b s.c = false ∧ unitCommand i s = .next (s.reject .width)) ∨
    (s.phase = .wait ∧ unitCommand i s = .next (s.takeAnswer i.outWidth (Units.answer (s.unitRequest i)))) ∨
    (s.phase = .done ∧ unitCommand i s = .next s) := by
  cases hp : s.phase
  · cases h : i.operandsFit s.a s.b s.c
    · exact .inr (.inl ⟨rfl, rfl, unitCommand_idle_unfit i s hp h⟩)
    · exact .inl ⟨rfl, rfl, unitCommand_idle i s hp h⟩
  · exact .inr (.inr (.inl ⟨rfl, unitCommand_wait i s hp⟩))
  · exact .inr (.inr (.inr ⟨rfl, unitCommand_done i s hp⟩))

/-- A dispatched command runs as `unitCommand`. -/
theorem exec_of_not_local (h : i.isLocal = false) : exec i s = unitCommand i s := by
  cases i <;>
    first
    | rfl
    | (simp only [Instr.isLocal] at h
       simp only [exec, execToF16, execToF32, execToF64, execToF128, convertFormat]
       rw [if_neg]
       simpa using h)
    | exact absurd (show true = false from h) (by decide)

/-- A LOCAL command runs as `localCommand`, and what finishes it completes with a result of its width: it leaves the
latched command, the request and the model's own fields alone. -/
theorem exec_of_local (h : i.isLocal = true) :
    ∃ finish : State → State, (∀ t, exec i t = localCommand i finish t) ∧
      ∀ t : State, ∃ v fl acc, fits i.outWidth v = true ∧
        finish t = { t with res := v, rflags := fl, fflags := acc, status := .ok, phase := .done } := by
  cases i <;>
    first
    | exact absurd (show false = true from h) (by decide)
    | exact ⟨_, fun _ => rfl, fun t => ⟨low _ _, _, _, fits_low _ _ (Instr.outWidth_le _), rfl⟩⟩
    | exact ⟨_, fun _ => rfl, fun t => ⟨0, _, _, rfl, rfl⟩⟩
    | (simp only [Instr.isLocal, beq_iff_eq] at h
       subst h
       exact ⟨_, fun _ => rfl, fun t => ⟨low _ _, _, _, fits_low _ _ (Instr.outWidth_le _), rfl⟩⟩)

/-- A command out of its turn changes nothing in DONE. -/
theorem exec_done (hp : s.phase = .done) : exec i s = .next s := by
  cases h : i.isLocal
  · rw [exec_of_not_local i s h, unitCommand_done i s hp]
  · obtain ⟨finish, he, -⟩ := exec_of_local i h
    rw [he, localCommand_busy]
    simp [hp]

/-- A command with a malformed operand is rejected (R43, R176). -/
theorem exec_idle_unfit (hp : s.phase = .idle) (hf : i.operandsFit s.a s.b s.c = false) :
    exec i s = .next (s.reject .width) := by
  cases h : i.isLocal
  · rw [exec_of_not_local i s h, unitCommand_idle_unfit i s hp hf]
  · obtain ⟨finish, he, -⟩ := exec_of_local i h
    rw [he, localCommand_idle_unfit i finish s hp hf]

/-- Every meaning answers a next state. -/
theorem exec_next : ∃ t, exec i s = .next t := by
  cases h : i.isLocal
  · rw [exec_of_not_local i s h]
    rcases unitCommand_cases i s with ⟨-, -, h⟩ | ⟨-, -, h⟩ | ⟨-, h⟩ | ⟨-, h⟩ <;> exact ⟨_, h⟩
  · obtain ⟨finish, he, -⟩ := exec_of_local i h
    rw [he]
    rcases localCommand_cases i finish s with h | ⟨-, -, h⟩ | ⟨-, -, h⟩ <;> exact ⟨_, h⟩

end Sys2Proof.Machine
end

