-- ==== Sys2Proof/Laws/Numerics.lean ====
section
/-! SUPPORT. What the reference numerics compute, once each: where an exact magnitude lies between neighbouring multiples of
a power of two, and between neighbouring magnitudes of a format. -/

namespace Sys2Proof.Machine

/-! ## Powers of two -/

theorem pow2_ratio (k : Int) : (pow2 k : ℝ) / (pow2 (-k) : ℝ) = (2 : ℝ) ^ k := by
  unfold pow2
  rcases le_total 0 k with h | h
  · have h2 : (-k).toNat = 0 := Int.toNat_of_nonpos (by omega)
    obtain ⟨n, rfl⟩ := Int.eq_ofNat_of_zero_le h
    rw [h2]
    simp
  · have h2 : k.toNat = 0 := Int.toNat_of_nonpos h
    obtain ⟨n, hn⟩ := Int.eq_ofNat_of_zero_le (show 0 ≤ -k by omega)
    obtain rfl : k = -(n : Int) := by omega
    simp

theorem pow2_pos (k : Int) : 0 < pow2 k := Nat.two_pow_pos _

/-! ## Integer square root -/

theorem isqrtFrom_spec : ∀ (b n r : Nat), r * r ≤ n → n < (r + 2 ^ b) * (r + 2 ^ b) →
    isqrtFrom b n r * isqrtFrom b n r ≤ n ∧ n < (isqrtFrom b n r + 1) * (isqrtFrom b n r + 1)
  | 0, n, r, h1, h2 => by simpa [isqrtFrom] using And.intro h1 h2
  | b + 1, n, r, h1, h2 => by
    rw [isqrtFrom]
    by_cases h : (r + 2 ^ b) * (r + 2 ^ b) ≤ n
    · rw [if_pos h]
      refine isqrtFrom_spec b n _ h ?_
      rwa [show r + 2 ^ b + 2 ^ b = r + 2 ^ (b + 1) by ring]
    · rw [if_neg h]
      exact isqrtFrom_spec b n r h1 (not_le.1 h)

theorem isqrt_spec (n : Nat) : isqrt n * isqrt n ≤ n ∧ n < (isqrt n + 1) * (isqrt n + 1) := by
  refine isqrtFrom_spec _ n 0 (by simp) ?_
  rw [Nat.zero_add, ← Nat.pow_add]
  exact lt_of_lt_of_le (Nat.lt_log2_self) (Nat.pow_le_pow_right (by decide) (by omega))

/-! ## The exact magnitude as a real number -/

/-- The real number a magnitude stands for. -/
noncomputable def Magnitude.real : Magnitude → ℝ
  | .ratio n d e => (n : ℝ) / (d : ℝ) * (2 : ℝ) ^ e
  | .root m e => Real.sqrt ((m : ℝ) * (2 : ℝ) ^ e)

/-- A magnitude that is positive and well formed. -/
def Magnitude.Positive : Magnitude → Prop
  | .ratio n d _ => 0 < n ∧ 0 < d
  | .root m _ => 0 < m

/-- The residue says where `y` lies in `[k, k + 1)`. -/
def Residue.Places (r : Residue) (k y : ℝ) : Prop :=
  match r with
  | .exact => y = k
  | .below => k < y ∧ y < k + 1 / 2
  | .tie => y = k + 1 / 2
  | .above => k + 1 / 2 < y ∧ y < k + 1

theorem residueOf_places (n d : Nat) (hd : 0 < d) :
    (residueOf (n % d) d).Places ((n / d : Nat) : ℝ) ((n : ℝ) / d) := by
  have hlt := Nat.mod_lt n hd
  have hdR : (0 : ℝ) < d := by exact_mod_cast hd
  have hsplit : (n : ℝ) / d = ((n / d : Nat) : ℝ) + ((n % d : Nat) : ℝ) / d := by
    rw [eq_comm, add_comm, ← eq_sub_iff_add_eq, div_eq_iff hdR.ne', sub_mul, div_mul_cancel₀ _ hdR.ne', eq_sub_iff_add_eq]
    exact_mod_cast (by rw [Nat.mul_comm]; exact Nat.mod_add_div n d)
  rw [hsplit]
  generalize n % d = r at hlt ⊢
  unfold residueOf
  split_ifs with h1 h2 h3
  · simp [Residue.Places, h1]
  · have hr : (0 : ℝ) < r := by exact_mod_cast Nat.pos_of_ne_zero h1
    have h2' : (2 : ℝ) * r < d := by exact_mod_cast h2
    refine ⟨by linarith [div_pos hr hdR], ?_⟩
    have : (r : ℝ) / d < 1 / 2 := by rw [div_lt_div_iff₀ hdR two_pos]; linarith
    linarith
  · have h3' : (2 : ℝ) * r = d := by exact_mod_cast h3
    have : (r : ℝ) / d = 1 / 2 := by rw [div_eq_div_iff hdR.ne' two_ne_zero]; linarith
    simp [Residue.Places, this]
  · have h4 : (d : ℝ) < 2 * r := by exact_mod_cast lt_of_le_of_ne (not_lt.1 h2) (Ne.symm h3)
    have hlt' : (r : ℝ) < d := by exact_mod_cast hlt
    have : 1 / 2 < (r : ℝ) / d := by rw [div_lt_div_iff₀ two_pos hdR]; linarith
    have : (r : ℝ) / d < 1 := by rw [div_lt_one hdR]; exact hlt'
    constructor <;> linarith

/-- `inUnits` gives the integer part of the magnitude in units of `2^q`, and where the rest lies. -/
theorem Magnitude.inUnits_places (x : Magnitude) (hx : x.Positive) (q : Int) :
    (x.inUnits q).2.Places ((x.inUnits q).1 : ℝ) (x.real / (2 : ℝ) ^ q) := by
  cases x with
  | ratio n d e =>
    have hd : 0 < d * pow2 (q - e) := Nat.mul_pos hx.2 (pow2_pos _)
    have h := residueOf_places (n * pow2 (e - q)) (d * pow2 (q - e)) hd
    have hval : (n : ℝ) / d * (2 : ℝ) ^ e / (2 : ℝ) ^ q =
        ((n * pow2 (e - q) : Nat) : ℝ) / ((d * pow2 (q - e) : Nat) : ℝ) := by
      rw [mul_div_assoc, ← zpow_sub₀ (two_ne_zero' ℝ), ← pow2_ratio, neg_sub]
      push_cast
      exact div_mul_div_comm _ _ _ _
    simpa only [Magnitude.inUnits, Magnitude.real, hval] using h
  | root m e =>
    simp only [Magnitude.inUnits, Magnitude.real]
    set num := m * pow2 (e - 2 * q) with hnum
    set den := pow2 (2 * q - e) with hden
    have hdp : (0 : ℝ) < den := by exact_mod_cast pow2_pos _
    have hval : Real.sqrt ((m : ℝ) * (2 : ℝ) ^ e) / (2 : ℝ) ^ q = Real.sqrt ((num : ℝ) / den) := by
      have hq : (0 : ℝ) < (2 : ℝ) ^ q := zpow_pos two_pos q
      rw [eq_comm, Real.sqrt_eq_iff_mul_self_eq (by positivity) (by positivity), div_mul_div_comm,
        Real.mul_self_sqrt (by positivity), ← zpow_add₀ (two_ne_zero' ℝ), mul_div_assoc,
        ← zpow_sub₀ (two_ne_zero' ℝ), hnum, show e - (q + q) = e - 2 * q by ring, ← pow2_ratio,
        show -(e - 2 * q) = 2 * q - e by ring]
      push_cast
      ring
    rw [hval]
    have hk := isqrt_spec (num / den)
    set k := isqrt (num / den) with hkdef
    have hlo : den * (k * k) ≤ num := by
      rw [Nat.mul_comm]; exact (Nat.le_div_iff_mul_le (pow2_pos _)).1 hk.1
    have hhi : num < den * ((k + 1) * (k + 1)) := by
      rw [Nat.mul_comm]; exact (Nat.div_lt_iff_lt_mul (pow2_pos _)).1 hk.2
    have hX : ∀ t : ℝ, ((num : ℝ) / den < t ↔ (num : ℝ) < t * den) ∧ (t < (num : ℝ) / den ↔ t * den < num) :=
      fun t => ⟨div_lt_iff₀ hdp, lt_div_iff₀ hdp⟩
    have hk0 : (0 : ℝ) ≤ k := Nat.cast_nonneg k
    have below : ∀ t : ℝ, 0 < t → (num : ℝ) < t ^ 2 * den → Real.sqrt ((num : ℝ) / den) < t := fun t ht h =>
      (Real.sqrt_lt' ht).2 (((hX _).1).2 h)
    have above : ∀ t : ℝ, 0 ≤ t → t ^ 2 * den < num → t < Real.sqrt ((num : ℝ) / den) := fun t ht h =>
      (Real.lt_sqrt ht).2 (((hX _).2).2 h)
    have at_ : ∀ t : ℝ, 0 ≤ t → (num : ℝ) = t ^ 2 * den → Real.sqrt ((num : ℝ) / den) = t := fun t ht h => by
      rw [h, mul_div_cancel_right₀ _ hdp.ne', Real.sqrt_sq ht]
    have hhiR : (num : ℝ) < ((k : ℝ) + 1) ^ 2 * den := by
      have : (num : ℝ) < den * (((k : ℝ) + 1) * ((k : ℝ) + 1)) := by exact_mod_cast hhi
      linarith
    split_ifs with h1 h2 h3
    · have : (num : ℝ) = den * ((k : ℝ) * k) := by exact_mod_cast h1
      exact at_ k hk0 (by linarith)
    · have hlo' : (den : ℝ) * ((k : ℝ) * k) < num := by exact_mod_cast lt_of_le_of_ne hlo (Ne.symm h1)
      have h2' : (4 : ℝ) * num < den * ((2 * k + 1) * (2 * k + 1)) := by exact_mod_cast h2
      exact ⟨above k hk0 (by linarith), below _ (by linarith) (by nlinarith)⟩
    · have h3' : (4 : ℝ) * num = den * ((2 * k + 1) * (2 * k + 1)) := by exact_mod_cast h3
      exact at_ _ (by linarith) (by nlinarith)
    · have h4 : (den : ℝ) * ((2 * k + 1) * (2 * k + 1)) < 4 * num := by
        exact_mod_cast lt_of_le_of_ne (not_lt.1 h2) (Ne.symm h3)
      exact ⟨above _ (by linarith) (by nlinarith), below _ (by linarith) hhiR⟩

/-! ## The integer logarithm -/

theorem log2_bounds (n : Nat) (h : 0 < n) : (2 : ℝ) ^ (n.log2 : Int) ≤ n ∧ (n : ℝ) < 2 ^ ((n.log2 : Int) + 1) := by
  rw [show (n.log2 : Int) + 1 = ((n.log2 + 1 : Nat) : Int) by push_cast; rfl, zpow_natCast, zpow_natCast]
  exact ⟨by exact_mod_cast Nat.log2_self_le h.ne', by exact_mod_cast Nat.lt_log2_self⟩

/-- `ilog` is the exponent of the leading bit of the magnitude. -/
theorem Magnitude.ilog_spec (x : Magnitude) (hx : x.Positive) :
    (2 : ℝ) ^ x.ilog ≤ x.real ∧ x.real < (2 : ℝ) ^ (x.ilog + 1) := by
  cases x with
  | ratio n d e =>
    obtain ⟨hn, hd⟩ := hx
    obtain ⟨n1, n2⟩ := log2_bounds n hn
    obtain ⟨d1, d2⟩ := log2_bounds d hd
    have hdR : (0 : ℝ) < d := by exact_mod_cast hd
    have he : (0 : ℝ) < (2 : ℝ) ^ e := zpow_pos two_pos e
    have h2 := two_ne_zero' ℝ
    simp only [Magnitude.ilog, Magnitude.real]
    set l : Int := (n.log2 : Int) - (d.log2 : Int) with hl
    have hcond : d * pow2 l ≤ n * pow2 (-l) ↔ (2 : ℝ) ^ l ≤ (n : ℝ) / d := by
      have hp : (0 : ℝ) < pow2 (-l) := by exact_mod_cast pow2_pos _
      rw [← pow2_ratio l, div_le_div_iff₀ hp hdR, ← Nat.cast_le (α := ℝ)]
      push_cast
      rw [mul_comm (d : ℝ)]
    have hup : (n : ℝ) / d < (2 : ℝ) ^ (l + 1) := by
      rw [div_lt_iff₀ hdR]
      calc (n : ℝ) < 2 ^ ((n.log2 : Int) + 1) := n2
        _ = 2 ^ (l + 1) * 2 ^ (d.log2 : Int) := by rw [← zpow_add₀ h2]; congr 1; omega
        _ ≤ 2 ^ (l + 1) * d := mul_le_mul_of_nonneg_left d1 (zpow_pos two_pos _).le
    have hlo : (2 : ℝ) ^ (l - 1) ≤ (n : ℝ) / d := by
      rw [le_div_iff₀ hdR]
      calc (2 : ℝ) ^ (l - 1) * d ≤ 2 ^ (l - 1) * 2 ^ ((d.log2 : Int) + 1) :=
            mul_le_mul_of_nonneg_left d2.le (zpow_pos two_pos _).le
        _ = 2 ^ (n.log2 : Int) := by rw [← zpow_add₀ h2]; congr 1; omega
        _ ≤ n := n1
    by_cases hc : d * pow2 l ≤ n * pow2 (-l)
    · rw [if_pos hc, zpow_add₀ h2, show e + l + 1 = (l + 1) + e by ring, zpow_add₀ h2 (l + 1), mul_comm]
      exact ⟨mul_le_mul_of_nonneg_right (hcond.1 hc) he.le, mul_lt_mul_of_pos_right hup he⟩
    · rw [if_neg hc, zpow_add₀ h2, show e + (l - 1) + 1 = l + e by ring, zpow_add₀ h2 l, mul_comm]
      exact ⟨mul_le_mul_of_nonneg_right hlo he.le,
        mul_lt_mul_of_pos_right (not_le.1 (fun h => hc (hcond.2 h))) he⟩
  | root m e =>
    obtain ⟨m1, m2⟩ := log2_bounds m hx
    have he : (0 : ℝ) < (2 : ℝ) ^ e := zpow_pos two_pos e
    have h2 := two_ne_zero' ℝ
    simp only [Magnitude.ilog, Magnitude.real]
    set h : Int := (e + (m.log2 : Int)) / 2 with hh
    have hsq : ∀ k : Int, ((2 : ℝ) ^ k) ^ 2 = 2 ^ (2 * k) := fun k => by
      rw [pow_two, ← zpow_add₀ h2]; congr 1; ring
    constructor
    · rw [Real.le_sqrt' (zpow_pos two_pos _), hsq]
      calc (2 : ℝ) ^ (2 * h) ≤ 2 ^ ((m.log2 : Int) + e) := zpow_le_zpow_right₀ one_le_two (by omega)
        _ = 2 ^ (m.log2 : Int) * 2 ^ e := zpow_add₀ h2 _ _
        _ ≤ m * 2 ^ e := mul_le_mul_of_nonneg_right m1 he.le
    · rw [Real.sqrt_lt' (zpow_pos two_pos _), hsq]
      calc (m : ℝ) * 2 ^ e < 2 ^ ((m.log2 : Int) + 1) * 2 ^ e := mul_lt_mul_of_pos_right m2 he
        _ = 2 ^ ((m.log2 : Int) + 1 + e) := (zpow_add₀ h2 _ _).symm
        _ ≤ 2 ^ (2 * (h + 1)) := zpow_le_zpow_right₀ one_le_two (by omega)

end Sys2Proof.Machine
end

