-- ==== Sys2Proof/Laws/Grid.lean ====
section
/-! SUPPORT. The magnitudes of a format as an increasing sequence of reals, indexed by the magnitude bits; the values of
patterns in those terms; and what `roundTo` answers. -/

namespace Sys2Proof.Machine

/-! ## The sequence -/

/-- The real magnitude of the magnitude bits `m` in a format with `F` fraction bits and subnormal last place `2^q0`. -/
noncomputable def gridValue (F : Nat) (q0 : Int) (m : Nat) : ℝ :=
  if m < 2 ^ F then (m : ℝ) * 2 ^ q0 else ((2 : ℝ) ^ F + (m % 2 ^ F : Nat)) * 2 ^ (((m / 2 ^ F : Nat) : Int) - 1 + q0)

/-- A count `k` of last places `j` binades above the subnormals has the magnitude bits `j · 2^F + k`. -/
theorem gridValue_units (F : Nat) (q0 : Int) (j k : Nat) (h1 : j = 0 ∨ 2 ^ F ≤ k) (h2 : k ≤ 2 ^ (F + 1)) :
    gridValue F q0 (j * 2 ^ F + k) = (k : ℝ) * 2 ^ (q0 + j) := by
  have hF : 0 < 2 ^ F := Nat.two_pow_pos F
  have hne := two_ne_zero' ℝ
  rw [pow_succ] at h2
  unfold gridValue
  by_cases hk : k < 2 ^ F
  · obtain rfl : j = 0 := h1.resolve_right (by omega)
    simp [hk]
  obtain ⟨f, rfl⟩ := Nat.exists_eq_add_of_le (not_lt.1 hk)
  rw [if_neg (by nlinarith)]
  have hm : j * 2 ^ F + (2 ^ F + f) = f + 2 ^ F * (j + 1) := by ring
  by_cases hf : f < 2 ^ F
  · rw [hm, Nat.add_mul_mod_self_left, Nat.mod_eq_of_lt hf, Nat.add_mul_div_left _ _ hF, Nat.div_eq_of_lt hf]
    push_cast
    rw [show (0 : Int) + (j + 1) - 1 + q0 = q0 + j by ring]
  · obtain rfl : f = 2 ^ F := by omega
    rw [hm, show 2 ^ F + 2 ^ F * (j + 1) = 2 ^ F * (j + 2) by ring, Nat.mul_mod_right, Nat.mul_div_cancel_left _ hF]
    push_cast
    rw [show (j : Int) + 2 - 1 + q0 = q0 + j + 1 by ring, zpow_add_one₀ hne]
    ring

/-- Every index is a count of last places of its binade. -/
theorem exists_units (F m : Nat) : ∃ j k, m = j * 2 ^ F + k ∧ (j = 0 ∨ 2 ^ F ≤ k) ∧ k < 2 ^ (F + 1) := by
  have hF : 0 < 2 ^ F := Nat.two_pow_pos F
  have hlt := Nat.mod_lt m hF
  have hm := Nat.mod_add_div m (2 ^ F)
  rcases Nat.eq_zero_or_pos (m / 2 ^ F) with h | h
  · exact ⟨0, m, by omega, .inl rfl, by rw [h] at hm; rw [pow_succ]; omega⟩
  · obtain ⟨j, hj⟩ := Nat.exists_eq_add_of_lt h
    refine ⟨j, 2 ^ F + m % 2 ^ F, ?_, .inr (by omega), by rw [pow_succ]; omega⟩
    rw [hj] at hm
    linarith

theorem gridValue_strictMono (F : Nat) (q0 : Int) : StrictMono (gridValue F q0) := by
  refine strictMono_nat_of_lt_succ fun m => ?_
  obtain ⟨j, k, rfl, h1, h2⟩ := exists_units F m
  rw [gridValue_units F q0 j k h1 h2.le, Nat.add_assoc,
    gridValue_units F q0 j (k + 1) (h1.imp_right fun h => by omega) (by omega)]
  exact mul_lt_mul_of_pos_right (by push_cast; linarith) (zpow_pos two_pos _)

@[simp] theorem gridValue_zero (F : Nat) (q0 : Int) : gridValue F q0 0 = 0 := by
  simp [gridValue]

/-! ## Where a real lies between two neighbours -/

/-- `r` says where `y` lies between the neighbours `lo < hi`. -/
def Residue.Between (r : Residue) (lo hi y : ℝ) : Prop :=
  match r with
  | .exact => y = lo
  | .below => lo < y ∧ 2 * y < lo + hi
  | .tie => 2 * y = lo + hi
  | .above => lo + hi < 2 * y ∧ y < hi

theorem Residue.Places.between {r : Residue} {k y u : ℝ} (hu : 0 < u) (h : r.Places k (y / u)) :
    r.Between (k * u) ((k + 1) * u) y := by
  have hy : y = y / u * u := (div_mul_cancel₀ y hu.ne').symm
  rw [hy]
  generalize y / u = t at h
  cases r <;> simp only [Residue.Places, Residue.Between] at h ⊢
  · rw [h]
  · exact ⟨by nlinarith, by nlinarith⟩
  · rw [h]; ring
  · exact ⟨by nlinarith, by nlinarith⟩

theorem Residue.Between.le {r : Residue} {lo hi y : ℝ} (hlt : lo < hi) (h : r.Between lo hi y) : lo ≤ y ∧ y < hi := by
  cases r <;> simp only [Residue.Between] at h <;> constructor <;> linarith

/-! ## What `roundTo` answers -/

/-- The magnitude bits of the neighbour that the mode takes, `m` being those of the lower one. -/
def takenMag (rm : Rm) (neg : Bool) (m : Nat) (r : Residue) : Nat :=
  if roundsUp rm neg (m % 2 == 1) r then m + 1 else m

theorem ite_decide_eq {α : Type} (p : Prop) [Decidable p] (a b : α) :
    (if decide p = true then a else b) = (if p then a else b) := by
  by_cases h : p <;> simp [h]

/-- `roundTo` finds the neighbours of the magnitude among those of the format, takes one by the mode, and raises
overflow when its magnitude bits reach those of infinity. -/
theorem roundTo_spec (fmt : Fmt) (rm : Rm) (neg : Bool) (x : Magnitude) (hx : x.Positive) :
    ∃ m r, r.Between (gridValue fmt.fracWidth fmt.qMin m) (gridValue fmt.fracWidth fmt.qMin (m + 1)) x.real ∧
      (roundTo fmt rm neg x).overflow = decide (fmt.infMag ≤ takenMag rm neg m r) ∧
      (roundTo fmt rm neg x).inexact = (r != .exact || decide (fmt.infMag ≤ takenMag rm neg m r)) ∧
      (roundTo fmt rm neg x).pattern = fmt.pattern neg
        (if fmt.infMag ≤ takenMag rm neg m r then overflowMag fmt rm neg else takenMag rm neg m r) := by
  obtain ⟨l1, l2⟩ := x.ilog_spec hx
  set F := fmt.fracWidth with hF
  set q : Int := max (x.ilog - F) fmt.qMin with hq
  have hplaces := x.inUnits_places hx q
  set k := (x.inUnits q).1 with hk
  set r := (x.inUnits q).2 with hr
  have hne := two_ne_zero' ℝ
  have hqpos : (0 : ℝ) < 2 ^ q := zpow_pos two_pos q
  obtain ⟨j, hj⟩ := Int.eq_ofNat_of_zero_le (show 0 ≤ q - fmt.qMin by omega)
  have hqj : fmt.qMin + j = q := by omega
  have hbetween := hplaces.between hqpos
  obtain ⟨b1, b2⟩ := hbetween.le (by nlinarith)
  have hkF : k < 2 ^ (F + 1) := by
    have : (k : ℝ) * 2 ^ q < 2 ^ (F + 1) * 2 ^ q := by
      refine lt_of_le_of_lt b1 (lt_of_lt_of_le l2 ?_)
      rw [← zpow_natCast, ← zpow_add₀ hne]
      exact zpow_le_zpow_right₀ one_le_two (by push_cast; omega)
    exact_mod_cast lt_of_mul_lt_mul_right this hqpos.le
  have hFk : j = 0 ∨ 2 ^ F ≤ k := by
    refine or_iff_not_imp_left.2 fun h => ?_
    have : (2 : ℝ) ^ F * 2 ^ q < (k + 1) * 2 ^ q := by
      refine lt_of_le_of_lt (le_trans ?_ l1) b2
      rw [← zpow_natCast, ← zpow_add₀ hne]
      exact zpow_le_zpow_right₀ one_le_two (by omega)
    have : 2 ^ F < k + 1 := by exact_mod_cast lt_of_mul_lt_mul_right this hqpos.le
    omega
  have hlo := gridValue_units F fmt.qMin j k hFk hkF.le
  have hhi := gridValue_units F fmt.qMin j (k + 1) (hFk.imp_right fun h => by omega) (by omega)
  rw [hqj] at hlo hhi
  have hodd : ((j * 2 ^ F + k) % 2 == 1) = (k % 2 == 1) := by
    obtain ⟨F', hF'⟩ : ∃ F', F = F' + 1 := by
      cases fmt <;> exact ⟨_, rfl⟩
    rw [hF', pow_succ, show j * (2 ^ F' * 2) + k = k + 2 * (j * 2 ^ F') by ring, Nat.add_mul_mod_self_left]
  have htaken : takenMag rm neg (j * 2 ^ F + k) r =
      (q - fmt.qMin).toNat * 2 ^ F + (if roundsUp rm neg (k % 2 == 1) r then k + 1 else k) := by
    rw [takenMag, hodd, hj, Int.toNat_natCast]
    split_ifs <;> ring
  refine ⟨j * 2 ^ F + k, r, ?_, ?_⟩
  · rw [hlo, Nat.add_assoc, hhi]
    push_cast
    exact hbetween
  · rw [htaken]
    refine ⟨rfl, rfl, ?_⟩
    rw [← ite_decide_eq]
    rfl

/-- A magnitude is tiny when it is below the smallest normal one. -/
theorem roundTo_tinyBefore (fmt : Fmt) (rm : Rm) (neg : Bool) (x : Magnitude) (hx : x.Positive) :
    (roundTo fmt rm neg x).tinyBefore = true ↔ x.real < (2 : ℝ) ^ (1 - (fmt.bias : Int)) := by
  obtain ⟨l1, l2⟩ := x.ilog_spec hx
  have hmin : fmt.qMin + (fmt.fracWidth : Int) = 1 - (fmt.bias : Int) := by
    unfold Fmt.qMin; ring
  simp only [roundTo, hmin, decide_eq_true_eq]
  constructor
  · exact fun h => lt_of_lt_of_le l2 (zpow_le_zpow_right₀ one_le_two (by omega))
  · intro h
    by_contra hc
    exact absurd (lt_of_le_of_lt l1 h) (not_lt.2 (zpow_le_zpow_right₀ one_le_two (not_lt.1 hc)))

end Sys2Proof.Machine
end

