-- ==== Sys2Proof/Laws/Patterns.lean ====
section
/-! SUPPORT. The fields of a pattern by arithmetic, the fields of `Fmt.pattern`, and the value of a pattern as a signed
magnitude of the format. -/

namespace Sys2Proof

variable (fmt : Fmt) (x : XWord)

theorem Fmt.width_pred : fmt.width - 1 = fmt.fracWidth + fmt.expWidth := by
  cases fmt <;> rfl

theorem Fmt.fracWidth_pos : 0 < fmt.fracWidth := by
  cases fmt <;> decide

theorem Fmt.mag_eq_mod : fmt.mag x = x.toNat % 2 ^ (fmt.width - 1) := by
  simp [Fmt.mag]

theorem Fmt.exp_eq : fmt.exp x = x.toNat / 2 ^ fmt.fracWidth % 2 ^ fmt.expWidth := by
  simp [Fmt.exp, Nat.shiftRight_eq_div_pow]

theorem Fmt.frac_eq : fmt.frac x = x.toNat % 2 ^ fmt.fracWidth := by
  simp [Fmt.frac]

theorem Fmt.frac_eq_mag_mod : fmt.frac x = fmt.mag x % 2 ^ fmt.fracWidth := by
  rw [fmt.mag_eq_mod, fmt.width_pred, Nat.pow_add, Nat.mod_mul_right_mod, fmt.frac_eq]

theorem Fmt.exp_eq_mag_div : fmt.exp x = fmt.mag x / 2 ^ fmt.fracWidth := by
  rw [fmt.mag_eq_mod, fmt.width_pred, Nat.pow_add, Nat.mod_mul_right_div_self, fmt.exp_eq]

theorem Fmt.frac_lt : fmt.frac x < 2 ^ fmt.fracWidth := by
  rw [fmt.frac_eq]; exact Nat.mod_lt _ (Nat.two_pow_pos _)

theorem Fmt.exp_le : fmt.exp x ≤ fmt.expMax := by
  rw [fmt.exp_eq, Fmt.expMax]
  exact Nat.le_sub_one_of_lt (Nat.mod_lt _ (Nat.two_pow_pos _))

theorem Fmt.mag_lt : fmt.mag x < 2 ^ (fmt.width - 1) := by
  rw [fmt.mag_eq_mod]; exact Nat.mod_lt _ (Nat.two_pow_pos _)

theorem Fmt.infMag_lt : fmt.infMag < 2 ^ (fmt.width - 1) := by
  cases fmt <;> decide +kernel

theorem Fmt.infMag_pos : 0 < fmt.infMag := by
  cases fmt <;> decide +kernel

theorem Fmt.sign_iff : fmt.sign x = true ↔ x.toNat / 2 ^ (fmt.width - 1) % 2 = 1 := by
  rw [Fmt.sign, BitVec.getLsbD, Nat.testBit_eq_decide_div_mod_eq, decide_eq_true_eq]

/-! ## Patterns built from a sign and magnitude bits -/

variable (neg : Bool) (m : Nat)

theorem Fmt.pattern_toNat (h : m < 2 ^ (fmt.width - 1)) :
    (fmt.pattern neg m).toNat = (if neg then 2 ^ (fmt.width - 1) else 0) + m := by
  have h2 : 2 ^ (fmt.width - 1) + 2 ^ (fmt.width - 1) ≤ 2 ^ 128 := by
    cases fmt <;> decide +kernel
  rw [Fmt.pattern, BitVec.toNat_ofNat, Nat.mod_eq_of_lt]
  split_ifs <;> omega

theorem Fmt.mag_pattern (h : m < 2 ^ (fmt.width - 1)) : fmt.mag (fmt.pattern neg m) = m := by
  rw [fmt.mag_eq_mod, fmt.pattern_toNat neg m h]
  split_ifs
  · rw [Nat.add_mod_left, Nat.mod_eq_of_lt h]
  · rw [Nat.zero_add, Nat.mod_eq_of_lt h]

theorem Fmt.sign_pattern (h : m < 2 ^ (fmt.width - 1)) : fmt.sign (fmt.pattern neg m) = neg := by
  rw [Bool.eq_iff_iff, fmt.sign_iff, fmt.pattern_toNat neg m h]
  cases neg
  · simp [Nat.div_eq_of_lt h]
  · rw [if_pos rfl, Nat.add_div_left _ (Nat.two_pow_pos _), Nat.div_eq_of_lt h]
    simp

/-- A pattern is the one built from its own sign and magnitude, when it has no bit above its width. -/
theorem Fmt.pattern_sign_mag (h : x.toNat < 2 ^ fmt.width) : fmt.pattern (fmt.sign x) (fmt.mag x) = x := by
  have hw : 2 ^ fmt.width = 2 ^ (fmt.width - 1) * 2 := by
    rw [← Nat.pow_succ]; cases fmt <;> rfl
  have hd : x.toNat / 2 ^ (fmt.width - 1) < 2 :=
    Nat.div_lt_of_lt_mul (by omega)
  have hm := Nat.mod_add_div x.toNat (2 ^ (fmt.width - 1))
  rw [BitVec.toNat_eq, fmt.pattern_toNat _ _ (fmt.mag_lt x), fmt.mag_eq_mod]
  by_cases hs : fmt.sign x = true
  · rw [if_pos hs]
    rw [fmt.sign_iff, Nat.mod_eq_of_lt hd] at hs
    rw [hs] at hm
    omega
  · rw [if_neg hs]
    rw [fmt.sign_iff, Nat.mod_eq_of_lt hd] at hs
    have : x.toNat / 2 ^ (fmt.width - 1) = 0 := by
      generalize x.toNat / 2 ^ (fmt.width - 1) = d at hd hs
      omega
    rw [this] at hm
    omega

namespace Machine

/-! ## Values -/

/-- A pattern is finite exactly when its magnitude bits are below those of infinity. -/
theorem isFinite_iff : IsFinite fmt x ↔ fmt.mag x < fmt.infMag := by
  have h1 : IsFinite fmt x ↔ fmt.exp x ≠ fmt.expMax := by
    by_cases h : fmt.exp x = fmt.expMax <;> by_cases h' : fmt.frac x = 0 <;>
      simp [IsFinite, Fmt.isNaN, Fmt.isInf, h, h']
  rw [h1, Fmt.infMag, ← Nat.div_lt_iff_lt_mul (Nat.two_pow_pos _), ← fmt.exp_eq_mag_div]
  exact ⟨lt_of_le_of_ne (fmt.exp_le x), ne_of_lt⟩

theorem isFinite_pattern (h : m < fmt.infMag) : IsFinite fmt (fmt.pattern neg m) := by
  rw [isFinite_iff, fmt.mag_pattern neg m (h.trans fmt.infMag_lt)]
  exact h

/-- The sign of a value as a real factor. -/
def signFactor (neg : Bool) : ℝ := if neg then -1 else 1

/-- The value of a pattern is its sign times the magnitude its magnitude bits stand for. -/
theorem realValue_eq : (realValue fmt x : ℝ) =
    signFactor (fmt.sign x) * gridValue fmt.fracWidth fmt.qMin (fmt.mag x) := by
  have hF := Nat.two_pow_pos fmt.fracWidth
  have hs : (((if fmt.sign x = true then -1 else 1 : ℚ)) : ℝ) = signFactor (fmt.sign x) := by
    unfold signFactor
    split_ifs <;> simp
  rw [realValue, Rat.cast_mul, hs]
  congr 1
  unfold gridValue
  rw [← fmt.exp_eq_mag_div, ← fmt.frac_eq_mag_mod]
  by_cases he : fmt.exp x = 0
  · have hlt : fmt.mag x < 2 ^ fmt.fracWidth := by
      rw [fmt.exp_eq_mag_div] at he
      exact (Nat.div_eq_zero_iff.1 he).resolve_left hF.ne'
    rw [if_pos he, if_pos hlt, fmt.frac_eq_mag_mod, Nat.mod_eq_of_lt hlt, Fmt.qMin]
    push_cast
    rfl
  · have hlt : ¬ fmt.mag x < 2 ^ fmt.fracWidth := fun h => he (by rw [fmt.exp_eq_mag_div, Nat.div_eq_of_lt h])
    rw [if_neg he, if_neg hlt, Fmt.qMin]
    push_cast
    congr 2
    ring

theorem realValue_pattern (h : m < 2 ^ (fmt.width - 1)) : (realValue fmt (fmt.pattern neg m) : ℝ) =
    signFactor neg * gridValue fmt.fracWidth fmt.qMin m := by
  rw [realValue_eq, fmt.sign_pattern neg m h, fmt.mag_pattern neg m h]

/-- The magnitude of infinity, as if the exponent went on, is the next power of two after the largest finite one. -/
theorem gridValue_infMag : gridValue fmt.fracWidth fmt.qMin fmt.infMag = (2 : ℝ) ^ (fmt.bias + 1) := by
  have h := gridValue_units fmt.fracWidth fmt.qMin (fmt.expMax - 1) (2 ^ fmt.fracWidth) (.inr le_rfl)
    (by rw [pow_succ]; omega)
  have h1 : 1 ≤ fmt.expMax := by cases fmt <;> decide
  rw [show (fmt.expMax - 1) * 2 ^ fmt.fracWidth + 2 ^ fmt.fracWidth = fmt.infMag by
    rw [← Nat.succ_mul, Nat.succ_eq_add_one, Nat.sub_add_cancel h1]; rfl] at h
  rw [h]
  push_cast
  rw [← zpow_natCast, ← zpow_natCast, ← zpow_add₀ (two_ne_zero' ℝ)]
  congr 1
  cases fmt <;> simp [Fmt.qMin, Fmt.bias, Fmt.expMax, Fmt.expWidth, Fmt.fracWidth]

end Machine

end Sys2Proof
end

