-- ==== Sys2Proof/Laws/Rounding.lean ====
section
/-! SUPPORT. The neighbour that `roundsUp` takes is the one R14 names, in any increasing sequence of magnitudes; with it,
what `roundTo` answers in the words of the claims. -/

namespace Sys2Proof.Machine

/-! ## Choosing a neighbour -/

section Choice

@[simp] theorem takenMag_exact (rm : Rm) (neg : Bool) (m : Nat) : takenMag rm neg m .exact = m := by
  cases rm <;> simp [takenMag, roundsUp]

theorem takenMag_mem (rm : Rm) (neg : Bool) (m : Nat) (r : Residue) :
    takenMag rm neg m r = m ∨ takenMag rm neg m r = m + 1 := by
  unfold takenMag
  split_ifs <;> simp

variable {g : Nat → ℝ} {X : ℝ} {m : Nat} {r : Residue}

/-- No member of the sequence is nearer than the one taken by a nearest mode. -/
theorem takenMag_nearest (hg : StrictMono g) (h : r.Between (g m) (g (m + 1)) X) {rm : Rm} (neg : Bool)
    (hrm : rm = .rne ∨ rm = .rmm) (j : Nat) : |g (takenMag rm neg m r) - X| ≤ |g j - X| ∧
      (r ≠ .tie → |g (takenMag rm neg m r) - X| = |g j - X| → j = takenMag rm neg m r) ∧
      (|g (takenMag rm neg m r) - X| = |g j - X| → j ≤ m + 1) := by
  have hlt : g m < g (m + 1) := hg (Nat.lt_succ_self m)
  obtain ⟨b1, b2⟩ := h.le hlt
  have hj : j = m ∨ j = m + 1 ∨ g j < g m ∨ g (m + 1) < g j := by
    rcases Nat.lt_trichotomy j m with h | h | h
    · exact .inr (.inr (.inl (hg h)))
    · exact .inl h
    · rcases Nat.eq_or_lt_of_le (Nat.succ_le_of_lt h) with h | h
      · exact .inr (.inl h.symm)
      · exact .inr (.inr (.inr (hg h)))
  have hle : g j ≤ g (m + 1) → j ≤ m + 1 := hg.le_iff_le.1
  have e0 : |g m - X| = X - g m := by rw [abs_sub_comm, abs_of_nonneg (by linarith)]
  have e1 : |g (m + 1) - X| = g (m + 1) - X := abs_of_nonneg (by linarith)
  have ht : takenMag rm neg m r = m ∧ 2 * X ≤ g m + g (m + 1) ∧ (r ≠ .tie → 2 * X < g m + g (m + 1)) ∨
      takenMag rm neg m r = m + 1 ∧ g m + g (m + 1) ≤ 2 * X ∧ (r ≠ .tie → g m + g (m + 1) < 2 * X) := by
    cases r <;> simp only [Residue.Between] at h
    · exact .inl ⟨takenMag_exact rm neg m, by linarith, fun _ => by linarith⟩
    · exact .inl ⟨by rcases hrm with rfl | rfl <;> rfl, by linarith, fun _ => h.2⟩
    · rcases takenMag_mem rm neg m .tie with ht | ht
      · exact .inl ⟨ht, by linarith, fun h => absurd rfl h⟩
      · exact .inr ⟨ht, by linarith, fun h => absurd rfl h⟩
    · exact .inr ⟨by rcases hrm with rfl | rfl <;> rfl, by linarith, fun _ => h.1⟩
  rcases ht with ⟨ht, hx, hs⟩ | ⟨ht, hx, hs⟩ <;> rw [ht]
  · rw [e0]
    rcases hj with rfl | rfl | hj | hj
    · rw [e0]; exact ⟨le_rfl, fun _ _ => rfl, fun _ => by omega⟩
    · rw [e1]; exact ⟨by linarith, fun h1 h2 => absurd (hs h1) (by linarith), fun _ => le_rfl⟩
    · rw [abs_sub_comm, abs_of_nonneg (by linarith)]
      exact ⟨by linarith, fun _ h2 => absurd hj (by linarith), fun _ => hle (by linarith)⟩
    · rw [abs_of_nonneg (by linarith)]
      exact ⟨by linarith, fun _ h2 => absurd hj (by linarith), fun h2 => absurd hj (by linarith)⟩
  · rw [e1]
    rcases hj with rfl | rfl | hj | hj
    · rw [e0]; exact ⟨by linarith, fun h1 h2 => absurd (hs h1) (by linarith), fun _ => by omega⟩
    · rw [e1]; exact ⟨le_rfl, fun _ _ => rfl, fun _ => le_rfl⟩
    · rw [abs_sub_comm, abs_of_nonneg (by linarith)]
      exact ⟨by linarith, fun _ h2 => absurd hj (by linarith), fun _ => hle (by linarith)⟩
    · rw [abs_of_nonneg (by linarith)]
      exact ⟨by linarith, fun _ h2 => absurd hj (by linarith), fun h2 => absurd hj (by linarith)⟩

theorem le_of_val_le (hg : StrictMono g) (h : X < g (m + 1)) {j : Nat} (hj : g j ≤ X) : g j ≤ g m :=
  hg.monotone (Nat.lt_succ_iff.1 (hg.lt_iff_lt.1 (hj.trans_lt h)))

theorem le_of_le_val (hg : StrictMono g) (h : g m < X) {j : Nat} (hj : X ≤ g j) : g (m + 1) ≤ g j :=
  hg.monotone (hg.lt_iff_lt.1 (h.trans_le hj))

/-- An exact magnitude is taken as it is; any other lies strictly above the lower neighbour. -/
theorem Residue.Between.exact_or_lt (hlt : g m < g (m + 1)) (h : r.Between (g m) (g (m + 1)) X) :
    (r = .exact ∧ X = g m) ∨ (r ≠ .exact ∧ g m < X) := by
  cases r <;> simp only [Residue.Between] at h
  · exact .inl ⟨rfl, h⟩
  · exact .inr ⟨by simp, h.1⟩
  · exact .inr ⟨by simp, by linarith⟩
  · exact .inr ⟨by simp, by linarith⟩

end Choice

/-- The pattern of the neighbour taken is the correctly rounded result (R14), when it is finite. -/
theorem roundsTo_pattern (fmt : Fmt) (rm : Rm) (neg : Bool) {X : ℝ} (hX : 0 < X) {m : Nat} {r : Residue}
    (h : r.Between (gridValue fmt.fracWidth fmt.qMin m) (gridValue fmt.fracWidth fmt.qMin (m + 1)) X)
    (hfin : takenMag rm neg m r < fmt.infMag) :
    RoundsTo fmt rm (signFactor neg * X) (fmt.pattern neg (takenMag rm neg m r)) := by
  have hg := gridValue_strictMono fmt.fracWidth fmt.qMin
  have hg0 := gridValue_zero fmt.fracWidth fmt.qMin
  have hval := realValue_eq fmt
  have hr0 := realValue_pattern fmt neg _ (hfin.trans fmt.infMag_lt)
  set g := gridValue fmt.fracWidth fmt.qMin
  set t := takenMag rm neg m r with ht
  set p := fmt.pattern neg t with hp
  have hlt : g m < g (m + 1) := hg (Nat.lt_succ_self m)
  obtain ⟨b1, b2⟩ := h.le hlt
  have hnn : ∀ j, 0 ≤ g j := fun j => hg0 ▸ hg.monotone (Nat.zero_le j)
  -- the distance of any value, by its sign
  have hdist : ∀ y : XWord, |(realValue fmt y : ℝ) - signFactor neg * X| =
      if fmt.sign y = neg then |g (fmt.mag y) - X| else g (fmt.mag y) + X := by
    intro y
    rw [hval y]
    have := hnn (fmt.mag y)
    cases neg <;> cases fmt.sign y <;> simp only [signFactor, if_true, reduceCtorEq, if_false, one_mul, Bool.false_eq_true]
    · rw [show -1 * g (fmt.mag y) - X = -(g (fmt.mag y) + X) by ring, abs_neg, abs_of_nonneg (by linarith)]
    · rw [show g (fmt.mag y) - -1 * X = g (fmt.mag y) + X by ring, abs_of_nonneg (by linarith)]
    · rw [show -1 * g (fmt.mag y) - -1 * X = -(g (fmt.mag y) - X) by ring, abs_neg]
  have hdist0 : |(realValue fmt p : ℝ) - signFactor neg * X| = |g t - X| := by
    rw [hdist, fmt.sign_pattern neg t (hfin.trans fmt.infMag_lt), fmt.mag_pattern neg t (hfin.trans fmt.infMag_lt),
      if_pos rfl]
  have habs : ∀ y : XWord, |(realValue fmt y : ℝ)| = g (fmt.mag y) := by
    intro y
    rw [hval y, abs_mul, abs_of_nonneg (hnn _)]
    unfold signFactor
    split_ifs <;> simp
  have habs0 : |(realValue fmt p : ℝ)| = g t := by
    rw [habs, fmt.mag_pattern neg t (hfin.trans fmt.infMag_lt)]
  have hXabs : |signFactor neg * X| = X := by
    rw [abs_mul, abs_of_pos hX]
    unfold signFactor
    split_ifs <;> simp
  refine ⟨isFinite_pattern fmt neg t hfin, ?_⟩
  -- what a nearest mode gives against any value
  have near : rm = .rne ∨ rm = .rmm → ∀ y : XWord,
      |(realValue fmt p : ℝ) - signFactor neg * X| ≤ |(realValue fmt y : ℝ) - signFactor neg * X| ∧
      (|(realValue fmt p : ℝ) - signFactor neg * X| = |(realValue fmt y : ℝ) - signFactor neg * X| →
        (r ≠ .tie → realValue fmt y = realValue fmt p) ∧ g (fmt.mag y) ≤ g (m + 1)) := by
    intro hrm y
    obtain ⟨n1, n2, n3⟩ := takenMag_nearest hg h neg hrm (fmt.mag y)
    obtain ⟨z1, z2, -⟩ := takenMag_nearest hg h neg hrm 0
    have z0 : |g 0 - X| = X := by rw [hg0, zero_sub, abs_neg, abs_of_pos hX]
    rw [z0] at z1 z2
    rw [hdist0, hdist]
    split_ifs with hs
    · refine ⟨n1, fun he => ⟨fun hr => ?_, hg.monotone (n3 he)⟩⟩
      have : (realValue fmt y : ℝ) = realValue fmt p := by rw [hval, hr0, hs, n2 hr he]
      exact_mod_cast this
    · have hn := hnn (fmt.mag y)
      refine ⟨by linarith, fun he => ?_⟩
      have hy0 : g (fmt.mag y) = 0 := by linarith
      refine ⟨fun hr => ?_, by rw [hy0]; exact hnn _⟩
      have ht0 := z2 hr (by linarith)
      have : (realValue fmt y : ℝ) = realValue fmt p := by rw [hval, hr0, hy0, ht, ← ht0, hg0]; ring
      exact_mod_cast this
  cases rm with
  | rne =>
    intro y _
    obtain ⟨h1, h2⟩ := near (.inl rfl) y
    refine ⟨h1, fun he hne => ?_⟩
    have hr : r = .tie := by
      by_contra hr
      exact hne ((h2 he).1 hr)
    obtain ⟨F', hF'⟩ : ∃ F', fmt.fracWidth = F' + 1 := Nat.exists_eq_succ_of_ne_zero fmt.fracWidth_pos.ne'
    rw [fmt.frac_eq_mag_mod, fmt.mag_pattern neg t (hfin.trans fmt.infMag_lt), hF', Nat.pow_succ,
      Nat.mul_comm, Nat.mod_mul_right_mod]
    rw [ht, hr, takenMag]
    simp only [roundsUp, beq_self_eq_true, Bool.true_and, reduceCtorEq, Bool.or_eq_true, beq_iff_eq, false_or]
    split_ifs <;> omega
  | rmm =>
    intro y _
    obtain ⟨h1, h2⟩ := near (.inr rfl) y
    refine ⟨h1, fun he => ?_⟩
    by_cases hr : r = .tie
    · have htm : t = m + 1 := by rw [ht, hr]; rfl
      have : |(realValue fmt y : ℝ)| ≤ |(realValue fmt p : ℝ)| := by
        rw [habs, habs0, htm]
        exact (h2 he).2
      exact_mod_cast this
    · rw [(h2 he).1 hr]
  | rtz =>
    have htm : t = m := rfl
    rw [hXabs]
    refine ⟨by rw [habs0, htm]; exact b1, fun y _ hy => ?_⟩
    rw [habs] at hy
    have hm := le_of_val_le hg b2 hy
    rw [hdist0, hdist, htm, abs_sub_comm, abs_of_nonneg (by linarith)]
    have hn := hnn m
    have hn' := hnn (fmt.mag y)
    split_ifs
    · rw [abs_sub_comm, abs_of_nonneg (by linarith)]; linarith
    · linarith
  | rdn =>
    cases neg with
    | false =>
      have htm : t = m := rfl
      simp only [signFactor, Bool.false_eq_true, if_false, one_mul] at hr0 ⊢
      refine ⟨by rw [hr0, htm]; exact b1, fun y _ hy => ?_⟩
      have : (realValue fmt y : ℝ) ≤ realValue fmt p := by
        rw [hr0, htm]
        rw [hval] at hy ⊢
        have hn := hnn (fmt.mag y)
        cases hs : fmt.sign y <;> rw [hs] at hy <;> simp only [signFactor, if_true, Bool.false_eq_true, if_false,
          one_mul] at hy ⊢
        · exact le_of_val_le hg b2 hy
        · have := hnn m; linarith
      exact_mod_cast this
    | true =>
      simp only [signFactor, if_true] at hr0 ⊢
      rcases h.exact_or_lt hlt with ⟨hr, hx⟩ | ⟨hr, hx⟩
      · have htm : t = m := by rw [ht, hr]; exact takenMag_exact _ _ _
        rw [hx, ← htm, ← hr0]
        exact ⟨le_rfl, fun y _ hy => by exact_mod_cast hy⟩
      · have htm : t = m + 1 := by simp [ht, takenMag, roundsUp, hr]
        refine ⟨by rw [hr0, htm]; linarith, fun y _ hy => ?_⟩
        have : (realValue fmt y : ℝ) ≤ realValue fmt p := by
          rw [hr0, htm]
          rw [hval] at hy ⊢
          have hn := hnn (fmt.mag y)
          cases hs : fmt.sign y <;> rw [hs] at hy <;> simp only [signFactor, if_true, Bool.false_eq_true, if_false,
            one_mul] at hy ⊢
          · linarith
          · have := le_of_le_val hg hx (show X ≤ g (fmt.mag y) by linarith); linarith
        exact_mod_cast this
  | rup =>
    cases neg with
    | true =>
      have htm : t = m := rfl
      simp only [signFactor, if_true] at hr0 ⊢
      refine ⟨by rw [hr0, htm]; linarith, fun y _ hy => ?_⟩
      have : (realValue fmt p : ℝ) ≤ realValue fmt y := by
        rw [hr0, htm]
        rw [hval] at hy ⊢
        have hn := hnn (fmt.mag y)
        cases hs : fmt.sign y <;> rw [hs] at hy <;> simp only [signFactor, if_true, Bool.false_eq_true, if_false,
          one_mul] at hy ⊢
        · have := hnn m; linarith
        · have := le_of_val_le hg b2 (show g (fmt.mag y) ≤ X by linarith); linarith
      exact_mod_cast this
    | false =>
      simp only [signFactor, Bool.false_eq_true, if_false, one_mul] at hr0 ⊢
      rcases h.exact_or_lt hlt with ⟨hr, hx⟩ | ⟨hr, hx⟩
      · have htm : t = m := by rw [ht, hr]; exact takenMag_exact _ _ _
        rw [hx, ← htm, ← hr0]
        exact ⟨le_rfl, fun y _ hy => by exact_mod_cast hy⟩
      · have htm : t = m + 1 := by simp [ht, takenMag, roundsUp, hr]
        refine ⟨by rw [hr0, htm]; linarith, fun y _ hy => ?_⟩
        have : (realValue fmt p : ℝ) ≤ realValue fmt y := by
          rw [hr0, htm]
          rw [hval] at hy ⊢
          have hn := hnn (fmt.mag y)
          cases hs : fmt.sign y <;> rw [hs] at hy <;> simp only [signFactor, if_true, Bool.false_eq_true, if_false,
            one_mul] at hy ⊢
          · exact le_of_le_val hg hx hy
          · linarith
        exact_mod_cast this

/-- Everything `roundTo` says of a positive magnitude `X`, in the words of the claims: the correctly rounded result when it
does not overflow, the overflow result when it does, inexactness, and when overflow happens. -/
theorem roundTo_correct (fmt : Fmt) (rm : Rm) (neg : Bool) (x : Magnitude) (hx : x.Positive) :
    let r := roundTo fmt rm neg x
    let X := signFactor neg * x.real
    (r.overflow = false → RoundsTo fmt rm X r.pattern) ∧
    (r.overflow = true → r.pattern = fmt.pattern neg (overflowMag fmt rm neg)) ∧
    (r.inexact = false ↔ IsFinite fmt r.pattern ∧ (realValue fmt r.pattern : ℝ) = X) ∧
    (r.overflow = true → (realValue fmt (BitVec.ofNat 128 (fmt.infMag - 1)) : ℝ) < x.real) ∧
    ((2 : ℝ) ^ (fmt.bias + 1) ≤ x.real → r.overflow = true) := by
  obtain ⟨m, r, hb, ho, hi, hp⟩ := roundTo_spec fmt rm neg x hx
  have hX : 0 < x.real := lt_of_lt_of_le (zpow_pos two_pos _) (x.ilog_spec hx).1
  have hg := gridValue_strictMono fmt.fracWidth fmt.qMin
  have hlt : gridValue fmt.fracWidth fmt.qMin m < gridValue fmt.fracWidth fmt.qMin (m + 1) := hg (Nat.lt_succ_self m)
  obtain ⟨b1, b2⟩ := hb.le hlt
  have hinf := fmt.infMag_lt
  have hpos := fmt.infMag_pos
  have hmax : (realValue fmt (BitVec.ofNat 128 (fmt.infMag - 1)) : ℝ) =
      gridValue fmt.fracWidth fmt.qMin (fmt.infMag - 1) := by
    have := realValue_pattern fmt false (fmt.infMag - 1) (by omega)
    simpa [Fmt.pattern, signFactor] using this
  have hcases := hb.exact_or_lt hlt
  -- on overflow the magnitude is above the largest finite one
  have hover : fmt.infMag ≤ takenMag rm neg m r → gridValue fmt.fracWidth fmt.qMin (fmt.infMag - 1) < x.real := by
    intro h
    rcases hcases with ⟨rfl, hx⟩ | ⟨-, hx⟩
    · rw [takenMag_exact] at h
      rw [hx]
      exact hg (by omega)
    · have := takenMag_mem rm neg m r
      exact lt_of_le_of_lt (hg.monotone (by omega)) hx
  simp only
  rw [ho, hi, hp, hmax, ← gridValue_infMag]
  by_cases h : fmt.infMag ≤ takenMag rm neg m r
  · have hne : ¬ (IsFinite fmt (fmt.pattern neg (overflowMag fmt rm neg)) ∧
        (realValue fmt (fmt.pattern neg (overflowMag fmt rm neg)) : ℝ) = signFactor neg * x.real) := by
      rintro ⟨hf, hv⟩
      have hle : overflowMag fmt rm neg = fmt.infMag ∨ overflowMag fmt rm neg = fmt.infMag - 1 := by
        cases rm <;> cases neg <;> simp [overflowMag]
      have hlt' : overflowMag fmt rm neg < 2 ^ (fmt.width - 1) := by omega
      rw [isFinite_iff, fmt.mag_pattern neg _ hlt'] at hf
      rw [realValue_pattern fmt neg _ hlt', show overflowMag fmt rm neg = fmt.infMag - 1 by omega] at hv
      have := hover h
      have hs : signFactor neg ≠ 0 := by cases neg <;> simp [signFactor]
      rw [mul_left_cancel₀ hs hv] at this
      exact lt_irrefl _ this
    simp only [h, decide_true, if_true, Bool.or_true, reduceCtorEq, false_iff]
    exact ⟨fun h => absurd h (by simp), fun _ => trivial, hne, fun _ => hover h, fun _ => trivial⟩
  · simp only [h, decide_false, if_false, Bool.or_false, reduceCtorEq]
    have hfin := not_le.1 h
    have hr := roundsTo_pattern fmt rm neg hX hb hfin
    refine ⟨fun _ => hr, fun h => absurd h (by simp), ?_, fun h => absurd h (by simp), fun h2 => ?_⟩
    · rw [realValue_pattern fmt neg _ (hfin.trans hinf)]
      constructor
      · intro he
        have : r = .exact := by simpa using he
        subst this
        rcases hcases with ⟨-, hx⟩ | ⟨hne, -⟩
        · rw [takenMag_exact, hx]
          exact ⟨isFinite_pattern fmt neg _ (by simpa using hfin), rfl⟩
        · exact absurd rfl hne
      · rintro ⟨-, hv⟩
        have hs : signFactor neg ≠ 0 := by cases neg <;> simp [signFactor]
        have hv := mul_left_cancel₀ hs hv
        rcases hcases with ⟨rfl, -⟩ | ⟨-, hx⟩
        · rfl
        · rcases takenMag_mem rm neg m r with ht | ht <;> rw [ht] at hv <;> linarith
    · have : m + 1 ≤ fmt.infMag := by
        have := takenMag_mem rm neg m r
        omega
      have := hg.monotone this
      linarith

end Sys2Proof.Machine
end

