-- ==== Sys2Proof/Laws/Integers.lean ====
section
/-! SUPPORT. What `roundToInteger` answers, in the words of the claims (R14 applied to the integers, R150 (b)). -/

namespace Sys2Proof.Machine

/-- The sign of a value as a rational factor. -/
def signRat (neg : Bool) : ℚ := if neg then -1 else 1

theorem signRat_mul_self (neg : Bool) : signRat neg * signRat neg = 1 := by
  cases neg <;> norm_num [signRat]

theorem abs_signRat_mul (neg : Bool) (y : ℚ) : |signRat neg * y| = |y| := by
  cases neg <;> simp [signRat]

theorem signedInt_cast (neg : Bool) (m : Nat) : ((signedInt neg m : Int) : ℚ) = signRat neg * m := by
  cases neg <;> simp [signedInt, signRat]

/-- The neighbour taken among the naturals is the integer that R14 names. -/
theorem roundsToInt_taken (rm : Rm) (neg : Bool) {X : ℚ} (hX : 0 ≤ X) {m : Nat} {r : Residue}
    (h : r.Between ((m : Nat) : ℝ) ((m + 1 : Nat) : ℝ) (X : ℝ)) :
    RoundsToInt rm (signRat neg * X) (signedInt neg (takenMag rm neg m r)) := by
  have hg : StrictMono (Nat.cast : Nat → ℝ) := Nat.strictMono_cast
  have hlt : ((m : Nat) : ℝ) < ((m + 1 : Nat) : ℝ) := by push_cast; linarith
  obtain ⟨b1, b2⟩ := h.le hlt
  have b1 : (m : ℚ) ≤ X := by exact_mod_cast b1
  have b2 : X < (m : ℚ) + 1 := by exact_mod_cast b2
  have hcases : (r = .exact ∧ X = m) ∨ (r ≠ .exact ∧ (m : ℚ) < X) :=
    (h.exact_or_lt hlt).imp (fun h => ⟨h.1, by exact_mod_cast h.2⟩) fun h => ⟨h.1, by exact_mod_cast h.2⟩
  set t := takenMag rm neg m r with ht
  -- distances, up to the common sign
  have hdist : ∀ y : ℚ, |y - signRat neg * X| = |signRat neg * y - X| := fun y => by
    rw [← abs_signRat_mul neg, mul_sub, ← mul_assoc, signRat_mul_self, one_mul]
  have hdist0 : |((signedInt neg t : Int) : ℚ) - signRat neg * X| = |(t : ℚ) - X| := by
    rw [hdist, signedInt_cast, ← mul_assoc, signRat_mul_self, one_mul]
  have hint : ∀ i : Int, ∃ i' : Int, (signRat neg * (i : ℚ)) = i' ∧ |i'| = |i| := fun i => by
    cases neg
    · exact ⟨i, by simp [signRat], rfl⟩
    · exact ⟨-i, by simp [signRat], abs_neg i⟩
  have hbound : ∀ i : Int, ((i : ℚ) ≤ X → i ≤ m) ∧ ((m : ℚ) < X → X ≤ i → (m : Int) + 1 ≤ i) := fun i => by
    refine ⟨fun hi => Int.lt_add_one_iff.1 ?_, fun hm hi => Int.add_one_le_iff.2 ?_⟩
    · exact_mod_cast lt_of_le_of_lt hi b2
    · exact_mod_cast lt_of_lt_of_le hm hi
  have near : rm = .rne ∨ rm = .rmm → ∀ i : Int,
      |((signedInt neg t : Int) : ℚ) - signRat neg * X| ≤ |(i : ℚ) - signRat neg * X| ∧
      (|((signedInt neg t : Int) : ℚ) - signRat neg * X| = |(i : ℚ) - signRat neg * X| →
        (r ≠ .tie → i = signedInt neg t) ∧ |i| ≤ m + 1) := by
    intro hrm i
    rw [hdist0, hdist]
    obtain ⟨z1, -, -⟩ := takenMag_nearest hg h neg hrm 0
    have z1 : |(t : ℚ) - X| ≤ X := by
      rw [Nat.cast_zero, zero_sub, abs_neg] at z1
      have : |(t : ℚ) - X| ≤ |X| := by exact_mod_cast z1
      rwa [abs_of_nonneg hX] at this
    obtain ⟨i', hi', habs⟩ := hint i
    rw [hi']
    rcases lt_or_ge i' 0 with hneg | hpos
    · have : (i' : ℚ) < 0 := by exact_mod_cast hneg
      have hd : |(i' : ℚ) - X| = X - i' := by rw [abs_sub_comm, abs_of_nonneg (by linarith)]
      rw [hd]
      exact ⟨by linarith, fun he => absurd z1 (by linarith)⟩
    · obtain ⟨n, rfl⟩ := Int.eq_ofNat_of_zero_le hpos
      obtain ⟨n1, n2, n3⟩ := takenMag_nearest hg h neg hrm n
      have n1 : |(t : ℚ) - X| ≤ |((n : Int) : ℚ) - X| := by exact_mod_cast n1
      refine ⟨n1, fun he => ?_⟩
      have he : |((t : Nat) : ℝ) - X| = |((n : Nat) : ℝ) - X| := by exact_mod_cast he
      refine ⟨fun hr => ?_, ?_⟩
      · have : ((i : Int) : ℚ) = ((signedInt neg t : Int) : ℚ) := by
          rw [signedInt_cast, ht, ← n2 hr he, ← one_mul (i : ℚ), ← signRat_mul_self neg, mul_assoc, hi']
          push_cast
          rfl
        exact_mod_cast this
      · rw [← habs, abs_of_nonneg hpos]
        exact_mod_cast n3 he
  have habst : |signedInt neg t| = t := by cases neg <;> simp [signedInt]
  cases rm with
  | rne =>
    intro i
    obtain ⟨h1, h2⟩ := near (.inl rfl) i
    refine ⟨h1, fun he hne => ?_⟩
    have hr : r = .tie := by
      by_contra hr
      exact hne ((h2 he).1 hr)
    have heven : t % 2 = 0 := by
      rw [ht, hr, takenMag]
      simp only [roundsUp, beq_self_eq_true, Bool.true_and, reduceCtorEq, Bool.or_eq_true, beq_iff_eq, false_or]
      split_ifs <;> omega
    cases neg <;> simp only [signedInt, if_true, Bool.false_eq_true, if_false] <;> omega
  | rmm =>
    intro i
    obtain ⟨h1, h2⟩ := near (.inr rfl) i
    refine ⟨h1, fun he => ?_⟩
    by_cases hr : r = .tie
    · rw [habst, show t = m + 1 by rw [ht, hr]; rfl]
      exact_mod_cast (h2 he).2
    · rw [(h2 he).1 hr]
  | rtz =>
    have htm : t = m := rfl
    refine ⟨?_, fun i hi => ?_⟩
    · rw [signedInt_cast, abs_signRat_mul, abs_signRat_mul, abs_of_nonneg hX, Nat.abs_cast]
      exact b1
    · rw [abs_signRat_mul, abs_of_nonneg hX] at hi
      rw [hdist0, hdist, htm]
      obtain ⟨i', hi', habs⟩ := hint i
      rw [hi', abs_sub_comm, abs_of_nonneg (by linarith), abs_sub_comm]
      have habs' : |(i' : ℚ)| = |(i : ℚ)| := by exact_mod_cast habs
      have hle : (i' : ℚ) ≤ X := le_trans (le_abs_self _) (habs' ▸ hi)
      have : ((i' : Int) : ℚ) ≤ m := by exact_mod_cast (hbound i').1 hle
      rw [abs_of_nonneg (by linarith)]
      linarith
  | rdn =>
    cases neg with
    | false =>
      have htm : t = m := rfl
      simp only [RoundsToInt, signRat, signedInt, Bool.false_eq_true, if_false, one_mul, htm]
      exact ⟨by exact_mod_cast b1, fun i hi => (hbound i).1 hi⟩
    | true =>
      simp only [RoundsToInt, signRat, signedInt, if_true]
      rcases hcases with ⟨hr, hx⟩ | ⟨hr, hx⟩
      · have htm : t = m := by rw [ht, hr]; exact takenMag_exact _ _ _
        rw [htm, hx]
        push_cast
        refine ⟨by linarith, fun i hi => ?_⟩
        have : (i : ℚ) ≤ ((-(m : Int) : Int) : ℚ) := by push_cast; linarith
        exact_mod_cast this
      · have htm : t = m + 1 := by simp [ht, takenMag, roundsUp, hr]
        rw [htm]
        push_cast
        refine ⟨by linarith, fun i hi => ?_⟩
        have := (hbound (-i)).2 hx (by push_cast; linarith)
        omega
  | rup =>
    cases neg with
    | true =>
      have htm : t = m := rfl
      simp only [RoundsToInt, signRat, signedInt, if_true, htm]
      push_cast
      refine ⟨by linarith, fun i hi => ?_⟩
      have := (hbound (-i)).1 (by push_cast; linarith)
      omega
    | false =>
      simp only [RoundsToInt, signRat, signedInt, Bool.false_eq_true, if_false, one_mul]
      rcases hcases with ⟨hr, hx⟩ | ⟨hr, hx⟩
      · have htm : t = m := by rw [ht, hr]; exact takenMag_exact _ _ _
        rw [htm, hx]
        exact ⟨by push_cast; exact le_rfl, fun i hi => by exact_mod_cast hi⟩
      · have htm : t = m + 1 := by simp [ht, takenMag, roundsUp, hr]
        rw [htm]
        push_cast
        exact ⟨by linarith, fun i hi => (hbound i).2 hx hi⟩

/-- `roundToInteger` gives the integer of R14 in magnitude, and says whether it differs from the value. -/
theorem roundToInteger_spec (rm : Rm) (neg : Bool) (m : Nat) (e : Int) :
    RoundsToInt rm (signRat neg * (m * 2 ^ e)) (signedInt neg (roundToInteger rm neg m e).1) ∧
    ((roundToInteger rm neg m e).2 = false ↔ ((m : ℚ) * 2 ^ e = ((roundToInteger rm neg m e).1 : Nat))) := by
  have hden : 0 < 1 * pow2 (0 - e) := by rw [one_mul]; exact pow2_pos _
  have hp := residueOf_places (m * pow2 (e - 0)) (1 * pow2 (0 - e)) hden
  set k := m * pow2 (e - 0) / (1 * pow2 (0 - e)) with hk
  set r := residueOf (m * pow2 (e - 0) % (1 * pow2 (0 - e))) (1 * pow2 (0 - e)) with hr
  have hval : ((m * pow2 (e - 0) : Nat) : ℝ) / ((1 * pow2 (0 - e) : Nat) : ℝ) = (((m : ℚ) * 2 ^ e : ℚ) : ℝ) := by
    rw [one_mul, sub_zero, zero_sub]
    push_cast
    rw [mul_div_assoc, pow2_ratio]
  rw [hval, ← div_one ((((m : ℚ) * 2 ^ e : ℚ)) : ℝ)] at hp
  have hb := hp.between one_pos
  rw [mul_one, mul_one] at hb
  have hb : r.Between ((k : Nat) : ℝ) ((k + 1 : Nat) : ℝ) (((m : ℚ) * 2 ^ e : ℚ) : ℝ) := by push_cast at hb ⊢; exact hb
  have hk1 : (roundToInteger rm neg m e).1 = takenMag rm neg k r := rfl
  have hk2 : (roundToInteger rm neg m e).2 = (r != .exact) := rfl
  rw [hk1, hk2]
  have hX : (0 : ℚ) ≤ (m : ℚ) * 2 ^ e := by positivity
  refine ⟨roundsToInt_taken rm neg hX hb, ?_⟩
  have hlt : ((k : Nat) : ℝ) < ((k + 1 : Nat) : ℝ) := by push_cast; linarith
  obtain ⟨-, b2⟩ := hb.le hlt
  rcases hb.exact_or_lt (g := Nat.cast) hlt with ⟨h, hx⟩ | ⟨h, hx⟩
  · rw [h, takenMag_exact]
    exact ⟨fun _ => by exact_mod_cast hx, fun _ => rfl⟩
  · refine ⟨fun hr => absurd (by simpa using hr) h, fun hv => ?_⟩
    rw [hv] at hx b2
    have hx : k < takenMag rm neg k r := by exact_mod_cast hx
    have b2 : takenMag rm neg k r < k + 1 := by exact_mod_cast b2
    omega

/-- Rounding to an integer has one answer. -/
theorem roundsToInt_unique {rm : Rm} {x : ℚ} {i j : Int} (hi : RoundsToInt rm x i) (hj : RoundsToInt rm x j) : i = j := by
  have hsum : |(i : ℚ) - x| = |(j : ℚ) - x| → i = j ∨ (i : ℚ) + j = 2 * x := fun h => by
    rcases abs_eq_abs.1 h with h | h
    · exact .inl (by exact_mod_cast (sub_left_inj.1 h))
    · exact .inr (by linarith)
  cases rm with
  | rne =>
    obtain ⟨i1, i2⟩ := hi j
    obtain ⟨j1, j2⟩ := hj i
    have he := le_antisymm i1 j1
    rcases hsum he with h | h
    · exact h
    · by_contra hne
      have hi2 := j2 he.symm hne
      have hj2 := i2 he (Ne.symm hne)
      obtain ⟨k, hk⟩ : ∃ k : Int, i + j = 2 * k := ⟨(i + j) / 2, by omega⟩
      have hk : (i : ℚ) + j = 2 * k := by exact_mod_cast hk
      have hx : (k : ℚ) - x = 0 := by linarith
      have ki := (hi k).1
      have kj := (hj k).1
      rw [hx, abs_zero, abs_nonpos_iff, sub_eq_zero] at ki kj
      exact hne (by exact_mod_cast ki.trans kj.symm)
  | rtz =>
    obtain ⟨i1, i2⟩ := hi
    obtain ⟨j1, j2⟩ := hj
    rcases hsum (le_antisymm (i2 j j1) (j2 i i1)) with h | h
    · exact h
    · have hij : (i : ℚ) = j := by
        rw [abs_le] at i1 j1
        rcases abs_cases x with ⟨ha, -⟩ | ⟨ha, -⟩ <;> rw [ha] at i1 j1 <;> linarith
      exact_mod_cast hij
  | rdn => exact le_antisymm (hj.2 i hi.1) (hi.2 j hj.1)
  | rup => exact le_antisymm (hi.2 j hj.1) (hj.2 i hi.1)
  | rmm =>
    obtain ⟨i1, i2⟩ := hi j
    obtain ⟨j1, j2⟩ := hj i
    have he := le_antisymm i1 j1
    rcases hsum he with h | h
    · exact h
    · rcases abs_eq_abs.1 (le_antisymm (j2 he.symm) (i2 he)) with ha | ha
      · exact ha
      · have ha' : (i : ℚ) = -j := by exact_mod_cast ha
        have hx : x = 0 := by linarith
        have h0 := (hi 0).1
        rw [hx] at h0
        simp only [sub_zero, Int.cast_zero, abs_zero, abs_nonpos_iff, Int.cast_eq_zero] at h0
        omega

end Sys2Proof.Machine
end

