-- ==== Sys2Proof/Laws/PerInstr.lean ====
section
/-! SUPPORT. The per-instruction family `Encoding`: the canonical word of each command is a word of its row of
spec/opcode_table.json (`mask = 0xFC1F`, `match = op`, 30_encoding.md R55). -/

namespace Sys2Proof.Laws.Encoding

/-- The row's `match` value by constructor, as spec/opcode_table.json prints it. -/
def matchWord : Instr → CmdWord
  | .bits _ => 0x0000
  | .classify _ => 0x0001
  | .add _ _ => 0x0002
  | .sub _ _ => 0x0003
  | .mul _ _ => 0x0004
  | .div _ _ => 0x0005
  | .fma _ _ => 0x0006
  | .rem _ _ => 0x0007
  | .sqrt _ _ => 0x0008
  | .rint _ _ => 0x0009
  | .eq _ => 0x000A
  | .lt _ => 0x000B
  | .le _ => 0x000C
  | .ltq _ => 0x000D
  | .leq _ => 0x000E
  | .cmp _ => 0x000F
  | .fromU32 _ _ => 0x0010
  | .fromU64 _ _ => 0x0011
  | .fromI32 _ _ => 0x0012
  | .fromI64 _ _ => 0x0013
  | .toU32 _ _ => 0x0014
  | .toU64 _ _ => 0x0015
  | .toI32 _ _ => 0x0016
  | .toI64 _ _ => 0x0017
  | .toF16 _ _ => 0x0018
  | .toF32 _ _ => 0x0019
  | .toF64 _ _ => 0x001A
  | .toF128 _ _ => 0x001B
  | .rdflags => 0x001C
  | .clrflags => 0x001D

/-- The canonical word matches its row: the reserved bits are zero and the operation code is the row's. -/
def Statement (i : Instr) : Prop := encode i &&& 0xFC1F = matchWord i

theorem bits (fmt : Fmt) : Statement (.bits fmt) := by
  cases fmt <;> exact rfl

theorem classify (fmt : Fmt) : Statement (.classify fmt) := by
  cases fmt <;> exact rfl

theorem add (fmt : Fmt) (rm : Rm) : Statement (.add fmt rm) := by
  cases fmt <;> cases rm <;> exact rfl

theorem sub (fmt : Fmt) (rm : Rm) : Statement (.sub fmt rm) := by
  cases fmt <;> cases rm <;> exact rfl

theorem mul (fmt : Fmt) (rm : Rm) : Statement (.mul fmt rm) := by
  cases fmt <;> cases rm <;> exact rfl

theorem div (fmt : Fmt) (rm : Rm) : Statement (.div fmt rm) := by
  cases fmt <;> cases rm <;> exact rfl

theorem fma (fmt : Fmt) (rm : Rm) : Statement (.fma fmt rm) := by
  cases fmt <;> cases rm <;> exact rfl

theorem rem (fmt : Fmt) (rm : Rm) : Statement (.rem fmt rm) := by
  cases fmt <;> cases rm <;> exact rfl

theorem sqrt (fmt : Fmt) (rm : Rm) : Statement (.sqrt fmt rm) := by
  cases fmt <;> cases rm <;> exact rfl

theorem rint (fmt : Fmt) (rm : Rm) : Statement (.rint fmt rm) := by
  cases fmt <;> cases rm <;> exact rfl

theorem eq (fmt : Fmt) : Statement (.eq fmt) := by
  cases fmt <;> exact rfl

theorem lt (fmt : Fmt) : Statement (.lt fmt) := by
  cases fmt <;> exact rfl

theorem le (fmt : Fmt) : Statement (.le fmt) := by
  cases fmt <;> exact rfl

theorem ltq (fmt : Fmt) : Statement (.ltq fmt) := by
  cases fmt <;> exact rfl

theorem leq (fmt : Fmt) : Statement (.leq fmt) := by
  cases fmt <;> exact rfl

theorem cmp (fmt : Fmt) : Statement (.cmp fmt) := by
  cases fmt <;> exact rfl

theorem fromU32 (fmt : Fmt) (rm : Rm) : Statement (.fromU32 fmt rm) := by
  cases fmt <;> cases rm <;> exact rfl

theorem fromU64 (fmt : Fmt) (rm : Rm) : Statement (.fromU64 fmt rm) := by
  cases fmt <;> cases rm <;> exact rfl

theorem fromI32 (fmt : Fmt) (rm : Rm) : Statement (.fromI32 fmt rm) := by
  cases fmt <;> cases rm <;> exact rfl

theorem fromI64 (fmt : Fmt) (rm : Rm) : Statement (.fromI64 fmt rm) := by
  cases fmt <;> cases rm <;> exact rfl

theorem toU32 (fmt : Fmt) (rm : Rm) : Statement (.toU32 fmt rm) := by
  cases fmt <;> cases rm <;> exact rfl

theorem toU64 (fmt : Fmt) (rm : Rm) : Statement (.toU64 fmt rm) := by
  cases fmt <;> cases rm <;> exact rfl

theorem toI32 (fmt : Fmt) (rm : Rm) : Statement (.toI32 fmt rm) := by
  cases fmt <;> cases rm <;> exact rfl

theorem toI64 (fmt : Fmt) (rm : Rm) : Statement (.toI64 fmt rm) := by
  cases fmt <;> cases rm <;> exact rfl

theorem toF16 (fmt : Fmt) (rm : Rm) : Statement (.toF16 fmt rm) := by
  cases fmt <;> cases rm <;> exact rfl

theorem toF32 (fmt : Fmt) (rm : Rm) : Statement (.toF32 fmt rm) := by
  cases fmt <;> cases rm <;> exact rfl

theorem toF64 (fmt : Fmt) (rm : Rm) : Statement (.toF64 fmt rm) := by
  cases fmt <;> cases rm <;> exact rfl

theorem toF128 (fmt : Fmt) (rm : Rm) : Statement (.toF128 fmt rm) := by
  cases fmt <;> cases rm <;> exact rfl

theorem rdflags : Statement .rdflags := rfl

theorem clrflags : Statement .clrflags := rfl

end Sys2Proof.Laws.Encoding
end

