-- ==== Sys2Proof/Laws/Step.lean ====
section
/-! SUPPORT. Everything one step can do, and everything an accepted or answered command can do, once each. -/

namespace Sys2Proof.Machine

variable (s : State)

/-- The state right after the latch of this step's offer (R71). -/
def State.latched (s : State) : State :=
  s.advance.latch s.sampled.reqCw s.sampled.reqA s.sampled.reqB s.sampled.reqC

/-- Everything a step can do: reset, the rejection of a word, the acceptance of a command, the units' answer, a delivery,
or nothing but using up its inputs. -/
theorem step_cases :
    (s.sampled.rst = true ∧ step s = .next s.advance.resetStep) ∨
    (s.sampled.rst = false ∧ s.phase = .idle ∧ s.sampled.reqValid = true ∧
      ∃ r, decode s.sampled.reqCw = .error r ∧ step s = .next (s.latched.reject r)) ∨
    (s.sampled.rst = false ∧ s.phase = .idle ∧ s.sampled.reqValid = true ∧
      ∃ i, decode s.sampled.reqCw = .ok i ∧ step s = exec i s.latched) ∨
    (s.sampled.rst = false ∧ s.phase = .wait ∧ s.sampled.uDone = true ∧
      ∃ i, decode s.cw = .ok i ∧ step s = exec i s.advance) ∨
    (s.sampled.rst = false ∧ s.phase = .done ∧ s.sampled.rspReady = true ∧ step s = .next s.advance.deliver) ∨
    (s.sampled.rst = false ∧ step s = .next s.advance ∧
      ((s.phase = .idle ∧ s.sampled.reqValid = false) ∨
       (s.phase = .wait ∧ (s.sampled.uDone = false ∨ ∃ r, decode s.cw = .error r)) ∨
       (s.phase = .done ∧ s.sampled.rspReady = false))) := by
  have hs : step s = stepUnder exec s.sampled s.advance := rfl
  have hcw : s.advance.cw = s.cw := rfl
  rw [hs, stepUnder, State.advance_phase]
  cases hr : s.sampled.rst
  · simp only [Bool.false_eq_true, false_and, if_false, true_and, false_or]
    cases hp : s.phase
    · cases hv : s.sampled.reqValid
      · simp
      · cases hd : decode s.sampled.reqCw <;> simp [acceptStep, hd, State.latched]
    · cases hv : s.sampled.uDone
      · simp
      · cases hd : decode s.cw <;> simp [answerStep, hd]
    · cases hv : s.sampled.rspReady <;> simp
  · simp

/-- A command run in IDLE: rejected for its operands, completed as a LOCAL command, or dispatched. -/
theorem exec_idle_cases (i : Instr) (hp : s.phase = .idle) :
    (i.operandsFit s.a s.b s.c = false ∧ exec i s = .next (s.reject .width)) ∨
    (i.operandsFit s.a s.b s.c = true ∧ i.isLocal = true ∧ ∃ v fl acc, fits i.outWidth v = true ∧
      exec i s = .next { s with res := v, rflags := fl, fflags := acc, status := .ok, phase := .done }) ∨
    (i.operandsFit s.a s.b s.c = true ∧ i.isLocal = false ∧ exec i s = .next (s.dispatch (s.unitRequest i))) := by
  cases hf : i.operandsFit s.a s.b s.c
  · exact .inl ⟨rfl, exec_idle_unfit i s hp hf⟩
  · cases h : i.isLocal
    · exact .inr (.inr ⟨rfl, rfl, by rw [exec_of_not_local i s h, unitCommand_idle i s hp hf]⟩)
    · obtain ⟨finish, he, hv⟩ := exec_of_local i h
      obtain ⟨v, fl, acc, hw, hfin⟩ := hv s
      exact .inr (.inl ⟨rfl, rfl, v, fl, acc, hw, by rw [he, localCommand_idle i finish s hp hf, hfin]⟩)

/-- A command run in WAIT: a dispatched one takes its answer, a LOCAL one is out of its turn. -/
theorem exec_wait_cases (i : Instr) (hp : s.phase = .wait) :
    (i.isLocal = true ∧ exec i s = .next s) ∨
    (i.isLocal = false ∧ exec i s = .next (s.takeAnswer i.outWidth (Units.answer (s.unitRequest i)))) := by
  cases h : i.isLocal
  · exact .inr ⟨rfl, by rw [exec_of_not_local i s h, unitCommand_wait i s hp]⟩
  · obtain ⟨finish, he, -⟩ := exec_of_local i h
    exact .inl ⟨rfl, by rw [he, localCommand_busy]; simp [hp]⟩

/-- `withFetchWord` puts the word before the very next step, which accepts it. -/
theorem withFetchWord_sampled (nbits w : Nat) :
    (s.withFetchWord nbits w).phase = .idle ∧ (s.withFetchWord nbits w).sampled.rst = false ∧
      (s.withFetchWord nbits w).sampled.reqValid = true ∧
      (s.withFetchWord nbits w).sampled.reqCw = BitVec.ofNat 16 (w % 2 ^ nbits) :=
  ⟨rfl, rfl, rfl, rfl⟩

end Sys2Proof.Machine
end

