-- ==== Sys2Proof/Laws/Units.lean ====
section
/-! SUPPORT. What the units answer to the request of a command, and what the block makes of it. -/

namespace Sys2Proof.Machine

/-- The codes of a command's request name the command. -/
theorem decodeFields_codes (i : Instr) : decodeFields i.opcode i.fmtCode i.rmCode = .ok i := by
  cases i <;>
    first
    | rfl
    | (rename_i f; cases f <;> rfl)
    | (rename_i f r; cases f <;> cases r <;> rfl)

/-- The contract of a command reads only the operands the request carries. -/
theorem contractOf_request (i : Instr) (s : State) :
    contractOf i (s.unitRequest i).a (s.unitRequest i).b (s.unitRequest i).c = contractOf i s.a s.b s.c := by
  cases i <;> rfl

/-- Every dispatched command has a contract. -/
theorem contractOf_isSome (i : Instr) (a b c : XWord) (h : i.isLocal = false) : ∃ k, contractOf i a b c = some k := by
  cases i <;>
    first
    | exact ⟨_, rfl⟩
    | exact absurd (show true = false from h) (by decide)

/-- The answer to a command's request is a raw answer made to meet the command's contract. -/
theorem answer_request {i : Instr} {s : State} {k : Contract} (h : contractOf i s.a s.b s.c = some k) :
    Units.answer (s.unitRequest i) = k.impose (Config.unit (rawRequest (s.unitRequest i))) := by
  have hd : decodeFields (s.unitRequest i).op (s.unitRequest i).fmt (s.unitRequest i).rm = .ok i := decodeFields_codes i
  simp only [Units.answer, hd, contractOf_request, h]

/-- A dispatched command in WAIT completes with an answer made to meet its contract. -/
theorem exec_wait_contract {i : Instr} {s : State} {k : Contract} (hl : i.isLocal = false) (hp : s.phase = .wait)
    (h : contractOf i s.a s.b s.c = some k) :
    ∃ raw : UnitAnswer, exec i s =
      .next (s.complete i.outWidth (imposeResult k.res raw.res) (imposeFlags k raw.flags)) := by
  refine ⟨Config.unit (rawRequest (s.unitRequest i)), ?_⟩
  rw [exec_of_not_local i s hl, unitCommand_wait i s hp, answer_request h]
  rfl

/-- A determined result comes out as its low bits. -/
@[simp] theorem imposeResult_bits (p x : XWord) : imposeResult (.bits p) x = p := rfl

/-- Flags a contract leaves to nobody come out as it says. -/
theorem imposeFlags_closed (k : Contract) (fl : FlagBits) (h : k.may = 0) : imposeFlags k fl = k.must := by
  simp [imposeFlags, h]

theorem imposeFlags_eq (k : Contract) (fl : FlagBits) : imposeFlags k fl = k.must ||| (k.may &&& fl) := by
  unfold imposeFlags
  split_ifs with h
  · simp [h]
  · rfl

end Sys2Proof.Machine
end

