-- ==== Sys2Proof/Laws/Values.lean ====
section
/-! SUPPORT. What `valueOf` reads from a pattern of each class, the exact product, the patterns of infinities and zeros on
the result port, and the completion of a command whose contract leaves nothing open. -/

namespace Sys2Proof.Machine

/-! ## Classes and values -/

variable {fmt : Fmt} {x a b : XWord}

theorem isNaN_of_isInf (h : fmt.isInf x = true) : fmt.isNaN x = false := by
  simp only [Fmt.isInf, Bool.and_eq_true, beq_iff_eq] at h
  simp [Fmt.isNaN, h.2]

theorem isFinite_of_isZero (h : fmt.isZero x = true) : IsFinite fmt x := by
  simp only [Fmt.isZero, Bool.and_eq_true, beq_iff_eq] at h
  have : fmt.expMax ≠ 0 := by cases fmt <;> decide
  constructor <;> simp [Fmt.isNaN, Fmt.isInf, h.1, this.symm]

/-- What is no NaN is an infinity or finite. -/
theorem isInf_or_isFinite (h : fmt.isNaN x = false) : fmt.isInf x = true ∨ IsFinite fmt x := by
  cases hi : fmt.isInf x
  · exact .inr ⟨h, hi⟩
  · exact .inl rfl

theorem valueOf_isInf (h : fmt.isInf x = true) : valueOf fmt x = .inf (fmt.sign x) := by
  simp only [Fmt.isInf, Bool.and_eq_true, beq_iff_eq] at h
  simp [valueOf, h.1]

/-- A finite pattern has a finite value of its sign, whose significand is zero exactly for the zeros. -/
theorem valueOf_isFinite (h : IsFinite fmt x) :
    ∃ m e, valueOf fmt x = .fin (fmt.sign x) m e ∧ (m = 0 ↔ fmt.isZero x = true) := by
  have h1 : fmt.exp x ≠ fmt.expMax := by
    intro he
    by_cases hf : fmt.frac x = 0 <;> simp [IsFinite, Fmt.isNaN, Fmt.isInf, he, hf] at h
  unfold valueOf
  rw [if_neg h1]
  split_ifs with h0 <;> exact ⟨_, _, rfl, by simp [Fmt.isZero, h0]⟩

/-- The finite value read from a pattern is the value of R13. -/
theorem realValue_of_valueOf {neg : Bool} {m : Nat} {e : Int} (h : valueOf fmt x = .fin neg m e) :
    realValue fmt x = (if neg then -1 else 1) * ((m : ℚ) * 2 ^ e) := by
  unfold valueOf at h
  split_ifs at h with h1 h2 <;> cases h <;> simp only [realValue, h2, if_true, if_false, Fmt.qMin]
  congr 2
  · push_cast
    rfl
  · congr 1
    ring

/-- The exact product of what is no NaN: `none` for `0 × ∞`, an infinity for any other product with one, and a finite value
for finite factors; its sign is the exclusive or of the signs. -/
theorem mulValues_isInf (h : InfiniteProduct fmt a b) :
    mulValues (valueOf fmt a) (valueOf fmt b) = some (.inf (fmt.sign a ^^ fmt.sign b)) := by
  have key : ∀ {u v : XWord}, fmt.isInf u = true → fmt.isNaN v = false → fmt.isZero v = false →
      mulValues (valueOf fmt u) (valueOf fmt v) = some (.inf (fmt.sign u ^^ fmt.sign v)) ∧
      mulValues (valueOf fmt v) (valueOf fmt u) = some (.inf (fmt.sign v ^^ fmt.sign u)) := by
    intro u v hu hv hz
    rcases isInf_or_isFinite hv with h | h
    · simp [valueOf_isInf hu, valueOf_isInf h, mulValues]
    · obtain ⟨m, e, hm, h0⟩ := valueOf_isFinite h
      have : m ≠ 0 := fun hm0 => by simp [h0.1 hm0] at hz
      simp [valueOf_isInf hu, hm, mulValues, this]
  rcases h with ⟨h1, h2, h3⟩ | ⟨h1, h2, h3⟩
  · exact (key h1 h2 h3).1
  · exact (key h1 h2 h3).2

theorem mulValues_invalid (h : InvalidProduct fmt a b) : mulValues (valueOf fmt a) (valueOf fmt b) = none := by
  rcases h with ⟨h1, h2⟩ | ⟨h1, h2⟩
  · obtain ⟨m, e, hm, h0⟩ := valueOf_isFinite (isFinite_of_isZero h1)
    simp [valueOf_isInf h2, hm, h0.2 h1, mulValues]
  · obtain ⟨m, e, hm, h0⟩ := valueOf_isFinite (isFinite_of_isZero h2)
    simp [valueOf_isInf h1, hm, h0.2 h2, mulValues]

/-! ## Patterns on the result port -/

theorem low_pattern_infMag (fmt : Fmt) (neg : Bool) : low fmt.width (fmt.pattern neg fmt.infMag) = signedInfinity fmt neg := by
  cases fmt <;> cases neg <;> decide +kernel

theorem low_pattern_zero (fmt : Fmt) (neg : Bool) : low fmt.width (fmt.pattern neg 0) = signedZero fmt neg := by
  cases fmt <;> cases neg <;> decide +kernel

/-- A pattern of the format fits its width. -/
theorem low_pattern (fmt : Fmt) (neg : Bool) {m : Nat} (h : m < 2 ^ (fmt.width - 1)) :
    low fmt.width (fmt.pattern neg m) = fmt.pattern neg m := by
  have hw : 2 ^ (fmt.width - 1) + 2 ^ (fmt.width - 1) = 2 ^ fmt.width := by cases fmt <;> decide +kernel
  apply low_eq_self _ _ fmt.width_le
  rw [fits_iff_lt _ _ fmt.width_le, fmt.pattern_toNat neg m h]
  split_ifs <;> omega

/-! ## Completion -/

/-- A dispatched command whose contract fixes the result and every flag completes with them. -/
theorem exec_wait_determined {i : Instr} {s : State} {k : Contract} (hl : i.isLocal = false) (hp : s.phase = .wait)
    (h : contractOf i s.a s.b s.c = some k) {p : XWord} (hr : k.res = .bits p) (hm : k.may = 0) :
    exec i s = .next (s.WithResponse (low i.outWidth p) k.must) := by
  obtain ⟨raw, hraw⟩ := exec_wait_contract hl hp h
  rw [hraw, hr, imposeFlags_closed _ _ hm]
  rfl

/-- The class of a pattern is read from the bits of its format. -/
theorem isNaN_low (fmt : Fmt) (x : XWord) : fmt.isNaN (low fmt.width x) = fmt.isNaN x := by
  have hw : fmt.width = fmt.fracWidth + fmt.expWidth + 1 := by cases fmt <;> rfl
  have hm : (low fmt.width x).toNat % 2 ^ (fmt.fracWidth + fmt.expWidth) = x.toNat % 2 ^ (fmt.fracWidth + fmt.expWidth) := by
    rw [low_toNat _ _ fmt.width_le, hw, Nat.pow_succ, Nat.mod_mul_right_mod]
  have he : fmt.exp (low fmt.width x) = fmt.exp x := by
    rw [fmt.exp_eq, fmt.exp_eq, ← Nat.mod_mul_right_div_self, ← Nat.mod_mul_right_div_self, ← Nat.pow_add, hm]
  have hf : fmt.frac (low fmt.width x) = fmt.frac x := by
    rw [fmt.frac_eq, fmt.frac_eq, ← Nat.mod_mul_right_mod _ _ (2 ^ fmt.expWidth), ← Nat.pow_add, hm, Nat.pow_add,
      Nat.mod_mul_right_mod]
  rw [Fmt.isNaN, Fmt.isNaN, he, hf]

/-- A NaN the contract asks for reaches the result port as a NaN. -/
theorem isNaN_low_someNaN (fmt : Fmt) (x : XWord) : fmt.isNaN (low fmt.width (someNaN fmt x)) = true := by
  have hones : ∀ fmt : Fmt, (BitVec.ofNat 128 (fmt.infMag + 1)).extractLsb' fmt.fracWidth fmt.expWidth =
      BitVec.allOnes fmt.expWidth := by
    intro fmt
    cases fmt <;> decide +kernel
  have hone : ∀ fmt : Fmt, (BitVec.ofNat 128 (fmt.infMag + 1)).extractLsb' 0 fmt.fracWidth = 1 := by
    intro fmt
    cases fmt <;> decide +kernel
  unfold someNaN
  split_ifs with h
  · rw [isNaN_low, isNaN_low, h]
  · rw [isNaN_low, isNaN_low, Fmt.isNaN, Fmt.exp, Fmt.frac, BitVec.extractLsb'_or, BitVec.extractLsb'_or, hones, hone,
      BitVec.or_allOnes, BitVec.toNat_allOnes]
    simp [Fmt.expMax, fmt.fracWidth_pos.ne']

/-- The result of `roundTo` has the sign it was given, and its magnitude bits stay within the format. -/
theorem roundTo_pattern (fmt : Fmt) (rm : Rm) (neg : Bool) (x : Magnitude) (hx : x.Positive) :
    ∃ m < 2 ^ (fmt.width - 1), (roundTo fmt rm neg x).pattern = fmt.pattern neg m := by
  obtain ⟨m, r, -, -, -, hp⟩ := roundTo_spec fmt rm neg x hx
  have h1 := fmt.infMag_lt
  refine ⟨_, ?_, hp⟩
  split_ifs with h
  · have : overflowMag fmt rm neg ≤ fmt.infMag := by cases rm <;> cases neg <;> simp [overflowMag]
    omega
  · omega

theorem overflowMag_eq (fmt : Fmt) (rm : Rm) (neg : Bool) : overflowMag fmt rm neg = overflowedMagnitude fmt rm neg := by
  cases rm <;> rfl

/-- A dispatched command whose contract is to round the magnitude `x` once: its result, its flags and the sign. -/
theorem exec_wait_rounded {i : Instr} {s : State} {fmt : Fmt} {rm : Rm} {neg : Bool} {x : Magnitude} (hx : x.Positive)
    (hl : i.isLocal = false) (hp : s.phase = .wait) (hw : i.outWidth = fmt.width)
    (h : contractOf i s.a s.b s.c = some (Contract.rounded fmt rm neg x)) :
    ∃ t, exec i s = .next t ∧ t.status = .ok ∧ t.res = (roundTo fmt rm neg x).pattern ∧ fmt.sign t.res = neg ∧
      OF t.rflags = (roundTo fmt rm neg x).overflow ∧ NX t.rflags = (roundTo fmt rm neg x).inexact ∧
      NV t.rflags = false ∧ DZ t.rflags = false ∧
      (UF t.rflags = true → (roundTo fmt rm neg x).tinyBefore = true) := by
  obtain ⟨raw, hraw⟩ := exec_wait_contract hl hp h
  obtain ⟨m, hm, hpat⟩ := roundTo_pattern fmt rm neg x hx
  have hres : low i.outWidth (imposeResult (Contract.rounded fmt rm neg x).res raw.res) =
      (roundTo fmt rm neg x).pattern := by
    rw [hw, show (Contract.rounded fmt rm neg x).res = .bits (roundTo fmt rm neg x).pattern from rfl, imposeResult_bits, hpat,
      low_pattern fmt neg hm]
  refine ⟨_, hraw, rfl, hres, ?_, ?_⟩
  · rw [State.complete, hres, hpat, fmt.sign_pattern neg m hm]
  · simp only [State.complete, imposeFlags_eq, Contract.rounded]
    generalize raw.flags = fl
    generalize (roundTo fmt rm neg x).inexact = i1
    generalize (roundTo fmt rm neg x).overflow = i2
    generalize (roundTo fmt rm neg x).tinyBefore = i3
    generalize (roundTo fmt rm neg x).tinyAfter = i4
    revert fl
    cases i1 <;> cases i2 <;> cases i3 <;> cases i4 <;> decide

end Sys2Proof.Machine
end

