-- ==== Sys2Proof/Tests/Slice0.lean ====
section
/-! SUPPORT. Tests of the model against words and vectors of the spec, and witnesses for the hypotheses of the
statements. Every expected value is from 30_encoding.md R51 to R62 or from 95_test_vectors.md; the vector is named. -/

-- One test after another: a kernel evaluation per test, side by side, would hold a thread each.
set_option Elab.async false

namespace Sys2Proof.Tests

open Sys2Proof.Machine

/-! ## Words of R51, field by field: rsv, rm, fmt, op -/

theorem test_decode_format_ops :
    decode (0b000000#6 ++ 0b000#3 ++ 0b11#2 ++ 0b00000#5) = .ok (.bits .f128) ∧
    decode (0b000000#6 ++ 0b000#3 ++ 0b10#2 ++ 0b00001#5) = .ok (.classify .f64) := by decide

theorem test_decode_arithmetic :
    decode (0b000000#6 ++ 0b010#3 ++ 0b01#2 ++ 0b00010#5) = .ok (.add .f32 .rdn) ∧
    decode (0b000000#6 ++ 0b011#3 ++ 0b10#2 ++ 0b00011#5) = .ok (.sub .f64 .rup) ∧
    decode (0b000000#6 ++ 0b001#3 ++ 0b00#2 ++ 0b00100#5) = .ok (.mul .f16 .rtz) ∧
    decode (0b000000#6 ++ 0b000#3 ++ 0b01#2 ++ 0b00101#5) = .ok (.div .f32 .rne) ∧
    decode (0b000000#6 ++ 0b100#3 ++ 0b11#2 ++ 0b00110#5) = .ok (.fma .f128 .rmm) ∧
    decode (0b000000#6 ++ 0b011#3 ++ 0b01#2 ++ 0b00111#5) = .ok (.rem .f32 .rup) ∧
    decode (0b000000#6 ++ 0b000#3 ++ 0b10#2 ++ 0b01000#5) = .ok (.sqrt .f64 .rne) ∧
    decode (0b000000#6 ++ 0b100#3 ++ 0b01#2 ++ 0b01001#5) = .ok (.rint .f32 .rmm) := by decide

theorem test_decode_comparisons :
    decode (0b000000#6 ++ 0b111#3 ++ 0b01#2 ++ 0b01010#5) = .ok (.eq .f32) ∧
    decode (0b000000#6 ++ 0b000#3 ++ 0b01#2 ++ 0b01011#5) = .ok (.lt .f32) ∧
    decode (0b000000#6 ++ 0b101#3 ++ 0b00#2 ++ 0b01100#5) = .ok (.le .f16) ∧
    decode (0b000000#6 ++ 0b000#3 ++ 0b10#2 ++ 0b01101#5) = .ok (.ltq .f64) ∧
    decode (0b000000#6 ++ 0b000#3 ++ 0b11#2 ++ 0b01110#5) = .ok (.leq .f128) ∧
    decode (0b000000#6 ++ 0b000#3 ++ 0b01#2 ++ 0b01111#5) = .ok (.cmp .f32) := by decide

theorem test_decode_integer_conversions :
    decode (0b000000#6 ++ 0b001#3 ++ 0b01#2 ++ 0b10000#5) = .ok (.fromU32 .f32 .rtz) ∧
    decode (0b000000#6 ++ 0b000#3 ++ 0b11#2 ++ 0b10001#5) = .ok (.fromU64 .f128 .rne) ∧
    decode (0b000000#6 ++ 0b000#3 ++ 0b01#2 ++ 0b10010#5) = .ok (.fromI32 .f32 .rne) ∧
    decode (0b000000#6 ++ 0b000#3 ++ 0b10#2 ++ 0b10011#5) = .ok (.fromI64 .f64 .rne) ∧
    decode (0b000000#6 ++ 0b001#3 ++ 0b01#2 ++ 0b10100#5) = .ok (.toU32 .f32 .rtz) ∧
    decode (0b000000#6 ++ 0b000#3 ++ 0b10#2 ++ 0b10101#5) = .ok (.toU64 .f64 .rne) ∧
    decode (0b000000#6 ++ 0b010#3 ++ 0b01#2 ++ 0b10110#5) = .ok (.toI32 .f32 .rdn) ∧
    decode (0b000000#6 ++ 0b000#3 ++ 0b01#2 ++ 0b10111#5) = .ok (.toI64 .f32 .rne) := by decide

theorem test_decode_format_conversions :
    decode (0b000000#6 ++ 0b001#3 ++ 0b01#2 ++ 0b11000#5) = .ok (.toF16 .f32 .rtz) ∧
    decode (0b000000#6 ++ 0b000#3 ++ 0b10#2 ++ 0b11001#5) = .ok (.toF32 .f64 .rne) ∧
    decode (0b000000#6 ++ 0b000#3 ++ 0b01#2 ++ 0b11010#5) = .ok (.toF64 .f32 .rne) ∧
    decode (0b000000#6 ++ 0b000#3 ++ 0b01#2 ++ 0b11011#5) = .ok (.toF128 .f32 .rne) := by decide

theorem test_decode_flag_access :
    decode (0b000000#6 ++ 0b000#3 ++ 0b00#2 ++ 0b11100#5) = .ok .rdflags ∧
    decode (0b000000#6 ++ 0b111#3 ++ 0b11#2 ++ 0b11101#5) = .ok .clrflags := by decide

/-- R56, R57, R58: reserved operation codes, each reserved bit, reserved modes; and their order (V105, V106). -/
theorem test_decode_refuses :
    decode (0b000000#6 ++ 0b000#3 ++ 0b01#2 ++ 0b11110#5) = .error .op ∧
    decode (0b000000#6 ++ 0b111#3 ++ 0b01#2 ++ 0b11111#5) = .error .op ∧
    decode (0b000001#6 ++ 0b000#3 ++ 0b01#2 ++ 0b00010#5) = .error .rsvd ∧
    decode (0b100000#6 ++ 0b000#3 ++ 0b01#2 ++ 0b00010#5) = .error .rsvd ∧
    decode (0b111111#6 ++ 0b111#3 ++ 0b11#2 ++ 0b11111#5) = .error .rsvd ∧
    decode (0b000000#6 ++ 0b101#3 ++ 0b01#2 ++ 0b00111#5) = .error .rm ∧
    decode (0b000000#6 ++ 0b111#3 ++ 0b01#2 ++ 0b11001#5) = .error .rm := by decide

/-! ## Well-formedness: one ill-formed term per check (V14, V103, V35) -/

theorem test_wellFormed_first :
    (Command.mk (.bits .f16) 0x00010000 0 0).wellFormed = false ∧
    (Command.mk (.bits .f16) 0xFFFF 0 0).wellFormed = true := by decide

theorem test_wellFormed_second :
    (Command.mk (.add .f32 .rne) 0x3F800000 0x13F800000 0).wellFormed = false ∧
    (Command.mk (.add .f32 .rne) 0x13F800000 0x3F800000 0).wellFormed = false ∧
    (Command.mk (.sqrt .f32 .rne) 0x3F800000 0x13F800000 0).wellFormed = true := by decide

/-- Bit 48 of `C` is checked by `FMA` and ignored by `ADD` (V35); integer operands have their own width (2.10). -/
theorem test_wellFormed_third :
    (Command.mk (.fma .f32 .rne) 0x3F800000 0x3F800000 0x1000000000000).wellFormed = false ∧
    (Command.mk (.add .f32 .rne) 0x3F800000 0x3F800000 0x1000000000000).wellFormed = true ∧
    (Command.mk (.fromU32 .f128 .rne) 0x100000000 0 0).wellFormed = false ∧
    (Command.mk (.fromU64 .f16 .rne) 0x100000000 0 0).wellFormed = true := by decide

/-! ## One step -/

/-- The block idle with `FFLAGS = 0x04` (2.11) and a command offered. -/
def offered (cw : CmdWord) (a b c : XWord) : State :=
  { State.reset with
    fflags := 0x04
    inputs := [{ Inputs.quiet with reqValid := true, reqCw := cw, reqA := a, reqB := b, reqC := c }] }

/-- The block waiting for the units on a command, and the units answering in this step. -/
def answered (cw : CmdWord) (a b c : XWord) : State :=
  { State.reset with cw := cw, a := a, b := b, c := c, phase := .wait, inputs := [{ Inputs.quiet with uDone := true }] }

/-- The block holding a response. -/
def holding (taken : Bool) : State :=
  { State.reset with
    cw := 0x0021, a := 0x7FC00000, res := 1, fflags := 0x04, phase := .done
    inputs := [{ Inputs.quiet with rspReady := taken }] }

def after (o : Host.Outcome State Fault Refusal) : Option State :=
  match o with
  | .next t => some t
  | .fault _ => none
  | .refused _ => none

/-- `(ST, RES, FL)` of the response held after a step. -/
def response (s : State) : Option (BitVec 3 × XWord × FlagBits) := (after (step s)).bind State.response

/-- The response and `FFLAGS` after a step. -/
def responseAndAccumulator (s : State) : Option (Option (BitVec 3 × XWord × FlagBits) × FlagBits) :=
  (after (step s)).map fun t => (t.response, t.fflags)

/-- The request presented by a step. -/
def request (s : State) : Option UnitRequest := (after (step s)).bind State.uReq

-- LOCAL commands

theorem test_bits : response (offered 0x0020 0x7FA00001 0 0) = some (0, 0x7FA00001, 0) := by decide +kernel -- V10

theorem test_bits_wide : responseAndAccumulator (offered 0x0000 0x00010000 0 0) = some (some (4, 0, 0), 0x04) := by
  decide +kernel -- V14

theorem test_class : response (offered 0x0021 0xFF800000 0 0) = some (0, 0xA, 0) := by decide +kernel -- V16

theorem test_class_snan : response (offered 0x0001 0xFC01 0 0) = some (0, 0x9, 0) := by decide +kernel -- V19

theorem test_eq : response (offered 0x002A 0x00000000 0x80000000 0) = some (0, 1, 0) := by decide +kernel -- V61

theorem test_lt_zeros : response (offered 0x002B 0x80000000 0x00000000 0) = some (0, 0, 0) := by decide +kernel -- V69

theorem test_lt_nan : response (offered 0x002B 0x7FC00000 0x3F800000 0) = some (0, 0, 0x10) := by decide +kernel -- V70

theorem test_le : response (offered 0x002C 0x80000000 0x00000000 0) = some (0, 1, 0) := by decide +kernel -- V69

theorem test_le_nan : response (offered 0x002C 0x7FC00000 0x3F800000 0) = some (0, 0, 0x10) := by
  decide +kernel -- R133, example

theorem test_ltq : response (offered 0x002D 0xBF800000 0x3F800000 0) = some (0, 1, 0) := by decide +kernel -- 2.7

theorem test_leq : response (offered 0x002E 0x7F800000 0x7F800000 0) = some (0, 1, 0) := by decide +kernel -- 2.7

theorem test_cmp_greater : response (offered 0x002F 0x76543210 0x12345678 0) = some (0, 2, 0) := by decide +kernel -- V64

theorem test_cmp_infinity :
    response (offered 0x006F 0x7FFF0000000000000000000000000000 0x7FFEFFFFFFFFFFFFFFFFFFFFFFFFFFFF 0) = some (0, 2, 0) := by
  decide +kernel -- 2.7

theorem test_identity : response (offered 0x0039 0x7FA00000 0 0) = some (0, 0x7FA00000, 0) := by decide +kernel -- V80

theorem test_identity_reserved_mode : response (offered 0x02B9 0x3F800001 0 0) = some (3, 0, 0) := by
  decide +kernel -- V81

theorem test_rdflags : responseAndAccumulator (offered 0x03FC (BitVec.allOnes 128) 0 0) = some (some (0, 0x04, 0), 0x04) := by
  decide +kernel -- V108, V111

theorem test_clrflags : responseAndAccumulator (offered 0x001D 0 0 0) = some (some (0, 0, 0), 0) := by
  decide +kernel -- V109

theorem test_clrflags_rejected : responseAndAccumulator (offered 0x041D 0 0 0) = some (some (1, 0, 0), 0x04) := by
  decide +kernel -- V110

-- Requests (2.0)

theorem test_request_add : request (offered 0x0122 0x3F800000 0xBF800000 7) =
    some ⟨0b00001, 2, 1, 2, 0x3F800000, 0xBF800000, 0⟩ := by decide +kernel -- V1

theorem test_request_sub : request (offered 0x01C3 1 2 3) = some ⟨0b00001, 3, 2, 3, 1, 2, 0⟩ := by decide +kernel -- V2

theorem test_request_mul : request (offered 0x0084 1 2 3) = some ⟨0b00010, 4, 0, 1, 1, 2, 0⟩ := by decide +kernel -- V3

theorem test_request_fma : request (offered 0x0266 1 2 3) = some ⟨0b00011, 6, 3, 4, 1, 2, 3⟩ := by decide +kernel -- V4

theorem test_request_div : request (offered 0x0025 1 2 3) = some ⟨0b00100, 5, 1, 0, 1, 2, 0⟩ := by decide +kernel -- V5

theorem test_request_rem : request (offered 0x01A7 1 2 3) = some ⟨0b00100, 7, 1, 3, 1, 2, 0⟩ := by decide +kernel -- V6

theorem test_request_sqrt : request (offered 0x0048 1 2 3) = some ⟨0b01000, 8, 2, 0, 1, 0, 0⟩ := by decide +kernel -- V7

theorem test_request_rint : request (offered 0x0229 1 2 3) = some ⟨0b10000, 9, 1, 4, 1, 0, 0⟩ := by decide +kernel -- V8

theorem test_request_toF16 : request (offered 0x00B8 1 2 3) = some ⟨0b10000, 24, 1, 1, 1, 0, 0⟩ := by decide +kernel -- V9

-- Answers

theorem test_add : response (answered 0x01A2 0x12345678 0x76543210 0) = some (0, 0x76543211, 0x01) := by
  decide +kernel -- V22

theorem test_sub : response (answered 0x0123 0x40400000 0x40400000 0) = some (0, 0x80000000, 0) := by
  decide +kernel -- V26

theorem test_mul : response (answered 0x0024 0x3F800800 0x3F800800 0) = some (0, 0x3F801000, 0x01) := by
  decide +kernel -- V31

theorem test_fma : response (answered 0x0026 0x3F800800 0x3F800800 0xBF801000) = some (0, 0x33800000, 0) := by
  decide +kernel -- V30

theorem test_div : response (answered 0x0025 0x3F800000 0x80000000 0) = some (0, 0xFF800000, 0x08) := by
  decide +kernel -- V40

theorem test_rem : response (answered 0x0127 0x40A00000 0x40400000 0) = some (0, 0xBF800000, 0) := by
  decide +kernel -- V46

/-- `rem(x, ∞) = x` (G7); whether an exact subnormal result raises `UF` is open (N12). -/
theorem test_rem_infinite : remContract .f32 0x80000001 0x7F800000 = ⟨.bits 0x80000001, 0, 0x02⟩ := by decide +kernel

theorem test_sqrt : response (answered 0x01A8 0x40000000 0 0) = some (0, 0x3FB504F4, 0x01) := by decide +kernel -- V52

theorem test_rint : (after (step (answered 0x0229 0x40200000 0 0))).map State.res = some 0x40400000 := by
  decide +kernel -- V59

theorem test_fromU32 : response (answered 0x00B0 0xFFFFFFFF 0 0) = some (0, 0x4F7FFFFF, 0x01) := by
  decide +kernel -- V91

theorem test_fromU64 : response (answered 0x0071 0xFFFFFFFFFFFFFFFF 0 0) =
    some (0, 0x403EFFFFFFFFFFFFFFFE000000000000, 0) := by decide +kernel -- V94

theorem test_fromI32 : response (answered 0x0232 0xFEFFFFFF 0 0) = some (0, 0xCB800001, 0x01) := by
  decide +kernel -- V92

theorem test_fromI64 : response (answered 0x0053 0x8000000000000000 0 0) = some (0, 0xC3E0000000000000, 0) := by
  decide +kernel -- V93

theorem test_toU32 : (after (step (answered 0x00B4 0xBF800000 0 0))).map State.res = some 0 ∧
    (toIntContract .u32 .f32 .rtz 0xBF800000).must = 0x10 := by decide +kernel -- V98

theorem test_toU64 : response (answered 0x0055 0x4000000000000000 0 0) = some (0, 2, 0) := by decide +kernel -- 2.10

theorem test_toI32 : (after (step (answered 0x0136 0xC0200000 0 0))).map State.res = some 0xFFFFFFFD := by
  decide +kernel -- V97

theorem test_toI64 : response (answered 0x0037 0xBF800000 0 0) = some (0, 0xFFFFFFFFFFFFFFFF, 0) := by
  decide +kernel -- 2.10

theorem test_toF16 : response (answered 0x00B8 0x47800000 0 0) = some (0, 0x7BFF, 0x05) := by decide +kernel -- V86

theorem test_toF32 : response (answered 0x0259 0x3FB999999999999A 0 0) = some (0, 0x3DCCCCCD, 0x01) := by
  decide +kernel -- V85

theorem test_toF64 : response (answered 0x003A 0x12345678 0 0) = some (0, 0x3A468ACF00000000, 0) := by
  decide +kernel -- V82

theorem test_toF128 : response (answered 0x003B 0xC0000000 0 0) =
    some (0, 0xC0000000000000000000000000000000, 0) := by decide +kernel -- V88

-- Steps

/-- V124: the bits above the result width are masked, the five flags pass. -/
theorem test_answer_masked :
    ((answered 0x0038 0 0 0).takeAnswer 16 ⟨0xDEADBEEF00007C00, 0x05⟩).response = some (0, 0x7C00, 0x05) := by decide +kernel

/-- V121: acceptance leaves `RES`, `RFLAGS`, `FFLAGS`, `STATUS` alone. -/
theorem test_accept_waits : (after (step (offered 0x0022 0x3F800000 0x3F800000 0))).map
    (fun t => (t.phase, t.cw, t.a, t.b, t.res, t.fflags)) = some (.wait, 0x0022, 0x3F800000, 0x3F800000, 0, 0x04) := by
  decide +kernel

/-- V122, V129: an offer in WAIT is not accepted, an answer in IDLE is ignored. -/
theorem test_out_of_turn :
    step { answered 0x0022 1 2 0 with inputs := [{ Inputs.quiet with reqValid := true, reqCw := 0x001D }] } =
      .next { answered 0x0022 1 2 0 with inputs := [] } ∧
    step { State.reset with inputs := [{ Inputs.quiet with uDone := true }] } = .next State.reset := ⟨rfl, rfl⟩

/-- V125, V126: the response is held until it is taken; the registers keep their values. -/
theorem test_deliver :
    step (holding false) = .next { holding false with inputs := [] } ∧
    step (holding true) = .next { holding true with inputs := [], phase := .idle } := ⟨rfl, rfl⟩

/-- V127: reset abandons the command in flight. -/
theorem test_reset : (after (step { answered 0x0022 1 2 0 with
      fflags := 0x01, inputs := [{ Inputs.quiet with rst := true, uDone := true }] })).map
    (fun t => (t.phase, t.fflags, t.res, t.status)) = some (.idle, 0, 0, .ok) := rfl

/-- V107: a reserved mode is reported before a wide operand. -/
theorem test_reject_order : response (offered 0x02A2 0x100000000 0 0) = some (3, 0, 0) := by decide +kernel

/-- A word placed for the next step is what that step accepts. -/
theorem test_placed : response (State.reset.withFetchWord 16 0x0021) = some (0, 0x4, 0) := by decide +kernel

/-! ## Witnesses: concrete states and operands that meet the hypotheses of a statement, clause by clause -/

theorem witness_DecodeIsTotalAndInOrder :
    (0x0400 : CmdWord).toNat / 2 ^ 10 ≠ 0 ∧
    ((0x001E : CmdWord).toNat / 2 ^ 10 = 0 ∧ 30 ≤ (0x001E : CmdWord).toNat % 2 ^ 5) ∧
    ((0x029B : CmdWord).toNat / 2 ^ 10 = 0 ∧ (0x029B : CmdWord).toNat % 2 ^ 5 < 30 ∧
      tableUsesRm ((0x029B : CmdWord).toNat % 2 ^ 5) = true ∧ 5 ≤ (0x029B : CmdWord).toNat / 2 ^ 7 % 2 ^ 3) ∧
    ((0x021B : CmdWord).toNat / 2 ^ 10 = 0 ∧ (0x021B : CmdWord).toNat % 2 ^ 5 < 30 ∧
      tableUsesRm ((0x021B : CmdWord).toNat % 2 ^ 5) = true ∧ (0x021B : CmdWord).toNat / 2 ^ 7 % 2 ^ 3 < 5) := by decide

theorem witness_UnusedFieldsAndPortsAreIgnored :
    ((0x03AA : CmdWord) ≠ 0x002A ∧ (0x03AA : CmdWord).toNat % 2 ^ 5 = (0x002A : CmdWord).toNat % 2 ^ 5 ∧
      (0x03AA : CmdWord).toNat / 2 ^ 10 = (0x002A : CmdWord).toNat / 2 ^ 10 ∧
      (0x03AA : CmdWord).toNat / 2 ^ 5 % 2 ^ 2 = (0x002A : CmdWord).toNat / 2 ^ 5 % 2 ^ 2 ∧
      tableUsesRm ((0x03AA : CmdWord).toNat % 2 ^ 5) = false) ∧
    (Instr.eq .f32).arity < 3 ∧ (Instr.sqrt .f32 .rne).arity < 2 ∧ Instr.rdflags.arity < 1 := by decide

theorem witness_AcceptRunsTheDecodedCommand :
    (offered 0x0022 1 2 3).Accepting ∧ decode (offered 0x0022 1 2 3).sampled.reqCw = .ok (.add .f32 .rne) :=
  ⟨⟨rfl, rfl, rfl⟩, by decide⟩

theorem witness_AnswerRunsTheLatchedCommand :
    (answered 0x0022 1 2 3).phase = .wait ∧ (answered 0x0022 1 2 3).sampled.rst = false ∧
      decode (answered 0x0022 1 2 3).cw = .ok (.add .f32 .rne) := ⟨rfl, rfl, by decide⟩

/-- One offer per code: V100, V101, V102, V103. -/
theorem witness_RejectionReportsFirstFailureOnly :
    (offered 0x0422 0x3F800000 0x3F800000 0).Accepting ∧
    firstFailure 0x0422 0x3F800000 0x3F800000 0 = some .rsvd ∧
    firstFailure 0x003E 0 0 0 = some .op ∧
    firstFailure 0x02A2 0x3F800000 0x3F800000 0 = some .rm ∧
    firstFailure 0x0022 0x100000000 0x3F800000 0 = some .width := ⟨⟨rfl, rfl, rfl⟩, by decide⟩

theorem witness_ValidCommandsAreNeverRejected :
    (offered 0x0022 0xFFFFFFFF 0xFFFFFFFF 0).Accepting ∧ firstFailure 0x0022 0xFFFFFFFF 0xFFFFFFFF 0 = none ∧
    (offered 0x0021 0xFFFFFFFF 0 0).Accepting ∧ firstFailure 0x0021 0xFFFFFFFF 0 0 = none :=
  ⟨⟨rfl, rfl, rfl⟩, by decide, ⟨rfl, rfl, rfl⟩, by decide⟩

theorem witness_DeliveryFreesTheBlock :
    (holding true).phase = .done ∧ (holding true).sampled.rst = false ∧ (holding true).sampled.rspReady = true ∧
    (holding false).sampled.rspReady = false := ⟨rfl, rfl, rfl, rfl⟩

theorem witness_ResetWinsInEveryPhase :
    State.sampled { answered 0x0022 1 2 3 with inputs := [{ Inputs.quiet with rst := true, uDone := true }] } |>.rst :=
  rfl

theorem witness_IdleWithoutOfferHoldsEverything :
    State.reset.phase = .idle ∧ State.reset.sampled.rst = false ∧ State.reset.sampled.reqValid = false := ⟨rfl, rfl, rfl⟩

/-! Sound states of each phase, and steps from them. -/

theorem sound_offered (cw : CmdWord) (a b c : XWord) : (offered cw a b c).Sound where
  wait := fun h => nomatch h
  verdict := fun h => nomatch h
  result := fun h => nomatch h
  empty := fun h => nomatch h
  request := fun _ h => nomatch h

theorem sound_answered : (answered 0x0022 0x3F800000 0x3F800000 0).Sound where
  wait := fun _ => ⟨by decide, .add .f32 .rne, by decide, rfl⟩
  verdict := fun h => nomatch h
  result := fun h => nomatch h
  empty := fun h => nomatch h
  request := fun _ h => nomatch h

theorem sound_holding (taken : Bool) : (holding taken).Sound where
  wait := fun h => nomatch h
  verdict := fun _ => by cases taken <;> decide
  result := fun _ _ => ⟨.classify .f32, by cases taken <;> decide, by cases taken <;> decide⟩
  empty := fun _ h => absurd rfl h
  request := fun _ h => nomatch h

/-- A step from a sound state of each phase: a rejection, a LOCAL completion, a dispatch, an answer, a delivery; and one
that holds, in DONE. -/
theorem witness_TransitionTableIsComplete :
    ((offered 0x0422 0 0 0).Sound ∧ (offered 0x0422 0 0 0).sampled.rst = false ∧
      ∃ t, step (offered 0x0422 0 0 0) = .next t ∧ t.phase = .done) ∧
    ((offered 0x0021 0 0 0).Sound ∧ ∃ t, step (offered 0x0021 0 0 0) = .next t ∧ t.phase = .done) ∧
    ((offered 0x0022 0 0 0).Sound ∧ ∃ t, step (offered 0x0022 0 0 0) = .next t ∧ t.phase = .wait) ∧
    ((answered 0x0022 0x3F800000 0x3F800000 0).Sound ∧
      ∃ t, step (answered 0x0022 0x3F800000 0x3F800000 0) = .next t ∧ t.phase = .done) ∧
    ((holding true).Sound ∧ ∃ t, step (holding true) = .next t ∧ t.phase = .idle) ∧
    ((holding false).Sound ∧ (holding false).sampled.rspReady = false ∧ ∃ t, step (holding false) = .next t ∧ t.phase = .done) :=
  ⟨⟨sound_offered _ _ _ _, rfl, _, rfl, rfl⟩, ⟨sound_offered _ _ _ _, _, rfl, rfl⟩, ⟨sound_offered _ _ _ _, _, rfl, rfl⟩,
    ⟨sound_answered, _, rfl, rfl⟩, ⟨sound_holding true, _, rfl, rfl⟩, ⟨sound_holding false, rfl, _, rfl, rfl⟩⟩

theorem witness_RequestRoutesTheCommandUnchanged :
    (offered 0x0266 1 2 3).Accepting ∧ decode (offered 0x0266 1 2 3).sampled.reqCw = .ok (.fma .f128 .rmm) ∧
    (Instr.fma .f128 .rmm).isLocal = false ∧ (Instr.fma .f128 .rmm).operandsFit 1 2 3 = true :=
  ⟨⟨rfl, rfl, rfl⟩, by decide, rfl, by decide⟩

/-- A sound state that no run from reset reaches, and its step. -/
theorem witness_ReachableStatesAreSound :
    ∃ t, (answered 0x0022 0x3F800000 0x3F800000 0).Sound ∧
      step (answered 0x0022 0x3F800000 0x3F800000 0) = .next t ∧ t.phase = .done :=
  ⟨_, sound_answered, rfl, rfl⟩

/-- A completion, a delivery and a rejection with `FFLAGS = 0x04`. -/
theorem witness_FlagsAreStickyUntilCleared :
    (∃ t, step (offered 0x0021 0 0 0) = .next t ∧ (offered 0x0021 0 0 0).sampled.rst = false ∧
      decode (offered 0x0021 0 0 0).sampled.reqCw ≠ .ok .clrflags ∧ (offered 0x0021 0 0 0).fflags = 0x04) ∧
    (∃ t, step (holding true) = .next t ∧ (holding true).phase = .done) ∧
    (∃ t, step (offered 0x041D 0 0 0) = .next t ∧ t.status = .rejected .rsvd ∧
      decode (offered 0x041D 0 0 0).sampled.reqCw ≠ .ok .clrflags) :=
  ⟨⟨_, rfl, rfl, by decide, rfl⟩, ⟨_, rfl, rfl⟩, ⟨_, rfl, rfl, by decide⟩⟩

theorem witness_AccumulatorNeverInfluencesACommand : Instr.clrflags ≠ .rdflags ∧ Instr.add .f32 .rne ≠ .rdflags := by
  decide

/-- Two blocks that remember different things and are offered one command; two that hold one command at the units. -/
theorem witness_ResponseDependsOnTheCommandAlone :
    ((offered 0x0021 0 0 0).Accepting ∧ State.Accepting { offered 0x0021 0 0 0 with res := 5, fflags := 1 } ∧
      (offered 0x0021 0 0 0).sampled = State.sampled { offered 0x0021 0 0 0 with res := 5, fflags := 1 } ∧
      decode (offered 0x0021 0 0 0).sampled.reqCw ≠ .ok .rdflags ∧ ∃ t, step (offered 0x0021 0 0 0) = .next t) ∧
    ((answered 0x0022 0x3F800000 0x3F800000 0).Sound ∧
      ∃ t, step (answered 0x0022 0x3F800000 0x3F800000 0) = .next t ∧ t.response.isSome = true) :=
  ⟨⟨⟨rfl, rfl, rfl⟩, ⟨rfl, rfl, rfl⟩, rfl, by decide, _, rfl⟩, ⟨sound_answered, _, rfl, rfl⟩⟩

theorem witness_CommandsCompleteInBoundedSteps :
    validate 0x0422 0 0 0 ≠ .ok ∧ (validate 0x0021 0 0 0 = .ok ∧ decode 0x0021 = .ok (.classify .f32)) ∧
    (validate 0x0022 0 0 0 = .ok ∧ decode 0x0022 = .ok (.add .f32 .rne) ∧ (Instr.add .f32 .rne).isLocal = false) := by
  decide

theorem witness_ComparisonOrderIsTheOrderOfValues : IsFinite .f32 0x80000000 ∧ IsFinite .f32 0x7F7FFFFF ∧
    Fmt.f32.isInf 0x7F800000 = true ∧ Fmt.f32.sign 0x7F800000 = false ∧
    Fmt.f32.isInf 0xFF800000 = true ∧ Fmt.f32.sign 0xFF800000 = true :=
  ⟨⟨by decide, by decide⟩, ⟨by decide, by decide⟩, by decide, by decide, by decide, by decide⟩

/-- An idle block with operands at hand, as a meaning finds them. -/
def latched (a b c : XWord) : State := { State.reset with a := a, b := b, c := c }

/-- A block at the units with operands at hand. -/
def waiting (a b c : XWord) : State := { latched a b c with phase := .wait }

theorem witness_BitsReturnsThePattern :
    (latched 0xFFFF 0 0).phase = .idle ∧ (latched 0xFFFF 0 0).a.toNat < 2 ^ Fmt.f16.width ∧
    2 ^ Fmt.f16.width ≤ (latched 0x10000 0 0).a.toNat := ⟨rfl, by decide, by decide⟩

theorem witness_ClassFollowsTheTable :
    (latched 0xFFFFFFFF 0 0).phase = .idle ∧ (latched 0xFFFFFFFF 0 0).a.toNat < 2 ^ Fmt.f32.width ∧
    2 ^ Fmt.f32.width ≤ (latched 0x100000000 0 0).a.toNat := ⟨rfl, by decide, by decide⟩

theorem two_fit : (latched 0xFFFFFFFF 0xFFFFFFFF 0).TwoFit .f32 ∧ ¬ (latched 0xFFFFFFFF 0x100000000 0).TwoFit .f32 ∧
    ¬ (latched 0x100000000 0xFFFFFFFF 0).TwoFit .f32 := by
  unfold State.TwoFit
  decide

theorem witness_EqComparesAndSignals : (latched 0xFFFFFFFF 0xFFFFFFFF 0).phase = .idle ∧
    (latched 0xFFFFFFFF 0xFFFFFFFF 0).TwoFit .f32 ∧ ¬ (latched 0xFFFFFFFF 0x100000000 0).TwoFit .f32 :=
  ⟨rfl, two_fit.1, two_fit.2.1⟩

theorem witness_SignalingOrderPredicates : (latched 0xFFFFFFFF 0xFFFFFFFF 0).phase = .idle ∧
    (latched 0xFFFFFFFF 0xFFFFFFFF 0).TwoFit .f32 ∧ ¬ (latched 0x100000000 0xFFFFFFFF 0).TwoFit .f32 :=
  ⟨rfl, two_fit.1, two_fit.2.2⟩

theorem witness_QuietOrderPredicates : (latched 0xFFFFFFFF 0xFFFFFFFF 0).phase = .idle ∧
    (latched 0xFFFFFFFF 0xFFFFFFFF 0).TwoFit .f32 ∧ ¬ (latched 0xFFFFFFFF 0x100000000 0).TwoFit .f32 :=
  ⟨rfl, two_fit.1, two_fit.2.1⟩

theorem witness_CmpReturnsTheFourWayResult : (latched 0xFFFFFFFF 0xFFFFFFFF 0).phase = .idle ∧
    (latched 0xFFFFFFFF 0xFFFFFFFF 0).TwoFit .f32 ∧ ¬ (latched 0x100000000 0xFFFFFFFF 0).TwoFit .f32 :=
  ⟨rfl, two_fit.1, two_fit.2.2⟩

/-- With and without a NaN operand. -/
theorem witness_ComparisonResultsAgree :
    (latched 0xFFFFFFFF 0xFFFFFFFF 0).phase = .idle ∧ (latched 0xFFFFFFFF 0xFFFFFFFF 0).TwoFit .f32 ∧
    Fmt.f32.isNaN 0xFFFFFFFF = true ∧ (latched 0 0x80000000 0).TwoFit .f32 ∧
    { latched 0xFFFFFFFF 0xFFFFFFFF 0 with cw := 0x002F, fflags := 0x1F } ≠ latched 0xFFFFFFFF 0xFFFFFFFF 0 ∧
    { latched 0xFFFFFFFF 0xFFFFFFFF 0 with cw := 0x002F, fflags := 0x1F }.phase = .idle ∧
    Instr.cmp .f32 ∈ [Instr.eq .f32, .lt .f32, .le .f32, .ltq .f32, .leq .f32, .cmp .f32] :=
  ⟨rfl, two_fit.1, by decide, by unfold State.TwoFit; decide, by decide, rfl, by simp⟩

theorem witness_RdflagsReadsTheAccumulator : (latched 0 0 0).phase = .idle := rfl

/-- An idle block, and a rejected `CLRFLAGS` (V110). -/
theorem witness_ClrflagsClearsTheAccumulator :
    (latched 0 0 0).phase = .idle ∧ (offered 0x041D 0 0 0).Accepting ∧
    (offered 0x041D 0 0 0).sampled.reqCw.toNat % 2 ^ 5 = 29 ∧ (offered 0x041D 0 0 0).sampled.reqCw.toNat / 2 ^ 10 ≠ 0 ∧
    ∃ t, step (offered 0x041D 0 0 0) = .next t := ⟨rfl, ⟨rfl, rfl, rfl⟩, by decide, by decide, _, rfl⟩

/-- The three premises of `RunsAs`: operands at their last value, an operand one above, a block at the units. -/
theorem witness_ArithmeticIsDelegatedUnchanged :
    ((latched 0xFFFF 0xFFFF 0).phase = .idle ∧ ∀ x ∈ [(0xFFFF : XWord), 0xFFFF], x.toNat < 2 ^ Fmt.f16.width) ∧
    (∃ x ∈ [(0xFFFF : XWord), 0x10000], 2 ^ Fmt.f16.width ≤ x.toNat) ∧ (waiting 1 2 3).phase = .wait :=
  ⟨⟨rfl, List.forall_mem_cons.2 ⟨by decide, List.forall_mem_singleton.2 (by decide)⟩⟩, ⟨0x10000, by decide, by decide⟩, rfl⟩

theorem witness_IntegerConversionsAreDelegatedUnchanged :
    ((latched 0xFFFFFFFF 0 0).phase = .idle ∧ ∀ x ∈ [(0xFFFFFFFF : XWord)], x.toNat < 2 ^ 32) ∧
    (∃ x ∈ [(0x100000000 : XWord)], 2 ^ 32 ≤ x.toNat) ∧ (waiting 1 2 3).phase = .wait :=
  ⟨⟨rfl, List.forall_mem_singleton.2 (by decide)⟩, ⟨0x100000000, by decide, by decide⟩, rfl⟩

theorem witness_FormatConversionsAreIdentityOrDelegated :
    Fmt.f32 ≠ .f64 ∧ (latched 0xFFFFFFFF 0 0).phase = .idle ∧ (0xFFFFFFFF : XWord).toNat < 2 ^ Fmt.f32.width ∧
    2 ^ Fmt.f32.width ≤ (0x100000000 : XWord).toNat ∧ (waiting 1 2 3).phase = .wait :=
  ⟨by decide, rfl, by decide, by decide, rfl⟩

theorem witness_CompletionMasksAnyAnswer : 16 ≤ 128 ∧ 0 ≤ 128 ∧ 128 ≤ 128 := by decide

theorem witness_UnitsMeetTheContract :
    (Instr.add .f32 .rne).isLocal = false ∧ ∃ k, contractOf (.add .f32 .rne) 1 2 3 = some k := ⟨rfl, _, rfl⟩

/-- An answer that meets a contract, a NaN among the operands included. -/
theorem witness_ImposingAddsNothingToTheContract :
    (∃ k, contractOf (.add .f32 .rne) 0x7FC00000 0 0 = some k ∧
      ∃ fl, k.Meets (Instr.add .f32 .rne).outWidth ⟨0x7FC00001, fl⟩) ∧
    (∃ k, contractOf (.mul .f32 .rne) 0x40000000 0x40400000 0 = some k ∧
      k.Meets (Instr.mul .f32 .rne).outWidth ⟨0x40C00000, 0⟩) := by
  have hmay : (addContract .f32 .rne 0x7FC00000 0).may = 0 := by decide +kernel
  refine ⟨⟨addContract .f32 .rne 0x7FC00000 0, rfl, (addContract .f32 .rne 0x7FC00000 0).must, ?_, ?_⟩,
    ⟨mulContract .f32 .rne 0x40000000 0x40400000, rfl, ?_⟩⟩
  · exact show Fmt.f32.isNaN (low 32 0x7FC00001) = true from by decide
  · rw [hmay]
    simp
  · rw [show mulContract .f32 .rne 0x40000000 0x40400000 = Contract.exactly 0x40C00000 from by decide +kernel]
    exact ⟨rfl, rfl⟩

/-- A quiet or signaling NaN in each place. -/
theorem witness_ArithmeticPropagatesNaNs :
    Instr.add .f32 .rne ∈ arithmeticOps .f32 .rne ∧ (waiting 0x3F800000 0x7FC00000 0).phase = .wait ∧
    (∃ x ∈ (waiting 0x3F800000 0x7FC00000 0).usedOperands (.add .f32 .rne), Fmt.f32.isNaN x = true) ∧
    ((∃ x ∈ (waiting 0x3F800000 0x7FC00000 0).usedOperands (.add .f32 .rne), Fmt.f32.isSNaN x = true) ∨
     (∀ x ∈ (waiting 0x3F800000 0x7FC00000 0).usedOperands (.add .f32 .rne), Fmt.f32.isSNaN x = false) ∧
      ¬ (Instr.add .f32 .rne = .fma .f32 .rne) ∧ ¬ (Instr.add .f32 .rne = .rem .f32 .rne)) := by
  refine ⟨by decide, rfl, ⟨0x7FC00000, by decide, by decide⟩, ?_⟩
  by_cases h : ∃ x ∈ (waiting 0x3F800000 0x7FC00000 0).usedOperands (.add .f32 .rne), Fmt.f32.isSNaN x = true
  · exact .inl h
  · refine .inr ⟨fun x hx => ?_, by decide, by decide⟩
    by_contra hc
    exact h ⟨x, hx, by simpa using hc⟩

/-- One pair or triple of operands per listed case. -/
theorem witness_ListedInvalidOperations :
    (Fmt.f32.isZero 0 = true ∧ Fmt.f32.isZero 0x80000000 = true) ∧
    (Fmt.f32.isInf 0x7F800000 = true ∧ Fmt.f32.isInf 0xFF800000 = true ∧
      Fmt.f32.sign 0x7F800000 ≠ Fmt.f32.sign 0xFF800000) ∧
    (InfiniteProduct .f32 0x7F800000 0x3F800000 ∧ InfiniteProduct .f32 0x3F800000 0x7F800000 ∧
      (Fmt.f32.sign 0x3F800000 ^^ Fmt.f32.sign 0x7F800000) ≠ Fmt.f32.sign 0xFF800000) ∧
    (Fmt.f32.sign 0x80000001 = true ∧ IsFinite .f32 0x80000001 ∧ Fmt.f32.isZero 0x80000001 = false) :=
  ⟨by decide, by decide, ⟨.inl (by decide), .inr (by decide), by decide⟩, by decide, ⟨by decide, by decide⟩, by decide⟩

theorem witness_CancellingSumsAreSignedZeros :
    (waiting 0x3F800000 0xBF800000 0).phase = .wait ∧ IsFinite .f32 0x3F800000 ∧ IsFinite .f32 0xBF800000 ∧
    Fmt.f32.mag 0x3F800000 = Fmt.f32.mag 0xBF800000 ∧ Fmt.f32.sign 0x3F800000 ≠ Fmt.f32.sign 0xBF800000 ∧
    IsFinite .f32 0x80000000 ∧ Fmt.f32.isZero 0x80000000 = true ∧ IsFinite .f32 0 ∧
    Fmt.f32.mag 0x80000000 = Fmt.f32.mag 0 ∧ Fmt.f32.sign 0x80000000 ≠ Fmt.f32.sign 0 :=
  ⟨rfl, ⟨by decide, by decide⟩, ⟨by decide, by decide⟩, by decide, by decide, ⟨by decide, by decide⟩, by decide,
    ⟨by decide, by decide⟩, by decide, by decide⟩

theorem witness_SqrtOfZeroIsThatZero :
    (waiting 0x80000000 0 0).phase = .wait ∧ Fmt.f32.isZero 0x80000000 = true ∧ Fmt.f32.isZero 0 = true :=
  ⟨rfl, by decide, by decide⟩

/-- The smallest divisor; and -6 by 3, whose remainder is -0. -/
theorem witness_RemainderIgnoresTheModeAndIsExact :
    (waiting 0x40A00000 0x00000001 0).phase = .wait ∧ IsFinite .f32 0x40A00000 ∧ IsFinite .f32 0x00000001 ∧
    Fmt.f32.isZero 0x00000001 = false ∧ IsFinite .f32 0xC0C00000 ∧ IsFinite .f32 0x40400000 ∧
    (after (exec (.rem .f32 .rne) (waiting 0xC0C00000 0x40400000 0))).map State.res = some 0x80000000 :=
  ⟨rfl, ⟨by decide, by decide⟩, ⟨by decide, by decide⟩, by decide, ⟨by decide, by decide⟩, ⟨by decide, by decide⟩,
    by decide +kernel⟩

/-- The largest finite value in both places: its sum overflows, its difference is zero. -/
theorem witness_ArithmeticIsCorrectlyRounded :
    Instr.add .f32 .rne ∈ arithmeticOps .f32 .rne ∧ (waiting 0x7F7FFFFF 0x7F7FFFFF 0).phase = .wait ∧
    (∀ y ∈ (waiting 0x7F7FFFFF 0x7F7FFFFF 0).usedOperands (.add .f32 .rne), IsFinite .f32 y) ∧
    ∃ x, exactResult (.add .f32 .rne) .f32 (waiting 0x7F7FFFFF 0x7F7FFFFF 0) = some x := by
  refine ⟨by decide, rfl, ?_, _, rfl⟩
  exact List.forall_mem_cons.2 ⟨⟨by decide, by decide⟩, List.forall_mem_singleton.2 ⟨by decide, by decide⟩⟩

/-- An addition that overflows (V71 for the product). -/
theorem witness_OverflowResultFollowsTheMode :
    Instr.mul .f32 .rne ∈ arithmeticOps .f32 .rne ∧
    (∀ y ∈ (waiting 0x7F7FFFFF 0x40000000 0).usedOperands (.mul .f32 .rne), IsFinite .f32 y) ∧
    (∃ x, exactResult (.mul .f32 .rne) .f32 (waiting 0x7F7FFFFF 0x40000000 0) = some x) ∧
    (after (exec (.mul .f32 .rne) (waiting 0x7F7FFFFF 0x40000000 0))).map (fun t => OF t.rflags) = some true := by
  refine ⟨by decide, ?_, ⟨_, rfl⟩, by decide +kernel⟩
  exact List.forall_mem_cons.2 ⟨⟨by decide, by decide⟩, List.forall_mem_singleton.2 ⟨by decide, by decide⟩⟩

theorem witness_RintRoundsToAnIntegralValue :
    (waiting 0x40200000 0 0).phase = .wait ∧ IsFinite .f32 0x40200000 := ⟨rfl, by decide, by decide⟩

/-- Zero, the last integer that fits the significand of `F32`, and 2^16, which overflows `F16`. -/
theorem witness_IntegersConvertCorrectlyRounded :
    (waiting 0 0 0).phase = .wait ∧ intValue .i32 0 = 0 ∧
    (intValue .u32 0xFFFFFF).natAbs < 2 ^ (Fmt.f32.fracWidth + 1) ∧ intValue .i32 0xFF000001 = -0xFFFFFF ∧
    (2 : ℚ) ^ (Fmt.f16.bias + 1) ≤ |(intValue .u32 0x10000 : ℚ)| ∧
    (after (exec (.fromU32 .f16 .rtz) (waiting 0x10000 0 0))).map (fun t => OF t.rflags) = some true :=
  ⟨rfl, by decide, by decide, by decide,
    by rw [show intValue .u32 0x10000 = 65536 from by decide, show Fmt.f16.bias = 15 from rfl]; norm_num, by decide +kernel⟩

/-! Values of `F64` at the ends of the range of `u32` and one outside, and `2.5` (the third neighbour is not an integer). -/

theorem roundsToInt_self (rm : Rm) (j : Int) : RoundsToInt rm j j := by
  cases rm <;> simp only [RoundsToInt, sub_self, abs_zero, le_refl, true_and, abs_nonneg]
  · exact fun i h hne => absurd (by exact_mod_cast (abs_eq_zero.1 h.symm : (i : ℚ) - j = 0)) (fun h => hne (by omega))
  · exact fun _ _ => trivial
  · exact fun i h => by exact_mod_cast h
  · exact fun i h => by exact_mod_cast h
  · intro i h
    have : (i : ℚ) - j = 0 := abs_eq_zero.1 h.symm
    rw [show i = j by exact_mod_cast sub_eq_zero.1 this]

theorem value_max : realValue .f64 0x41EFFFFFFFE00000 = (4294967295 : Int) := by
  have h : Fmt.f64.exp 0x41EFFFFFFFE00000 = 1054 ∧ Fmt.f64.frac 0x41EFFFFFFFE00000 = 4503599625273344 ∧
    Fmt.f64.sign 0x41EFFFFFFFE00000 = false := by decide
  rw [realValue, h.1, h.2.1, h.2.2]
  norm_num [Fmt.bias, Fmt.expWidth, Fmt.fracWidth, zpow_neg]

theorem value_above : realValue .f64 0x41F0000000000000 = (4294967296 : Int) := by
  have h : Fmt.f64.exp 0x41F0000000000000 = 1055 ∧ Fmt.f64.frac 0x41F0000000000000 = 0 ∧
    Fmt.f64.sign 0x41F0000000000000 = false := by decide
  rw [realValue, h.1, h.2.1, h.2.2]
  norm_num [Fmt.bias, Fmt.expWidth, Fmt.fracWidth, zpow_neg]

theorem value_below : realValue .f64 0xBFF0000000000000 = (-1 : Int) := by
  have h : Fmt.f64.exp 0xBFF0000000000000 = 1023 ∧ Fmt.f64.frac 0xBFF0000000000000 = 0 ∧
    Fmt.f64.sign 0xBFF0000000000000 = true := by decide
  rw [realValue, h.1, h.2.1, h.2.2]
  norm_num [Fmt.bias, Fmt.expWidth, Fmt.fracWidth, zpow_neg]

theorem value_zero : realValue .f64 0x8000000000000000 = (0 : Int) := by
  have h : Fmt.f64.exp 0x8000000000000000 = 0 ∧ Fmt.f64.frac 0x8000000000000000 = 0 := by decide
  rw [realValue, h.1, h.2]
  simp

theorem witness_InRangeConversionsToIntegers :
    ((waiting 0x41EFFFFFFFE00000 0 0).phase = .wait ∧ IsFinite .f64 0x41EFFFFFFFE00000 ∧
      RoundsToInt .rne (realValue .f64 0x41EFFFFFFFE00000) 4294967295 ∧ 4294967295 ≤ hiValue .u32) ∧
    (IsFinite .f64 0x8000000000000000 ∧ RoundsToInt .rne (realValue .f64 0x8000000000000000) 0 ∧ loValue .u32 ≤ 0) :=
  ⟨⟨rfl, ⟨by decide, by decide⟩, value_max ▸ roundsToInt_self _ _, by decide⟩,
    ⟨⟨by decide, by decide⟩, value_zero ▸ roundsToInt_self _ _, by decide⟩⟩

theorem witness_OutOfRangeConversionsSaturate :
    (waiting 0 0 0).phase = .wait ∧ Fmt.f64.isNaN 0x7FF8000000000000 = true ∧ Fmt.f64.isInf 0xFFF0000000000000 = true ∧
    (IsFinite .f64 0x41F0000000000000 ∧ RoundsToInt .rtz (realValue .f64 0x41F0000000000000) 4294967296 ∧
      hiValue .u32 < 4294967296) ∧
    (IsFinite .f64 0xBFF0000000000000 ∧ RoundsToInt .rtz (realValue .f64 0xBFF0000000000000) (-1) ∧
      -1 < loValue .u32) :=
  ⟨rfl, by decide, by decide, ⟨⟨by decide, by decide⟩, value_above ▸ roundsToInt_self _ _, by decide⟩,
    ⟨⟨by decide, by decide⟩, value_below ▸ roundsToInt_self _ _, by decide⟩⟩

/-- A NaN, an infinity, a finite value that overflows the destination (V86), and 2^-26, which underflows it. -/
theorem witness_FormatConversionsRoundOnce :
    Fmt.f16 ≠ .f32 ∧ (waiting 0x47800000 0 0).phase = .wait ∧ Fmt.f32.isNaN 0x7FC00000 = true ∧
    Fmt.f32.isInf 0xFF800000 = true ∧ IsFinite .f32 0x47800000 ∧
    (after (exec (.toF16 .f32 .rtz) (waiting 0x47800000 0 0))).map (fun t => OF t.rflags) = some true ∧
    IsFinite .f32 0x32800000 ∧
    (after (exec (.toF16 .f32 .rtz) (waiting 0x32800000 0 0))).map (fun t => UF t.rflags) = some true :=
  ⟨by decide, rfl, by decide, by decide, ⟨by decide, by decide⟩, by decide +kernel, ⟨by decide, by decide⟩,
    by decide +kernel⟩

theorem witness_WideningIsExact :
    Fmt.f16.width < Fmt.f32.width ∧ (waiting 0x0001 0 0).phase = .wait ∧ IsFinite .f16 0x0001 :=
  ⟨by decide, rfl, by decide, by decide⟩

theorem witness_WideningRoundTripReproduces :
    (waiting 0xFF800000 0 0).phase = .wait ∧ (waiting 0xFF800000 0 0).a.toNat < 2 ^ 32 ∧
    Fmt.f32.isNaN 0xFF800000 = false := ⟨rfl, by decide, by decide⟩

/-- Infinities beside a finite operand, beside each other, and as a factor. -/
theorem witness_InfiniteSumsAndProducts :
    (waiting 0x7F800000 0xFF800000 0).phase = .wait ∧ Fmt.f32.isInf 0x7F800000 = true ∧ Fmt.f32.isInf 0xFF800000 = true ∧
    Fmt.f32.sign 0x7F800000 ≠ Fmt.f32.sign 0xFF800000 ∧ IsFinite .f32 0x80000000 ∧ IsFinite .f32 0x7F7FFFFF ∧
    InfiniteProduct .f32 0x7F800000 0x00000001 ∧ InfiniteProduct .f32 0x7F800000 0xFF800000 ∧
    (Fmt.f32.sign 0x7F800000 ^^ Fmt.f32.sign 0x00000001) = Fmt.f32.sign 0x7F800000 :=
  ⟨rfl, by decide, by decide, by decide, ⟨by decide, by decide⟩, ⟨by decide, by decide⟩, .inl (by decide), .inl (by decide),
    by decide⟩

/-- An infinity of each sign, and the smallest subnormal, whose remainder by an infinity leaves `UF` open. -/
theorem witness_InfiniteQuotientsRemaindersAndRoots :
    (waiting 0x00000001 0x7F800000 0).phase = .wait ∧ Fmt.f32.isInf 0x7F800000 = true ∧ Fmt.f32.sign 0x7F800000 = false ∧
    IsFinite .f32 0x00000001 ∧ Fmt.f32.isSub 0x00000001 = true ∧ IsFinite .f32 0x3F800000 ∧
    Fmt.f32.isSub 0x3F800000 = false :=
  ⟨rfl, by decide, by decide, ⟨by decide, by decide⟩, by decide, ⟨by decide, by decide⟩, by decide⟩

/-- Zeros of both signs, a divisor, and a nonzero exact result. -/
theorem witness_ResultsHaveTheSignOfTheExactValue :
    (waiting 0 0x80000000 0x80000000).phase = .wait ∧ IsFinite .f32 0 ∧ IsFinite .f32 0x80000000 ∧
    Fmt.f32.isZero 0x00000001 = false ∧ realValue .f32 0 * realValue .f32 0x80000000 + realValue .f32 0x80000000 = 0 ∧
    Instr.sqrt .f32 .rne ∈ arithmeticOps .f32 .rne ∧
    ∃ x, exactResult (.sqrt .f32 .rne) .f32 (waiting 0x3F800000 0 0) = some x ∧ x ≠ 0 := by
  have h0 : realValue .f32 0 = 0 := by
    rw [realValue, show Fmt.f32.exp 0 = 0 from by decide, show Fmt.f32.frac 0 = 0 from by decide]; simp
  have h1 : realValue .f32 0x80000000 = 0 := by
    rw [realValue, show Fmt.f32.exp 0x80000000 = 0 from by decide, show Fmt.f32.frac 0x80000000 = 0 from by decide]; simp
  have h2 : realValue .f32 0x3F800000 = 1 := by
    have h : Fmt.f32.exp 0x3F800000 = 127 ∧ Fmt.f32.frac 0x3F800000 = 0 ∧ Fmt.f32.sign 0x3F800000 = false := by decide
    rw [realValue, h.1, h.2.1, h.2.2]
    norm_num [Fmt.bias, Fmt.expWidth, Fmt.fracWidth, zpow_neg]
  refine ⟨rfl, ⟨by decide, by decide⟩, ⟨by decide, by decide⟩, by decide, by rw [h0, h1]; norm_num, by decide, 1, ?_, one_ne_zero⟩
  show (if ((realValue .f32 0x3F800000 : ℚ) : ℝ) < 0 then none else some (Real.sqrt (realValue .f32 0x3F800000 : ℚ))) = some 1
  rw [h2]
  norm_num

/-- One pair of operands per case. -/
theorem witness_UnlistedInvalidOperationsGiveNaN :
    (waiting 0 0x7F800000 0x7FC00000).phase = .wait ∧ InvalidProduct .f32 0 0x7F800000 ∧ InvalidProduct .f32 0xFF800000 0x80000000 ∧
    (Fmt.f32.isInf 0xFF800000 = true ∧ Fmt.f32.sign 0xFF800000 = true) ∧
    (Fmt.f32.isInf 0x7F800000 = true ∧ Fmt.f32.isZero 0x80000000 = true) :=
  ⟨rfl, .inl (by decide), .inr (by decide), by decide, by decide⟩

end Sys2Proof.Tests
end

section
/-! The fields and classes of a pattern by arithmetic, and the order of the comparisons as the order of the values: the
magnitudes of a format continued to the negative integers are strictly increasing, and the value of a finite pattern is the
member at its place `ord` on the integer line. -/

namespace Sys2Proof

variable (fmt : Fmt) (x : XWord)

/-! ## Fields, classes and order -/

theorem Fmt.isNaN_iff : fmt.isNaN x = true ↔ fmt.exp x = fmt.expMax ∧ fmt.frac x ≠ 0 := by
  simp [Fmt.isNaN]

theorem Fmt.isInf_iff : fmt.isInf x = true ↔ fmt.exp x = fmt.expMax ∧ fmt.frac x = 0 := by
  simp [Fmt.isInf]

theorem Fmt.isZero_iff : fmt.isZero x = true ↔ fmt.exp x = 0 ∧ fmt.frac x = 0 := by
  simp [Fmt.isZero]

theorem Fmt.isSub_iff : fmt.isSub x = true ↔ fmt.exp x = 0 ∧ fmt.frac x ≠ 0 := by
  simp [Fmt.isSub]

/-- The magnitude bits are the exponent field above the fraction field. -/
theorem Fmt.mag_eq_fields : fmt.mag x = fmt.exp x * 2 ^ fmt.fracWidth + fmt.frac x := by
  rw [fmt.exp_eq_mag_div, fmt.frac_eq_mag_mod, Nat.div_add_mod']

theorem Fmt.mag_of_isInf (h : fmt.isInf x = true) : fmt.mag x = fmt.infMag := by
  obtain ⟨hexp, hfrac⟩ := (fmt.isInf_iff x).1 h
  rw [fmt.mag_eq_fields, hexp, hfrac, Nat.add_zero, Fmt.infMag]

theorem Fmt.ord_of_nonneg (h : fmt.sign x = false) : fmt.ord x = fmt.mag x := by
  simp [Fmt.ord, h]

theorem Fmt.ord_of_neg (h : fmt.sign x = true) : fmt.ord x = -(fmt.mag x : Int) := by
  simp [Fmt.ord, h]

theorem Fmt.natAbs_ord : (fmt.ord x).natAbs = fmt.mag x := by
  unfold Fmt.ord
  split_ifs <;> simp

namespace Machine

/-! ## The values in the order of the integer line -/

/-- The magnitudes of a format continued to the negative integers as an odd function. -/
noncomputable def signedGrid (F : Nat) (q0 : Int) : Int → ℝ
  | .ofNat m => gridValue F q0 m
  | .negSucc m => -gridValue F q0 (m + 1)

theorem signedGrid_natCast (F : Nat) (q0 : Int) (m : Nat) : signedGrid F q0 m = gridValue F q0 m := rfl

theorem signedGrid_neg (F : Nat) (q0 : Int) : ∀ i : Int, signedGrid F q0 (-i) = -signedGrid F q0 i
  | .ofNat 0 => by simp [signedGrid]
  | .ofNat (_ + 1) => rfl
  | .negSucc _ => (neg_neg _).symm

theorem signedGrid_strictMono (F : Nat) (q0 : Int) : StrictMono (signedGrid F q0) := by
  refine strictMono_of_odd_strictMonoOn_nonneg (signedGrid_neg F q0) fun i hi j hj hij => ?_
  lift i to ℕ using hi
  lift j to ℕ using hj
  exact gridValue_strictMono F q0 (by exact_mod_cast hij)

/-- The value of a pattern is the member of the signed sequence at its place on the integer line. -/
theorem realValue_eq_signedGrid : (realValue fmt x : ℝ) = signedGrid fmt.fracWidth fmt.qMin (fmt.ord x) := by
  rw [realValue_eq]
  cases hs : fmt.sign x
  · rw [fmt.ord_of_nonneg x hs, signedGrid_natCast, signFactor, if_neg Bool.false_ne_true, one_mul]
  · rw [fmt.ord_of_neg x hs, signedGrid_neg, signedGrid_natCast, signFactor, if_pos rfl, neg_one_mul]

variable (a b : XWord)

theorem ord_lt_iff_realValue_lt : fmt.ord a < fmt.ord b ↔ realValue fmt a < realValue fmt b := by
  rw [← Rat.cast_lt (K := ℝ), realValue_eq_signedGrid, realValue_eq_signedGrid, (signedGrid_strictMono _ _).lt_iff_lt]

theorem ord_eq_iff_realValue_eq : fmt.ord a = fmt.ord b ↔ realValue fmt a = realValue fmt b := by
  rw [← Rat.cast_inj (α := ℝ), realValue_eq_signedGrid, realValue_eq_signedGrid,
    (signedGrid_strictMono _ _).injective.eq_iff]

/-- The place of a finite pattern lies strictly between those of the two infinities. -/
theorem natAbs_ord_lt_of_isFinite (h : IsFinite fmt x) : (fmt.ord x).natAbs < fmt.infMag := by
  rw [fmt.natAbs_ord]
  exact (isFinite_iff fmt x).1 h

theorem ord_of_isInf (h : fmt.isInf x = true) :
    fmt.ord x = if fmt.sign x then -(fmt.infMag : Int) else (fmt.infMag : Int) := by
  rw [Fmt.ord, fmt.mag_of_isInf x h]

end Machine

end Sys2Proof

namespace Sys2Proof.Machine

/-- Settles O22: each field is its slice, each class the condition on the fields. -/
theorem fieldsAreTheSlicesOfTheFormat : Obligations.FieldsAreTheSlicesOfTheFormat := by
  refine ⟨fun fmt x => ⟨fmt.sign_iff x, fmt.exp_eq x, fmt.frac_eq x, fmt.mag_eq_mod x, fmt.mag_eq_fields x,
    fmt.isNaN_iff x, fmt.isInf_iff x, fmt.isZero_iff x, fmt.isSub_iff x, ?_⟩, fun fmt => by cases fmt <;> rfl⟩
  by_cases hm : fmt.mag x = 0
  · simp [Fmt.ord, hm]
  · rw [if_neg hm, Fmt.ord]

/-- Settles O23: finite patterns by the strictly increasing signed sequence of the format's values, infinities by the bound
on the place of a finite pattern. -/
theorem comparisonOrderIsTheOrderOfValues : Obligations.ComparisonOrderIsTheOrderOfValues := by
  intro fmt a b
  have hpos := fmt.infMag_pos
  refine ⟨fun _ _ => ⟨ord_lt_iff_realValue_lt fmt a b, ord_eq_iff_realValue_eq fmt a b⟩, fun ha hb => ?_, fun ha hb => ?_⟩
  · have hlt := natAbs_ord_lt_of_isFinite fmt b hb
    rw [ord_of_isInf fmt a ha]
    constructor <;> intro hs <;> simp only [hs, if_true, Bool.false_eq_true, if_false] <;> omega
  · rw [ord_of_isInf fmt a ha, ord_of_isInf fmt b hb]
    cases fmt.sign a <;> cases fmt.sign b <;> simp <;> omega

end Sys2Proof.Machine
end

section
/-! What the contract of an arithmetic operation on finite operands asks for: the exact result of the operation, as a real
number, rounded once; an exact zero is a zero without a flag. -/

namespace Sys2Proof.Machine

/-! ## Values as real numbers -/

/-- `v` is a finite value, and the real number it stands for is `r`. -/
def Value.Represents (v : Value) (r : ℝ) : Prop :=
  ∃ neg m e, v = .fin neg m e ∧ r = signFactor neg * (m * (2 : ℝ) ^ e)

theorem signFactor_not (neg : Bool) : signFactor (!neg) = -signFactor neg := by
  cases neg <;> simp [signFactor]

theorem signFactor_bne (n1 n2 : Bool) : signFactor (n1 != n2) = signFactor n1 * signFactor n2 := by
  cases n1 <;> cases n2 <;> simp [signFactor]

theorem inv_signFactor (neg : Bool) : (signFactor neg)⁻¹ = signFactor neg := by
  cases neg <;> norm_num [signFactor]

theorem signFactor_mul_neg_iff (neg : Bool) {y : ℝ} (hy : 0 < y) : signFactor neg * y < 0 ↔ neg = true := by
  cases neg <;> simp [signFactor, hy, hy.le]

theorem signedInt_cast_real (neg : Bool) (m : Nat) : ((signedInt neg m : Int) : ℝ) = signFactor neg * m := by
  cases neg <;> simp [signedInt, signFactor]

theorem signFactor_mul_natAbs (t : Int) : signFactor (decide (t < 0)) * (t.natAbs : ℝ) = t := by
  rw [Nat.cast_natAbs, Int.cast_abs, signFactor]
  rcases lt_or_ge t 0 with h | h
  · rw [if_pos (decide_eq_true h), abs_of_neg (by exact_mod_cast h)]
    ring
  · rw [if_neg (by simpa using h), abs_of_nonneg (by exact_mod_cast h), one_mul]

theorem valueOf_represents {fmt : Fmt} {x : XWord} (h : IsFinite fmt x) :
    (valueOf fmt x).Represents (realValue fmt x) := by
  obtain ⟨m, e, hv, -⟩ := valueOf_isFinite h
  refine ⟨fmt.sign x, m, e, hv, ?_⟩
  rw [realValue_of_valueOf hv]
  cases fmt.sign x <;> simp [signFactor]

theorem Value.Represents.neg {v : Value} {r : ℝ} (h : v.Represents r) : v.neg.Represents (-r) := by
  obtain ⟨n, m, e, rfl, rfl⟩ := h
  exact ⟨!n, m, e, rfl, by rw [signFactor_not, neg_mul]⟩

theorem Value.Represents.mul {u v : Value} {r t : ℝ} (hu : u.Represents r) (hv : v.Represents t) :
    ∃ w, mulValues u v = some w ∧ w.Represents (r * t) := by
  obtain ⟨n1, m1, e1, rfl, rfl⟩ := hu
  obtain ⟨n2, m2, e2, rfl, rfl⟩ := hv
  refine ⟨_, rfl, n1 != n2, m1 * m2, e1 + e2, rfl, ?_⟩
  rw [signFactor_bne, zpow_add₀ two_ne_zero, Nat.cast_mul]
  ring

theorem pow2_cast_of_nonneg {k : Int} (h : 0 ≤ k) : (pow2 k : ℝ) = (2 : ℝ) ^ k := by
  lift k to ℕ using h
  simp [pow2]

/-- A value in units of a last place `2^e` not above its own. -/
theorem signedInt_units (neg : Bool) (m : Nat) {e1 e : Int} (h : e ≤ e1) :
    signFactor neg * (m * (2 : ℝ) ^ e1) = ((signedInt neg (m * pow2 (e1 - e)) : Int) : ℝ) * (2 : ℝ) ^ e := by
  rw [signedInt_cast_real, Nat.cast_mul, pow2_cast_of_nonneg (sub_nonneg.2 h), mul_assoc, mul_assoc,
    ← zpow_add₀ two_ne_zero, sub_add_cancel]

/-! ## Contracts that round once -/

/-- The contract asks for the real `x` rounded once to the format: for a zero without a flag when `x` is 0, else for the
rounding of its magnitude under its sign. -/
inductive Contract.RoundsOnce (fmt : Fmt) (rm : Rm) (x : ℝ) : Contract → Prop
  | zero (neg : Bool) (hx : x = 0) : RoundsOnce fmt rm x (.zero fmt neg)
  | rounded (neg : Bool) (mag : Magnitude) (hpos : mag.Positive) (hx : x = signFactor neg * mag.real) :
      RoundsOnce fmt rm x (.rounded fmt rm neg mag)

variable {fmt : Fmt} {rm : Rm} {u v : Value} {r t : ℝ}

theorem ofValue_roundsOnce (hv : v.Represents r) : (Contract.ofValue fmt rm v).RoundsOnce fmt rm r := by
  obtain ⟨neg, m, e, rfl, rfl⟩ := hv
  rw [Contract.ofValue]
  split_ifs with hm
  · exact .zero _ (by simp [hm])
  · exact .rounded _ _ ⟨Nat.pos_of_ne_zero hm, one_pos⟩ (by simp [Magnitude.real])

theorem addValues_roundsOnce (hu : u.Represents r) (hv : v.Represents t) :
    (addValues fmt rm u v).RoundsOnce fmt rm (r + t) := by
  obtain ⟨n1, m1, e1, rfl, rfl⟩ := hu
  obtain ⟨n2, m2, e2, rfl, rfl⟩ := hv
  rw [signedInt_units n1 m1 (min_le_left e1 e2), signedInt_units n2 m2 (min_le_right e1 e2), ← add_mul, ← Int.cast_add]
  simp only [addValues, sumFinite]
  generalize signedInt n1 _ + signedInt n2 _ = total
  by_cases hzero : total = 0
  · rw [if_pos hzero]
    exact .zero _ (by simp [hzero])
  · rw [if_neg hzero]
    refine .rounded _ (.ratio _ 1 _) ⟨Int.natAbs_pos.2 hzero, one_pos⟩ ?_
    rw [Magnitude.real, Nat.cast_one, div_one, ← mul_assoc, signFactor_mul_natAbs]

theorem divValues_roundsOnce (hu : u.Represents r) (hv : v.Represents t) (ht : t ≠ 0) :
    (divValues fmt rm u v).RoundsOnce fmt rm (r / t) := by
  obtain ⟨n1, m1, e1, rfl, rfl⟩ := hu
  obtain ⟨n2, m2, e2, rfl, rfl⟩ := hv
  have hm2 : m2 ≠ 0 := fun h => ht (by simp [h])
  rw [divValues, if_neg hm2]
  split_ifs with hm1
  · exact .zero _ (by simp [hm1])
  · refine .rounded _ (.ratio m1 m2 _) ⟨Nat.pos_of_ne_zero hm1, Nat.pos_of_ne_zero hm2⟩ ?_
    rw [Magnitude.real, signFactor_bne, zpow_sub₀ two_ne_zero, mul_div_mul_comm, mul_div_mul_comm, div_eq_mul_inv,
      inv_signFactor]

theorem sqrtValue_roundsOnce (hv : v.Represents r) (hr : 0 ≤ r) :
    (sqrtValue fmt rm v).RoundsOnce fmt rm (Real.sqrt r) := by
  obtain ⟨neg, m, e, rfl, rfl⟩ := hv
  rw [sqrtValue]
  split_ifs with hm hneg
  · exact .zero _ (by simp [hm])
  · have hpos : (0 : ℝ) < m * (2 : ℝ) ^ e :=
      mul_pos (Nat.cast_pos.2 (Nat.pos_of_ne_zero hm)) (zpow_pos two_pos e)
    exact absurd ((signFactor_mul_neg_iff neg hpos).2 hneg) (not_lt.2 hr)
  · exact .rounded _ (.root m e) (Nat.pos_of_ne_zero hm) (by simp [hneg, signFactor, Magnitude.real])

/-! ## The arithmetic operations -/

theorem withNaNs_of_isFinite {ops : List XWord} (k : Contract) (h : ∀ x ∈ ops, IsFinite fmt x) :
    withNaNs fmt ops k = k := by
  rw [withNaNs, if_neg]
  rw [List.any_eq_true]
  rintro ⟨x, hx, hnan⟩
  exact absurd (h x hx).1 (by simp [hnan])

section Operands

variable {a b c : XWord} (ha : IsFinite fmt a) (hb : IsFinite fmt b) (hc : IsFinite fmt c)

include ha

/-- R117. -/
theorem sqrtContract_roundsOnce (hnn : (0 : ℝ) ≤ realValue fmt a) :
    (sqrtContract fmt rm a).RoundsOnce fmt rm (Real.sqrt (realValue fmt a)) := by
  rw [sqrtContract, withNaNs_of_isFinite _ (by simpa using ha)]
  exact sqrtValue_roundsOnce (valueOf_represents ha) hnn

include hb

/-- R111. -/
theorem addContract_roundsOnce :
    (addContract fmt rm a b).RoundsOnce fmt rm (realValue fmt a + realValue fmt b) := by
  rw [addContract, withNaNs_of_isFinite _ (by simp [ha, hb])]
  exact addValues_roundsOnce (valueOf_represents ha) (valueOf_represents hb)

/-- R112. -/
theorem subContract_roundsOnce :
    (subContract fmt rm a b).RoundsOnce fmt rm (realValue fmt a - realValue fmt b) := by
  rw [subContract, withNaNs_of_isFinite _ (by simp [ha, hb]), sub_eq_add_neg]
  exact addValues_roundsOnce (valueOf_represents ha) (valueOf_represents hb).neg

/-- R113. -/
theorem mulContract_roundsOnce :
    (mulContract fmt rm a b).RoundsOnce fmt rm (realValue fmt a * realValue fmt b) := by
  obtain ⟨p, hp, hrep⟩ := (valueOf_represents ha).mul (valueOf_represents hb)
  rw [mulContract, withNaNs_of_isFinite _ (by simp [ha, hb]), hp]
  exact ofValue_roundsOnce hrep

/-- R114. -/
theorem divContract_roundsOnce (hne : (realValue fmt b : ℝ) ≠ 0) :
    (divContract fmt rm a b).RoundsOnce fmt rm (realValue fmt a / realValue fmt b) := by
  rw [divContract, withNaNs_of_isFinite _ (by simp [ha, hb])]
  exact divValues_roundsOnce (valueOf_represents ha) (valueOf_represents hb) hne

include hc

/-- R115. -/
theorem fmaContract_roundsOnce :
    (fmaContract fmt rm a b c).RoundsOnce fmt rm (realValue fmt a * realValue fmt b + realValue fmt c) := by
  obtain ⟨p, hp, hrep⟩ := (valueOf_represents ha).mul (valueOf_represents hb)
  have hk : fmaContract fmt rm a b c = addValues fmt rm p (valueOf fmt c) := by
    simp [fmaContract, ha.1, hb.1, hc.1, hp]
  rw [hk]
  exact addValues_roundsOnce hrep (valueOf_represents hc)

end Operands

theorem arithmeticOps_dispatched {i : Instr} (hi : i ∈ arithmeticOps fmt rm) :
    i.isLocal = false ∧ i.outWidth = fmt.width := by
  simp only [arithmeticOps, List.mem_cons, List.not_mem_nil, or_false] at hi
  rcases hi with rfl | rfl | rfl | rfl | rfl | rfl | rfl | rfl <;> exact ⟨rfl, rfl⟩

/-- The contract of an arithmetic operation on finite operands is its exact result rounded once (R111 to R115, R117). -/
theorem contractOf_roundsOnce {i : Instr} {s : State} {x : ℝ} (hi : i ∈ arithmeticOps fmt rm)
    (hfin : ∀ y ∈ s.usedOperands i, IsFinite fmt y) (hx : exactResult i fmt s = some x) :
    ∃ k, contractOf i s.a s.b s.c = some k ∧ k.RoundsOnce fmt rm x := by
  simp only [arithmeticOps, List.mem_cons, List.not_mem_nil, or_false] at hi
  -- `REM` and `RINT` have no exact result here, so six cases are left
  rcases hi with rfl | rfl | rfl | rfl | rfl | rfl | rfl | rfl <;>
    simp only [State.usedOperands, Instr.arity, List.take_succ_cons, List.take_zero, List.forall_mem_cons, exactResult,
      Option.ite_none_left_eq_some, Option.some.injEq, reduceCtorEq] at hfin hx
  · obtain ⟨ha, hb, -⟩ := hfin
    exact ⟨_, rfl, hx ▸ addContract_roundsOnce ha hb⟩
  · obtain ⟨ha, hb, -⟩ := hfin
    exact ⟨_, rfl, hx ▸ subContract_roundsOnce ha hb⟩
  · obtain ⟨ha, hb, -⟩ := hfin
    exact ⟨_, rfl, hx ▸ mulContract_roundsOnce ha hb⟩
  · obtain ⟨ha, hb, -⟩ := hfin
    obtain ⟨hne, hx⟩ := hx
    exact ⟨_, rfl, hx ▸ divContract_roundsOnce ha hb hne⟩
  · obtain ⟨ha, hb, hc, -⟩ := hfin
    exact ⟨_, rfl, hx ▸ fmaContract_roundsOnce ha hb hc⟩
  · obtain ⟨ha, -⟩ := hfin
    obtain ⟨hnn, hx⟩ := hx
    exact ⟨_, rfl, hx ▸ sqrtContract_roundsOnce ha (not_lt.1 hnn)⟩

/-- An arithmetic operation on finite operands completes with a zero and no flag when its exact result is 0, and else with
the rounding of the exact result's magnitude, under its sign. -/
theorem exec_wait_roundsOnce {i : Instr} {s : State} {x : ℝ} (hi : i ∈ arithmeticOps fmt rm) (hp : s.phase = .wait)
    (hfin : ∀ y ∈ s.usedOperands i, IsFinite fmt y) (hx : exactResult i fmt s = some x) :
    (x = 0 ∧ ∃ neg, exec i s = .next (s.WithResponse (signedZero fmt neg) 0)) ∨
    ∃ neg mag, Magnitude.Positive mag ∧ x = signFactor neg * mag.real ∧
      contractOf i s.a s.b s.c = some (Contract.rounded fmt rm neg mag) := by
  obtain ⟨hl, hw⟩ := arithmeticOps_dispatched hi
  obtain ⟨_, hk, hround⟩ := contractOf_roundsOnce hi hfin hx
  cases hround with
  | zero neg hx =>
    refine .inl ⟨hx, neg, ?_⟩
    rw [exec_wait_determined hl hp hk rfl rfl, hw, low_pattern_zero]
    rfl
  | rounded neg mag hpos hx => exact .inr ⟨neg, mag, hpos, hx, hk⟩

theorem Magnitude.real_pos {mag : Magnitude} (h : mag.Positive) : 0 < mag.real :=
  (zpow_pos two_pos _).trans_le (mag.ilog_spec h).1

theorem overflowMag_lt (fmt : Fmt) (rm : Rm) (neg : Bool) : overflowMag fmt rm neg < 2 ^ (fmt.width - 1) := by
  have hle : overflowMag fmt rm neg ≤ fmt.infMag := by
    cases rm <;> cases neg <;> simp [overflowMag]
  exact hle.trans_lt fmt.infMag_lt

end Sys2Proof.Machine

namespace Sys2Proof.Machine

/-- Settles O45: an exact zero raises nothing, and a rounding that overflows has the pattern of R15 under the sign of the
exact result. -/
theorem overflowResultFollowsTheMode : Obligations.OverflowResultFollowsTheMode := by
  intro fmt rm i s x hi hp hfin hx
  obtain ⟨-, neg, hexec⟩ | ⟨neg, mag, hpos, hxmag, hk⟩ := exec_wait_roundsOnce hi hp hfin hx
  · exact ⟨_, hexec, fun hof => absurd (show OF 0 = true from hof) (by decide)⟩
  · obtain ⟨hl, hw⟩ := arithmeticOps_dispatched hi
    obtain ⟨t, hexec, -, hres, hsign, hof, -⟩ := exec_wait_rounded hpos hl hp hw hk
    obtain ⟨-, hover, -⟩ := roundTo_correct fmt rm neg mag hpos
    have hneg : x < 0 ↔ neg = true := hxmag ▸ signFactor_mul_neg_iff neg (Magnitude.real_pos hpos)
    refine ⟨t, hexec, fun h => ⟨by simp [hsign, hneg], ?_⟩⟩
    rw [hres, hover (hof ▸ h), fmt.mag_pattern neg _ (overflowMag_lt fmt rm neg)]
    simp only [hneg]
    cases rm <;> rfl

end Sys2Proof.Machine
end

section
/-! How a step changes the accumulator: a completion ORs flags into it, and only `CLRFLAGS` and a reset do anything else
(10_state.md R26, 45_flag_access.md R161). -/

namespace Sys2Proof.Machine

/-! ## The order of flag vectors -/

theorem FlagsWithin.refl (f : FlagBits) : FlagsWithin f f :=
  BitVec.and_self

theorem flagsWithin_or (f fl : FlagBits) : FlagsWithin f (f ||| fl) := by
  rw [FlagsWithin]
  ext j
  simp +contextual

variable {s t : State} {i : Instr}

/-! ## Commands -/

/-- A LOCAL command other than `CLRFLAGS` finishes by `State.complete` (R88). -/
theorem exec_of_local_completes (h : i.isLocal = true) (hi : i ≠ .clrflags) :
    ∃ (w : Nat) (v : State → XWord) (fl : State → FlagBits),
      ∀ t, exec i t = localCommand i (fun s => s.complete w (v s) (fl s)) t := by
  cases i
  case clrflags => exact absurd rfl hi
  case toF16 | toF32 | toF64 | toF128 =>
    obtain rfl := eq_of_beq h
    exact ⟨_, _, _, fun _ => rfl⟩
  case bits | classify | eq | lt | le | ltq | leq | cmp | rdflags => exact ⟨_, _, _, fun _ => rfl⟩
  all_goals exact absurd h Bool.false_ne_true

/-- No command but `CLRFLAGS` clears a flag of the accumulator, in whatever phase it runs. -/
theorem flagsWithin_of_exec (hi : i ≠ .clrflags) (h : exec i s = .next t) : FlagsWithin s.fflags t.fflags := by
  cases hl : i.isLocal
  · rw [exec_of_not_local i s hl] at h
    obtain ⟨-, -, he⟩ | ⟨-, -, he⟩ | ⟨-, he⟩ | ⟨-, he⟩ := unitCommand_cases i s <;> cases he.symm.trans h
    · exact .refl _
    · exact .refl _
    · exact flagsWithin_or _ _
    · exact .refl _
  · obtain ⟨w, v, fl, hloc⟩ := exec_of_local_completes hl hi
    rw [hloc] at h
    obtain he | ⟨-, -, he⟩ | ⟨-, -, he⟩ := localCommand_cases i (fun s => s.complete w (v s) (fl s)) s <;>
      cases he.symm.trans h
    · exact .refl _
    · exact flagsWithin_or _ _
    · exact .refl _

/-- `CLRFLAGS` checks no operand: run in IDLE it always clears the accumulator. -/
theorem exec_clrflags_idle (hp : s.phase = .idle) : exec .clrflags s = .next s.clearFlags :=
  localCommand_idle .clrflags State.clearFlags s hp rfl

/-- A command that ends in a rejection leaves the accumulator as it was. -/
theorem fflags_eq_of_exec_rejected {r : Reject} (hp : s.phase = .idle) (h : exec i s = .next t)
    (hr : t.status = .rejected r) : t.fflags = s.fflags := by
  obtain ⟨-, he⟩ | ⟨-, -, v, fl, acc, -, he⟩ | ⟨-, -, he⟩ := exec_idle_cases s i hp <;> cases he.symm.trans h
  · rfl
  · cases hr
  · rfl

/-- Run in WAIT no command clears a flag: `CLRFLAGS` is LOCAL and so out of its turn. -/
theorem flagsWithin_of_exec_wait (hp : s.phase = .wait) (h : exec i s = .next t) : FlagsWithin s.fflags t.fflags := by
  obtain ⟨-, he⟩ | ⟨-, he⟩ := exec_wait_cases s i hp <;> cases he.symm.trans h
  · exact .refl _
  · exact flagsWithin_or _ _

/-! ## Steps -/

/-- Everything a step can do to the accumulator (R33 (d)). -/
theorem step_fflags_cases (h : step s = .next t) :
    FlagsWithin s.fflags t.fflags ∨ s.sampled.rst = true ∨
      (s.Accepting ∧ decode s.sampled.reqCw = .ok .clrflags ∧ t.fflags = 0) := by
  obtain ⟨hr, -⟩ | ⟨-, -, -, r, -, he⟩ | ⟨hr, hp, hv, i, hd, he⟩ | ⟨-, hp, -, i, -, he⟩ | ⟨-, -, -, he⟩ | ⟨-, he, -⟩ :=
    step_cases s
  · exact .inr (.inl hr)
  · cases he.symm.trans h
    exact .inl (.refl _)
  · by_cases hi : i = .clrflags
    · subst hi
      rw [exec_clrflags_idle (s := s.latched) hp] at he
      cases he.symm.trans h
      exact .inr (.inr ⟨⟨hp, hr, hv⟩, hd, rfl⟩)
    · exact .inl (flagsWithin_of_exec (s := s.latched) hi (he.symm.trans h))
  · exact .inl (flagsWithin_of_exec_wait (s := s.advance) hp (he.symm.trans h))
  · cases he.symm.trans h
    exact .inl (.refl _)
  · cases he.symm.trans h
    exact .inl (.refl _)

/-- In DONE a step without reset delivers or holds the response; the accumulator is not touched (R89). -/
theorem fflags_eq_of_step_done (h : step s = .next t) (hr : s.sampled.rst = false) (hp : s.phase = .done) :
    t.fflags = s.fflags := by
  have hs := step_cases s
  simp only [hr, hp, reduceCtorEq, false_and, false_or, true_and, and_false, Bool.false_eq_true] at hs
  obtain ⟨-, he⟩ | ⟨he, -⟩ := hs <;> cases he.symm.trans h <;> rfl

/-- A step from IDLE without reset that ends with a rejection in `STATUS` leaves the accumulator as it was (R176). -/
theorem fflags_eq_of_step_rejected {r : Reject} (h : step s = .next t) (hr : s.sampled.rst = false) (hp : s.phase = .idle)
    (hst : t.status = .rejected r) : t.fflags = s.fflags := by
  have hs := step_cases s
  simp only [hr, hp, reduceCtorEq, false_and, false_or, true_and, and_false, or_false, Bool.false_eq_true] at hs
  obtain ⟨-, _, -, he⟩ | ⟨-, i, -, he⟩ | ⟨he, -⟩ := hs
  · cases he.symm.trans h
    rfl
  · exact fflags_eq_of_exec_rejected (s := s.latched) hp (he.symm.trans h) hst
  · cases he.symm.trans h
    rfl

end Sys2Proof.Machine
end

section
/-! Sound states: how a state of each phase comes to be sound, and that commands and steps keep soundness (10_state.md
R33). -/

namespace Sys2Proof.Machine

section
variable {cw : CmdWord} {a b c : XWord} {i : Instr}

/-! ## The verdict on a command -/

theorem validate_of_error {r : Reject} (h : decode cw = .error r) : validate cw a b c = .rejected r := by
  simp [validate, h]

theorem validate_of_fit (h : decode cw = .ok i) (hf : i.operandsFit a b c = true) : validate cw a b c = .ok := by
  simp [validate, h, hf]

theorem validate_of_unfit (h : decode cw = .ok i) (hf : i.operandsFit a b c = false) :
    validate cw a b c = .rejected .width := by
  simp [validate, h, hf]

end

variable {s t : State} {i : Instr}

/-! ## Sound states of each phase -/

theorem State.Sound.of_idle (hp : s.phase = .idle) (hq : s.uReq = none) : s.Sound where
  wait h := by simp [hp] at h
  verdict h := by simp [hp] at h
  result h := by simp [hp] at h
  empty h := by simp [hp] at h
  request q h := by simp [hq] at h

/-- The state a dispatch leaves: the request of the latched command is up. -/
theorem State.Sound.dispatch (hd : decode s.cw = .ok i) (hl : i.isLocal = false)
    (hf : i.operandsFit s.a s.b s.c = true) : (s.dispatch (s.unitRequest i)).Sound where
  wait _ := ⟨validate_of_fit hd hf, i, hd, hl⟩
  verdict h := nomatch h
  result h := nomatch h
  empty h := nomatch h
  request q h := by
    cases h
    exact ⟨rfl, i, hd, rfl⟩

/-- The state a rejection leaves, when its code is the verdict on the latched command. -/
theorem State.Sound.reject {r : Reject} (hv : validate s.cw s.a s.b s.c = .rejected r) (hq : s.uReq = none) :
    (s.reject r).Sound where
  wait h := nomatch h
  verdict _ := hv.symm
  result _ h := nomatch h
  empty _ _ := ⟨rfl, rfl⟩
  request q h := by simp [hq] at h

/-- A response of a valid command whose result fits the result width. -/
theorem State.Sound.of_done (hp : s.phase = .done) (hst : s.status = .ok) (hq : s.uReq = none)
    (hv : validate s.cw s.a s.b s.c = .ok) (hd : decode s.cw = .ok i) (hw : fits i.outWidth s.res = true) : s.Sound where
  wait h := by simp [hp] at h
  verdict _ := hst.trans hv.symm
  result _ _ := ⟨i, hd, hw⟩
  empty _ h := absurd hst h
  request q h := by simp [hq] at h

/-- The end of the `u_valid` pulse keeps a state sound, as no other clause reads the ports. -/
theorem State.Sound.advance (h : s.Sound) : s.advance.Sound where
  wait := h.wait
  verdict := h.verdict
  result := h.result
  empty := h.empty
  request _ hq := nomatch hq

/-! ## Commands and steps -/

/-- The command latched in IDLE, run there, ends in a sound state, whatever the registers held before. -/
theorem sound_of_exec_idle (hp : s.phase = .idle) (hq : s.uReq = none) (hd : decode s.cw = .ok i)
    (h : exec i s = .next t) : t.Sound := by
  obtain ⟨hf, he⟩ | ⟨hf, -, v, fl, acc, hw, he⟩ | ⟨hf, hl, he⟩ := exec_idle_cases s i hp <;> cases he.symm.trans h
  · exact .reject (validate_of_unfit hd hf) hq
  · exact .of_done rfl rfl hq (validate_of_fit hd hf) hd hw
  · exact .dispatch hd hl hf

/-- The command held in WAIT, run there, ends in a sound state. -/
theorem sound_of_exec_wait (hs : s.Sound) (hp : s.phase = .wait) (hq : s.uReq = none) (hd : decode s.cw = .ok i)
    (h : exec i s = .next t) : t.Sound := by
  obtain ⟨-, he⟩ | ⟨-, he⟩ := exec_wait_cases s i hp <;> cases he.symm.trans h
  · exact hs
  · exact .of_done rfl rfl hq (hs.wait hp).1 hd (fits_low _ _ i.outWidth_le)

/-- Every step keeps a sound state sound. -/
theorem step_keeps_sound (hs : s.Sound) (h : step s = .next t) : t.Sound := by
  obtain ⟨-, he⟩ | ⟨-, -, -, r, hd, he⟩ | ⟨-, hp, -, i, hd, he⟩ | ⟨-, hp, -, i, hd, he⟩ | ⟨-, -, -, he⟩ | ⟨-, he, -⟩ :=
    step_cases s
  · cases he.symm.trans h
    exact .of_idle rfl rfl
  · cases he.symm.trans h
    exact .reject (s := s.latched) (validate_of_error hd) rfl
  · exact sound_of_exec_idle (s := s.latched) hp rfl hd (he.symm.trans h)
  · exact sound_of_exec_wait hs.advance hp rfl hd (he.symm.trans h)
  · cases he.symm.trans h
    exact .of_idle rfl rfl
  · cases he.symm.trans h
    exact hs.advance

end Sys2Proof.Machine
end

section
/-! The statements on the state (10_state.md). -/

namespace Sys2Proof.Machine

/-- Settles O17: the reset state is idle and presents no request. -/
theorem resetStateIsSound : Obligations.ResetStateIsSound :=
  .of_idle rfl rfl

/-- Settles O16: soundness case by case over what a step can do, the accumulator by the same cases. -/
theorem reachableStatesAreSound : Obligations.ReachableStatesAreSound :=
  ⟨resetStateIsSound, fun _ _ hs h => ⟨step_keeps_sound hs h, step_fflags_cases h⟩⟩

/-- Settles O18: of the three things a step can do to the accumulator the hypotheses leave the superset; DONE and a
rejection write nothing to it. -/
theorem flagsAreStickyUntilCleared : Obligations.FlagsAreStickyUntilCleared := by
  intro s t h hr hclr
  refine ⟨?_, fflags_eq_of_step_done h hr, fun r hp => fflags_eq_of_step_rejected h hr hp⟩
  obtain hw | hrst | ⟨hacc, hd, -⟩ := step_fflags_cases h
  · exact hw
  · exact absurd hrst (by simp [hr])
  · exact absurd ⟨hacc, hd⟩ hclr

/-- Settles O11: the values of the reset table, read off `State.reset`. -/
theorem resetStateIsAsSpecified : Obligations.ResetStateIsAsSpecified :=
  ⟨rfl, rfl, rfl, rfl, rfl, rfl, rfl, rfl⟩

end Sys2Proof.Machine
end

section
/-! Two blocks with different pasts and the same command (10_state.md R49): the relation `State.Agrees`, and that every
command but `RDFLAGS` keeps it, whatever else the two blocks remember. -/

namespace Sys2Proof.Machine

/-! ## Agreeing states -/

/-- The two blocks hold the same command in the same phase, present the same request and show the requester the same
response. `FFLAGS`, a response that is not shown, the inputs still to come and `freeNo` may differ. -/
structure State.Agrees (s s' : State) : Prop where
  phase    : s.phase = s'.phase
  uReq     : s.uReq = s'.uReq
  cw       : s.cw = s'.cw
  a        : s.a = s'.a
  b        : s.b = s'.b
  c        : s.c = s'.c
  response : s.response = s'.response

/-- Both commands or steps go on, to agreeing states. -/
def EndAgreeing (o o' : Host.Outcome State Fault Refusal) : Prop :=
  ∃ t t', o = .next t ∧ o' = .next t' ∧ t.Agrees t'

variable {s s' t t' : State} {i : Instr}

theorem EndAgreeing.agrees {o o' : Host.Outcome State Fault Refusal} (h : EndAgreeing o o') (ht : o = .next t)
    (ht' : o' = .next t') : t.Agrees t' := by
  obtain ⟨u, u', hu, hu', hag⟩ := h
  cases hu.symm.trans ht
  cases hu'.symm.trans ht'
  exact hag

/-- Outside DONE no response is shown (R23). -/
theorem State.response_of_ne_done (hp : s.phase ≠ .done) : s.response = none := by
  simp [State.response, State.rspValid, hp]

/-- Outside DONE agreement asks nothing of the response. -/
theorem State.Agrees.of_ne_done (hp : s.phase ≠ .done) (hphase : s.phase = s'.phase) (hreq : s.uReq = s'.uReq)
    (hcw : s.cw = s'.cw) (ha : s.a = s'.a) (hb : s.b = s'.b) (hc : s.c = s'.c) : s.Agrees s' :=
  ⟨hphase, hreq, hcw, ha, hb, hc,
    (State.response_of_ne_done hp).trans (State.response_of_ne_done (hphase ▸ hp)).symm⟩

/-! ## What a command reads of an agreeing state -/

theorem State.Agrees.operandsFit (h : s.Agrees s') (i : Instr) :
    i.operandsFit s.a s.b s.c = i.operandsFit s'.a s'.b s'.c := by
  rw [h.a, h.b, h.c]

theorem State.Agrees.unitRequest (h : s.Agrees s') (i : Instr) : s.unitRequest i = s'.unitRequest i := by
  simp only [State.unitRequest, h.a, h.b, h.c]

/-! ## Writes that keep agreement -/

/-- A response of the same status, result and flags, whatever happens to the accumulator. -/
theorem State.Agrees.respond (h : s.Agrees s') (st : Status) (v : XWord) (fl acc acc' : FlagBits) :
    State.Agrees { s with res := v, rflags := fl, fflags := acc, status := st, phase := .done }
      { s' with res := v, rflags := fl, fflags := acc', status := st, phase := .done } where
  phase := rfl
  uReq := h.uReq
  cw := h.cw
  a := h.a
  b := h.b
  c := h.c
  response := rfl

theorem State.Agrees.complete (h : s.Agrees s') (w : Nat) (v : XWord) (fl : FlagBits) :
    (s.complete w v fl).Agrees (s'.complete w v fl) :=
  h.respond .ok (low w v) fl _ _

theorem State.Agrees.reject (h : s.Agrees s') (r : Reject) : (s.reject r).Agrees (s'.reject r) :=
  h.respond (.rejected r) 0 0 _ _

theorem State.Agrees.clearFlags (h : s.Agrees s') : s.clearFlags.Agrees s'.clearFlags :=
  h.respond .ok 0 0 0 0

theorem State.Agrees.dispatch (h : s.Agrees s') (q : UnitRequest) : (s.dispatch q).Agrees (s'.dispatch q) where
  phase := rfl
  uReq := rfl
  cw := h.cw
  a := h.a
  b := h.b
  c := h.c
  response := rfl

/-! ## Commands -/

/-- A LOCAL command other than the flag commands computes its result and its flags from the operands `A` and `B`. -/
theorem exec_of_local_reads_operands (hl : i.isLocal = true) (hr : i ≠ .rdflags) (hc : i ≠ .clrflags) :
    ∃ (v : XWord → XWord → XWord) (fl : XWord → XWord → FlagBits),
      ∀ t, exec i t = localCommand i (fun s => s.complete i.outWidth (v s.a s.b) (fl s.a s.b)) t := by
  cases i
  case bits fmt => exact ⟨fun a _ => a, fun _ _ => 0, fun _ => rfl⟩
  case classify fmt => exact ⟨fun a _ => classBits fmt a, fun _ _ => 0, fun _ => rfl⟩
  case eq fmt => exact ⟨eqBit fmt, quietCompareFlags fmt, fun _ => rfl⟩
  case lt fmt => exact ⟨ltBit fmt, signalingCompareFlags fmt, fun _ => rfl⟩
  case le fmt => exact ⟨leBit fmt, signalingCompareFlags fmt, fun _ => rfl⟩
  case ltq fmt => exact ⟨ltBit fmt, quietCompareFlags fmt, fun _ => rfl⟩
  case leq fmt => exact ⟨leBit fmt, quietCompareFlags fmt, fun _ => rfl⟩
  case cmp fmt => exact ⟨fun a b => (compare4 fmt a b).code, cmpFlags fmt, fun _ => rfl⟩
  case toF16 | toF32 | toF64 | toF128 =>
    obtain rfl := eq_of_beq hl
    exact ⟨fun a _ => a, fun _ _ => 0, fun _ => rfl⟩
  case rdflags => exact absurd rfl hr
  case clrflags => exact absurd rfl hc
  all_goals exact absurd hl Bool.false_ne_true

/-- A LOCAL command keeps agreement when what finishes it does. -/
theorem State.Agrees.localCommand (h : s.Agrees s') {finish : State → State} (hfin : (finish s).Agrees (finish s')) :
    EndAgreeing (localCommand i finish s) (localCommand i finish s') := by
  by_cases hp : s.phase = .idle
  · have hp' : s'.phase = .idle := h.phase.symm.trans hp
    cases hf : i.operandsFit s.a s.b s.c
    · exact ⟨_, _, localCommand_idle_unfit i finish s hp hf,
        localCommand_idle_unfit i finish s' hp' (h.operandsFit i ▸ hf), h.reject .width⟩
    · exact ⟨_, _, localCommand_idle i finish s hp hf, localCommand_idle i finish s' hp' (h.operandsFit i ▸ hf), hfin⟩
  · exact ⟨_, _, localCommand_busy i finish s hp, localCommand_busy i finish s' (h.phase ▸ hp), h⟩

theorem State.Agrees.unitCommand (h : s.Agrees s') : EndAgreeing (unitCommand i s) (unitCommand i s') := by
  obtain ⟨hp, hf, he⟩ | ⟨hp, hf, he⟩ | ⟨hp, he⟩ | ⟨hp, he⟩ := unitCommand_cases i s <;> rw [h.phase] at hp
  · exact ⟨_, _, he, unitCommand_idle i s' hp (h.operandsFit i ▸ hf), h.unitRequest i ▸ h.dispatch _⟩
  · exact ⟨_, _, he, unitCommand_idle_unfit i s' hp (h.operandsFit i ▸ hf), h.reject .width⟩
  · exact ⟨_, _, he, unitCommand_wait i s' hp, h.unitRequest i ▸ h.complete _ _ _⟩
  · exact ⟨_, _, he, unitCommand_done i s' hp, h⟩

/-- Every command but `RDFLAGS` keeps agreement, in whatever phase it runs: LOCAL results come from the operands, a request
from the command and its operands, and an answer from the request. -/
theorem State.Agrees.exec (h : s.Agrees s') (hi : i ≠ .rdflags) : EndAgreeing (exec i s) (exec i s') := by
  cases hl : i.isLocal
  · rw [exec_of_not_local i s hl, exec_of_not_local i s' hl]
    exact h.unitCommand
  · by_cases hc : i = .clrflags
    · subst hc
      exact h.localCommand h.clearFlags
    · obtain ⟨v, fl, he⟩ := exec_of_local_reads_operands hl hi hc
      rw [he, he]
      refine h.localCommand ?_
      rw [h.a, h.b]
      exact h.complete _ _ _

/-! ## Steps -/

theorem step_of_accepting_error {r : Reject} (h : s.Accepting) (hd : decode s.sampled.reqCw = .error r) :
    step s = .next (s.latched.reject r) := by
  obtain ⟨hp, hr, hv⟩ := h
  simpa [hp, hr, hv, hd] using step_cases s

theorem step_of_accepting_ok (h : s.Accepting) (hd : decode s.sampled.reqCw = .ok i) : step s = exec i s.latched := by
  obtain ⟨hp, hr, hv⟩ := h
  simpa [hp, hr, hv, hd] using step_cases s

theorem step_of_wait_answered (hr : s.sampled.rst = false) (hp : s.phase = .wait) (hu : s.sampled.uDone = true)
    (hd : decode s.cw = .ok i) : step s = exec i s.advance := by
  simpa [hp, hr, hu, hd] using step_cases s

theorem step_of_wait_unanswered (hr : s.sampled.rst = false) (hp : s.phase = .wait) (hu : s.sampled.uDone = false) :
    step s = .next s.advance := by
  simpa [hp, hr, hu] using step_cases s

/-- The latch of the same offer makes two blocks agree, whatever they held before. -/
theorem State.Accepting.latched_agrees (h : s.Accepting) (h' : s'.Accepting) (hin : s.sampled = s'.sampled) :
    s.latched.Agrees s'.latched := by
  obtain ⟨hp, -, -⟩ := h
  obtain ⟨hp', -, -⟩ := h'
  apply State.Agrees.of_ne_done <;> simp [State.latched, hp, hp', hin]

/-- Two blocks that accept the same offer, no `RDFLAGS`, end in agreement. -/
theorem State.Accepting.step_endAgreeing (h : s.Accepting) (h' : s'.Accepting) (hin : s.sampled = s'.sampled)
    (hi : decode s.sampled.reqCw ≠ .ok .rdflags) : EndAgreeing (step s) (step s') := by
  have hlatched := h.latched_agrees h' hin
  cases hd : decode s.sampled.reqCw with
  | error r =>
    exact ⟨_, _, step_of_accepting_error h hd, step_of_accepting_error h' (hin ▸ hd), hlatched.reject r⟩
  | ok i =>
    rw [step_of_accepting_ok h hd, step_of_accepting_ok h' (hin ▸ hd)]
    exact hlatched.exec fun hr => hi (hr ▸ hd)

/-- A sound block in WAIT and another with the same command held there end a step under the same inputs in agreement. -/
theorem step_endAgreeing_of_wait (hs : s.Sound) (hp : s.phase = .wait) (hr : s.sampled.rst = false)
    (hin : s.sampled = s'.sampled) (h : s.advance.Agrees s'.advance) : EndAgreeing (step s) (step s') := by
  have hp' : s'.phase = .wait := h.phase.symm.trans hp
  obtain ⟨-, i, hd, hl⟩ := hs.wait hp
  cases hu : s.sampled.uDone
  · exact ⟨_, _, step_of_wait_unanswered hr hp hu, step_of_wait_unanswered (hin ▸ hr) hp' (hin ▸ hu), h⟩
  · have hd' : decode s'.cw = .ok i := (congrArg decode h.cw).symm.trans hd
    rw [step_of_wait_answered hr hp hu hd, step_of_wait_answered (hin ▸ hr) hp' (hin ▸ hu) hd']
    exact h.exec (by rintro rfl; cases hl)

end Sys2Proof.Machine
end

section
/-! The statement on what a response depends on (10_state.md R49). -/

namespace Sys2Proof.Machine

/-- Settles O20: an acceptance latches agreement and an answer finds it, and every command but `RDFLAGS` keeps it. -/
theorem responseDependsOnTheCommandAlone : Obligations.ResponseDependsOnTheCommandAlone := by
  refine ⟨fun s s' t t' hacc hacc' hin hi ht ht' => ?_,
    fun s s' t t' hs _ hp hp' hin hr hcw ha hb hc ht ht' => ?_⟩
  · have h := (hacc.step_endAgreeing hacc' hin hi).agrees ht ht'
    exact ⟨h.phase, h.uReq, h.cw, h.a, h.b, h.c, fun _ => h.response⟩
  · have h : s.advance.Agrees s'.advance :=
      .of_ne_done (by simp [hp]) (hp.trans hp'.symm) rfl hcw ha hb hc
    exact ((step_endAgreeing_of_wait hs hp hr hin h).agrees ht ht').response

end Sys2Proof.Machine
end

section
/-! The command word (30_encoding.md): its fields by arithmetic and in the canonical word, and the decoder's verdict by the
fields. -/

namespace Sys2Proof

/-! ## Fields of a word (R51) -/

section
variable (cw : CmdWord)

@[simp] theorem cwOp_toNat : (cwOp cw).toNat = cw.toNat % 2 ^ 5 :=
  BitVec.extractLsb'_toNat 0 5 cw

@[simp] theorem cwFmt_toNat : (cwFmt cw).toNat = cw.toNat / 2 ^ 5 % 2 ^ 2 := by
  rw [cwFmt, BitVec.extractLsb'_toNat, Nat.shiftRight_eq_div_pow]

@[simp] theorem cwRm_toNat : (cwRm cw).toNat = cw.toNat / 2 ^ 7 % 2 ^ 3 := by
  rw [cwRm, BitVec.extractLsb'_toNat, Nat.shiftRight_eq_div_pow]

/-- The reserved bits reach the top of the word. -/
@[simp] theorem cwRsv_toNat : (cwRsv cw).toNat = cw.toNat / 2 ^ 10 := by
  rw [cwRsv, BitVec.extractLsb'_toNat, Nat.shiftRight_eq_div_pow]
  have := cw.isLt
  omega

theorem cwRsv_eq_zero_iff : cwRsv cw = 0 ↔ cw.toNat / 2 ^ 10 = 0 := by
  rw [BitVec.toNat_eq, cwRsv_toNat]
  rfl

end

/-! ## The canonical word -/

section
variable (i : Instr)

/-- The canonical word as a number: each field at its place. -/
theorem encode_toNat : (encode i).toNat = i.rmCode.toNat * 2 ^ 7 + i.fmtCode.toNat * 2 ^ 5 + i.opcode.toNat := by
  have hf := i.fmtCode.isLt
  have ho := i.opcode.isLt
  simp only [encode, BitVec.toNat_append, BitVec.toNat_ofNat]
  rw [← Nat.shiftLeft_add_eq_or_of_lt ho, ← Nat.shiftLeft_add_eq_or_of_lt hf]
  simp only [Nat.zero_mod, Nat.shiftLeft_eq, Nat.zero_mul, Nat.zero_or]
  omega

@[simp] theorem cwRsv_encode : cwRsv (encode i) = 0 := by
  rw [cwRsv_eq_zero_iff, encode_toNat]
  omega

@[simp] theorem cwOp_encode : cwOp (encode i) = i.opcode := by
  rw [BitVec.toNat_eq, cwOp_toNat, encode_toNat]
  omega

@[simp] theorem cwFmt_encode : cwFmt (encode i) = i.fmtCode := by
  rw [BitVec.toNat_eq, cwFmt_toNat, encode_toNat]
  omega

@[simp] theorem cwRm_encode : cwRm (encode i) = i.rmCode := by
  rw [BitVec.toNat_eq, cwRm_toNat, encode_toNat]
  omega

end

/-! ## The decoder by the fields -/

variable {cw cw' : CmdWord}

theorem decode_of_rsv (h : cwRsv cw ≠ 0) : decode cw = .error .rsvd :=
  if_pos h

theorem decode_of_rsv_zero (h : cwRsv cw = 0) : decode cw = decodeFields (cwOp cw) (cwFmt cw) (cwRm cw) :=
  if_neg (not_not_intro h)

theorem decode_encode (i : Instr) : decode (encode i) = .ok i := by
  rw [decode_of_rsv_zero (cwRsv_encode i), cwOp_encode, cwFmt_encode, cwRm_encode, Machine.decodeFields_codes]

/-! ## Rows of the operation table (R54) -/

theorem Fmt.code_ofCode (f : BitVec 2) : (Fmt.ofCode f).code = f := by
  decide +revert

section
variable {r : BitVec 3}

theorem Rm.ofCode_of_reserved (h : 5 ≤ r.toNat) : Rm.ofCode r = none := by
  decide +revert

theorem Rm.ofCode_of_legal (h : r.toNat < 5) : ∃ rm : Rm, Rm.ofCode r = some rm ∧ rm.code = r := by
  have hcode : (Rm.ofCode r).map Rm.code = some r := by decide +revert
  exact Option.map_eq_some_iff.mp hcode

theorem withMode_of_reserved (h : 5 ≤ r.toNat) (mk : Rm → Instr) : withMode r mk = .error .rm := by
  rw [withMode, Rm.ofCode_of_reserved h]

theorem withMode_of_legal (h : r.toNat < 5) (mk : Rm → Instr) : ∃ rm : Rm, withMode r mk = .ok (mk rm) ∧ rm.code = r := by
  obtain ⟨rm, hrm, hcode⟩ := Rm.ofCode_of_legal h
  exact ⟨rm, by rw [withMode, hrm], hcode⟩

end

variable {op : BitVec 5}

/-- Every operation code below 30 is that of a command. -/
theorem exists_opcode_eq (h : op.toNat < 30) : ∃ i : Instr, i.opcode = op := by
  have hmap : (decodeFields op 0 0).map Instr.opcode = .ok op := by decide +revert
  cases hd : decodeFields op 0 0 with
  | error => cases hd ▸ hmap
  | ok i => exact ⟨i, Except.ok.inj (hd ▸ hmap)⟩

/-- 30 and 31 are reserved (R56). -/
theorem decodeFields_of_reserved (h : 30 ≤ op.toNat) (f : BitVec 2) (r : BitVec 3) : decodeFields op f r = .error .op := by
  obtain rfl | rfl : op = 30 ∨ op = 31 := by bv_omega
  · rfl
  · rfl

namespace Machine

/-- An operation that takes a mode: the mode check decides, and the command carries the codes of the word. -/
theorem decodeFields_of_usesRm (hop : op.toNat < 30) (h : tableUsesRm op.toNat = true) (f : BitVec 2) (r : BitVec 3) :
    ∃ mk : Rm → Instr, decodeFields op f r = withMode r mk ∧
      ∀ rm, (mk rm).opcode = op ∧ (mk rm).fmtCode = f ∧ (mk rm).rmCode = rm.code := by
  obtain ⟨i, rfl⟩ := exists_opcode_eq hop
  cases i
  case bits | classify | eq | lt | le | ltq | leq | cmp | rdflags | clrflags => cases h
  all_goals exact ⟨_, rfl, fun _ => ⟨rfl, Fmt.code_ofCode f, rfl⟩⟩

/-- An operation that takes no mode: no check is left, and the flag commands carry no format. -/
theorem decodeFields_of_not_usesRm (hop : op.toNat < 30) (h : tableUsesRm op.toNat = false) (f : BitVec 2) (r : BitVec 3) :
    ∃ i, decodeFields op f r = .ok i ∧ i.opcode = op ∧ i.fmtCode = (if op.toNat < 28 then f else 0) ∧ i.rmCode = 0 := by
  obtain ⟨i, rfl⟩ := exists_opcode_eq hop
  cases i
  case bits | classify | eq | lt | le | ltq | leq | cmp => exact ⟨_, rfl, rfl, Fmt.code_ofCode f, rfl⟩
  case rdflags | clrflags => exact ⟨_, rfl, rfl, rfl, rfl⟩
  all_goals cases h

/-- The operations that take a mode take a format (R54). -/
theorem lt_28_of_usesRm {n : Nat} (h : tableUsesRm n = true) : n < 28 := by
  simp only [tableUsesRm, Bool.or_eq_true, Bool.and_eq_true, decide_eq_true_eq] at h
  omega

/-- The fields an operation does not use are not read (R59). -/
theorem decodeFields_congr {f f' : BitVec 2} {r r' : BitVec 3} (hf : op.toNat < 28 → f = f')
    (hr : tableUsesRm op.toNat = true → r = r') : decodeFields op f r = decodeFields op f' r' := by
  by_cases hop : op.toNat < 30
  · obtain ⟨i, rfl⟩ := exists_opcode_eq hop
    cases i
    case rdflags | clrflags => rfl
    case bits | classify | eq | lt | le | ltq | leq | cmp =>
      rw [hf (of_decide_eq_true rfl)]
      rfl
    all_goals rw [hf (lt_28_of_usesRm rfl), hr rfl]
  · rw [decodeFields_of_reserved (not_lt.mp hop), decodeFields_of_reserved (not_lt.mp hop)]

/-! ## The verdict on every word (R55) -/

theorem decode_of_reserved_op (hrsv : cwRsv cw = 0) (hop : 30 ≤ (cwOp cw).toNat) : decode cw = .error .op := by
  rw [decode_of_rsv_zero hrsv, decodeFields_of_reserved hop]

theorem decode_of_reserved_rm (hrsv : cwRsv cw = 0) (hop : (cwOp cw).toNat < 30) (hm : tableUsesRm (cwOp cw).toNat = true)
    (hrm : 5 ≤ (cwRm cw).toNat) : decode cw = .error .rm := by
  obtain ⟨mk, hdec, -⟩ := decodeFields_of_usesRm hop hm (cwFmt cw) (cwRm cw)
  rw [decode_of_rsv_zero hrsv, hdec, withMode_of_reserved hrm]

/-- A word with no failing check decodes to the command of its operation code, with the fields the operation uses. -/
theorem decode_of_legal (hrsv : cwRsv cw = 0) (hop : (cwOp cw).toNat < 30)
    (hrm : tableUsesRm (cwOp cw).toNat = true → (cwRm cw).toNat < 5) :
    ∃ i, decode cw = .ok i ∧ i.opcode = cwOp cw ∧ i.fmtCode = (if (cwOp cw).toNat < 28 then cwFmt cw else 0) ∧
      i.rmCode = (if tableUsesRm (cwOp cw).toNat then cwRm cw else 0) := by
  rw [decode_of_rsv_zero hrsv]
  cases hm : tableUsesRm (cwOp cw).toNat
  · exact decodeFields_of_not_usesRm hop hm (cwFmt cw) (cwRm cw)
  · obtain ⟨mk, hdec, hcodes⟩ := decodeFields_of_usesRm hop hm (cwFmt cw) (cwRm cw)
    obtain ⟨rm, hmode, hcode⟩ := withMode_of_legal (hrm hm) mk
    obtain ⟨hopc, hfmt, hrmc⟩ := hcodes rm
    exact ⟨mk rm, hdec.trans hmode, hopc, by rw [hfmt, if_pos (lt_28_of_usesRm hm)], hrmc.trans hcode⟩

theorem decode_congr (hrsv : cwRsv cw = cwRsv cw') (hop : cwOp cw = cwOp cw')
    (hfmt : (cwOp cw).toNat < 28 → cwFmt cw = cwFmt cw')
    (hrm : tableUsesRm (cwOp cw).toNat = true → cwRm cw = cwRm cw') : decode cw = decode cw' := by
  rw [decode, decode, decodeFields_congr hfmt hrm, hrsv, hop]

end Machine

end Sys2Proof
end

section
/-! The checks of an offered command by the arithmetic of its word and operands (40_dispatch.md R72), and the rejection by
the first that fails (60_exceptions.md R176). -/

namespace Sys2Proof

open Machine

variable {cw : CmdWord} {i : Instr} {a b c : XWord}

/-! ## Columns of the operation table (R54) -/

theorem Fmt.width_eq (fmt : Fmt) : fmt.width = 16 * 2 ^ fmt.code.toNat := by
  cases fmt <;> rfl

theorem Instr.arity_eq_table (i : Instr) : i.arity = tableArity i.opcode.toNat := by
  cases i <;> rfl

/-- The flag commands have no operand and so no operand width of their own. -/
theorem Instr.inWidth_eq_table (h : 1 ≤ i.arity) : i.inWidth = tableInWidth i.opcode.toNat i.fmtCode.toNat := by
  cases i
  case rdflags | clrflags => cases h
  case fromU32 | fromU64 | fromI32 | fromI64 => rfl
  all_goals exact Fmt.width_eq _

theorem Instr.opcode_lt_28 (h : 1 ≤ i.arity) : i.opcode.toNat < 28 := by
  cases i
  case rdflags | clrflags => cases h
  all_goals exact of_decide_eq_true rfl

theorem Instr.one_le_arity_of_not_local (h : i.isLocal = false) : 1 ≤ i.arity := by
  cases i
  case rdflags | clrflags => cases h
  all_goals exact of_decide_eq_true rfl

theorem fits_eq_false_iff (w : Nat) (x : XWord) (h : w ≤ 128) : fits w x = false ↔ 2 ^ w ≤ x.toNat := by
  rw [← Bool.not_eq_true, fits_iff_lt w x h, not_lt]

/-- An operand is malformed when the command uses it and a bit above its width is set. -/
theorem Instr.operandsFit_eq_false_iff : i.operandsFit a b c = false ↔
    (1 ≤ i.arity ∧ 2 ^ i.inWidth ≤ a.toNat) ∨ (2 ≤ i.arity ∧ 2 ^ i.inWidth ≤ b.toNat) ∨
      (3 ≤ i.arity ∧ 2 ^ i.inWidth ≤ c.toNat) := by
  simp only [Instr.operandsFit, Bool.and_eq_false_iff, Bool.or_eq_false_iff, decide_eq_false_iff_not, not_lt,
    fits_eq_false_iff _ _ i.inWidth_le, or_assoc]

namespace Machine

/-- The operand check of the decoded command by the codes of its word. -/
theorem operandsFit_eq_false_iff_table (hop : i.opcode = cwOp cw)
    (hfmt : i.fmtCode = if (cwOp cw).toNat < 28 then cwFmt cw else 0) :
    let w := tableInWidth (cwOp cw).toNat (cwFmt cw).toNat
    i.operandsFit a b c = false ↔
      (1 ≤ tableArity (cwOp cw).toNat ∧ 2 ^ w ≤ a.toNat) ∨ (2 ≤ tableArity (cwOp cw).toNat ∧ 2 ^ w ≤ b.toNat) ∨
        (3 ≤ tableArity (cwOp cw).toNat ∧ 2 ^ w ≤ c.toNat) := by
  rw [Instr.operandsFit_eq_false_iff, ← hop, ← i.arity_eq_table]
  by_cases h : 1 ≤ i.arity
  · rw [Instr.inWidth_eq_table h, hfmt, if_pos (hop ▸ Instr.opcode_lt_28 h), hop]
  · omega

/-- The verdict of `validate` is the first failing check (R72). -/
theorem validate_eq_firstFailure (cw : CmdWord) (a b c : XWord) :
    validate cw a b c = (firstFailure cw.toNat a.toNat b.toNat c.toNat).elim .ok .rejected := by
  simp only [firstFailure, ne_eq, ← cwRsv_eq_zero_iff, ← cwOp_toNat, ← cwFmt_toNat, ← cwRm_toNat]
  by_cases h0 : cwRsv cw = 0
  · simp only [h0, not_true_eq_false, if_false]
    split_ifs with hop hrm hw
    · exact validate_of_error (decode_of_reserved_op h0 hop)
    · exact validate_of_error (decode_of_reserved_rm h0 (not_le.mp hop) hrm.1 hrm.2)
    all_goals
      obtain ⟨i, hd, hi, hf, -⟩ := decode_of_legal h0 (not_le.mp hop) fun hm => not_le.mp fun hle => hrm ⟨hm, hle⟩
    · exact validate_of_unfit hd ((operandsFit_eq_false_iff_table hi hf).mpr hw)
    · exact validate_of_fit hd (Bool.not_eq_false _ ▸ mt (operandsFit_eq_false_iff_table hi hf).mp hw)
  · rw [if_pos h0]
    exact validate_of_error (decode_of_rsv h0)

/-- The two ways a rejection comes about: by the word or by an operand (R72). -/
theorem validate_eq_rejected_iff {r : Reject} : validate cw a b c = .rejected r ↔
    decode cw = .error r ∨ ∃ i, decode cw = .ok i ∧ i.operandsFit a b c = false ∧ r = .width := by
  cases hd : decode cw with
  | error r' => simp [validate_of_error hd]
  | ok i =>
    cases hf : i.operandsFit a b c
    · simp [validate_of_unfit hd hf, hf, eq_comm (a := r)]
    · simp [validate_of_fit hd hf, hf]

/-- An offer that `validate` rejects is rejected in the step that accepts it (R71, R176). -/
theorem step_of_accepting_rejected {s : State} {r : Reject} (h : s.Accepting)
    (hv : validate s.sampled.reqCw s.sampled.reqA s.sampled.reqB s.sampled.reqC = .rejected r) :
    step s = .next (s.latched.reject r) := by
  obtain hd | ⟨i, hd, hf, rfl⟩ := validate_eq_rejected_iff.mp hv
  · exact step_of_accepting_error h hd
  · rw [step_of_accepting_ok h hd]
    exact exec_idle_unfit i s.latched h.1 hf

end Machine

end Sys2Proof
end

section
/-! Operand ports a command does not use (R59): no meaning reads them. -/

namespace Sys2Proof.Machine

variable {i : Instr} {s t : State} {x y z : XWord}

/-- `s` with other values in the operand registers. -/
def State.withOperands (s : State) (x y z : XWord) : State := { s with a := x, b := y, c := z }

/-- `x`, `y`, `z` are what `s` holds in the operand registers the command uses, and anything in the others. -/
structure State.Supplies (s : State) (i : Instr) (x y z : XWord) : Prop where
  a : 1 ≤ i.arity → x = s.a
  b : 2 ≤ i.arity → y = s.b
  c : 3 ≤ i.arity → z = s.c

theorem State.Supplies.operandsFit (h : s.Supplies i x y z) :
    i.operandsFit x y z = i.operandsFit s.a s.b s.c := by
  rw [Bool.eq_iff_iff, ← not_iff_not, Bool.not_eq_true, Bool.not_eq_true, Instr.operandsFit_eq_false_iff,
    Instr.operandsFit_eq_false_iff]
  exact or_congr (and_congr_right fun ha => by rw [h.a ha]) (or_congr (and_congr_right fun hb => by rw [h.b hb])
    (and_congr_right fun hc => by rw [h.c hc]))

/-- The request carries the operands the command uses, and zeros (R81). -/
theorem State.Supplies.unitRequest (h : s.Supplies i x y z) (hl : i.isLocal = false) :
    (s.withOperands x y z).unitRequest i = s.unitRequest i := by
  have ha : x = s.a := h.a (Instr.one_le_arity_of_not_local hl)
  have hb : (if 2 ≤ i.arity then y else 0) = if 2 ≤ i.arity then s.b else 0 := ite_congr rfl h.b fun _ => rfl
  have hc : (if 3 ≤ i.arity then z else 0) = if 3 ≤ i.arity then s.c else 0 := ite_congr rfl h.c fun _ => rfl
  simp only [State.unitRequest, State.withOperands, ha, hb, hc]

/-- A LOCAL command finishes by what it computes from the operands it uses; the operand registers keep their values. -/
theorem exec_of_local_supplied (hl : i.isLocal = true) :
    ∃ finish : State → State, (∀ t, exec i t = localCommand i finish t) ∧
      ∀ {s x y z}, s.Supplies i x y z → finish (s.withOperands x y z) = (finish s).withOperands x y z := by
  cases i
  case bits | classify =>
    refine ⟨_, fun _ => rfl, fun h => ?_⟩
    rw [h.a (of_decide_eq_true rfl)]
    rfl
  case toF16 | toF32 | toF64 | toF128 =>
    obtain rfl := eq_of_beq hl
    refine ⟨_, fun _ => rfl, fun h => ?_⟩
    rw [h.a (of_decide_eq_true rfl)]
    rfl
  case eq | lt | le | ltq | leq | cmp =>
    refine ⟨_, fun _ => rfl, fun h => ?_⟩
    rw [h.a (of_decide_eq_true rfl), h.b (of_decide_eq_true rfl)]
    rfl
  case rdflags | clrflags => exact ⟨_, fun _ => rfl, fun _ => rfl⟩
  all_goals cases hl

theorem unitCommand_withOperands (h : s.Supplies i x y z) (hl : i.isLocal = false) (he : unitCommand i s = .next t) :
    unitCommand i (s.withOperands x y z) = .next (t.withOperands x y z) := by
  obtain ⟨hp, hf, hc⟩ | ⟨hp, hf, hc⟩ | ⟨hp, hc⟩ | ⟨hp, hc⟩ := unitCommand_cases i s <;> cases hc.symm.trans he
  · rw [unitCommand_idle i (s.withOperands x y z) hp (h.operandsFit.trans hf), h.unitRequest hl]
    rfl
  · exact unitCommand_idle_unfit i (s.withOperands x y z) hp (h.operandsFit.trans hf)
  · rw [unitCommand_wait i (s.withOperands x y z) hp, h.unitRequest hl]
    rfl
  · exact unitCommand_done i (s.withOperands x y z) hp

theorem localCommand_withOperands {finish : State → State} (h : s.Supplies i x y z)
    (hfin : finish (s.withOperands x y z) = (finish s).withOperands x y z) (he : localCommand i finish s = .next t) :
    localCommand i finish (s.withOperands x y z) = .next (t.withOperands x y z) := by
  by_cases hp : s.phase = .idle
  · cases hf : i.operandsFit s.a s.b s.c
    · cases (localCommand_idle_unfit i finish s hp hf).symm.trans he
      exact localCommand_idle_unfit i finish (s.withOperands x y z) hp (h.operandsFit.trans hf)
    · cases (localCommand_idle i finish s hp hf).symm.trans he
      rw [localCommand_idle i finish (s.withOperands x y z) hp (h.operandsFit.trans hf), hfin]
  · cases (localCommand_busy i finish s hp).symm.trans he
    exact localCommand_busy i finish (s.withOperands x y z) hp

/-- A meaning reads the operands its command uses, and passes the others on. -/
theorem exec_withOperands (h : s.Supplies i x y z) (he : exec i s = .next t) :
    exec i (s.withOperands x y z) = .next (t.withOperands x y z) := by
  cases hl : i.isLocal
  · rw [exec_of_not_local i _ hl] at he ⊢
    exact unitCommand_withOperands h hl he
  · obtain ⟨finish, hloc, hfin⟩ := exec_of_local_supplied hl
    rw [hloc] at he ⊢
    exact localCommand_withOperands h (hfin h) he

end Sys2Proof.Machine
end

section
/-! The statements on the encoding (30_encoding.md), and the rejection by the checks it defines (R57, R176). -/

namespace Sys2Proof.Machine

/-- Settles O1: each field of the canonical word is the command's code, and the codes name the command. -/
theorem decodeOfEncodeIsTheCommand : Obligations.DecodeOfEncodeIsTheCommand :=
  decode_encode

/-- Settles O2: the fields of the word are its slices by arithmetic, and the decoder's verdict goes by them. -/
theorem decodeIsTotalAndInOrder : Obligations.DecodeIsTotalAndInOrder := by
  intro cw
  simp only [← cwRsv_eq_zero_iff, ← cwOp_toNat, ← cwFmt_toNat, ← cwRm_toNat, ne_eq]
  refine ⟨decode_of_rsv, decode_of_reserved_op, decode_of_reserved_rm, fun h0 hop hrm => ?_⟩
  obtain ⟨i, hd, hi, hf, hr⟩ := decode_of_legal h0 hop hrm
  exact ⟨i, hd, congrArg _ hi, by rw [hf, apply_ite BitVec.toNat]; rfl, by rw [hr, apply_ite BitVec.toNat]; rfl⟩

/-- Settles O3: the decoder reads no more of the word than the command carries, and a meaning no more than its operands. -/
theorem unusedFieldsAndPortsAreIgnored : Obligations.UnusedFieldsAndPortsAreIgnored := by
  refine ⟨fun cw cw' hop hrsv hfmt hrm => ?_, fun i s x y z => ?_⟩
  · simp only [← cwRsv_toNat, ← cwOp_toNat, ← cwFmt_toNat, ← cwRm_toNat, ← BitVec.toNat_eq] at hop hrsv hfmt hrm
    exact decode_congr hrsv hop hfmt hrm
  · obtain ⟨t, ht⟩ := exec_next i s
    refine ⟨t.withOperands s.a s.b s.c, ?_, fun h => ?_, fun h => ?_, fun h => ?_⟩
    · exact exec_withOperands (t := t) ⟨fun _ => rfl, fun _ => rfl, fun _ => rfl⟩ ht
    · exact exec_withOperands (t := t) ⟨fun _ => rfl, fun _ => rfl, fun hc => by omega⟩ ht
    · exact exec_withOperands (t := t) ⟨fun _ => rfl, fun hb => by omega, fun hc => by omega⟩ ht
    · exact exec_withOperands (t := t) ⟨fun ha => by omega, fun hb => by omega, fun hc => by omega⟩ ht

/-- Settles O7: the first failing check is the verdict of `validate`, and an offer rejected by it is latched and rejected. -/
theorem rejectionReportsFirstFailureOnly : Obligations.RejectionReportsFirstFailureOnly := by
  intro s r hacc hfirst
  exact step_of_accepting_rejected hacc (by rw [validate_eq_firstFailure, hfirst]; rfl)

/-- Settles O4: eight of the words are canonical, `EQ` ignores its mode field, and the last three fail the check of their
field. -/
theorem workedEncodingsDecode : Obligations.WorkedEncodingsDecode :=
  ⟨decode_encode (.classify .f16), decode_encode (.add .f32 .rne), decode_encode (.add .f32 .rdn),
    decode_encode (.fma .f128 .rmm), decode_encode (.cmp .f32), decode_encode (.toU32 .f32 .rtz),
    decode_encode (.toF16 .f32 .rtz), decode_encode .clrflags, rfl, rfl, rfl, rfl⟩

end Sys2Proof.Machine
end

section
/-! The steps phase by phase (40_dispatch.md R71, R86, R89, R91): what an accepted offer, a dispatched command at the units, a
held response and an idle block do, and the codes a dispatched command carries into its request (R81). -/

namespace Sys2Proof.Machine

variable {s t : State} {i : Instr}

/-! ## Acceptance -/

/-- Everything the acceptance of an offer can do: reject it, complete a LOCAL command, or dispatch one to the units; which of
the three `validate` and the table of LOCAL commands say. -/
theorem step_of_accepting_cases (h : s.Accepting) :
    (∃ r, validate s.sampled.reqCw s.sampled.reqA s.sampled.reqB s.sampled.reqC = .rejected r ∧
      step s = .next (s.latched.reject r)) ∨
    (validate s.sampled.reqCw s.sampled.reqA s.sampled.reqB s.sampled.reqC = .ok ∧
      ∃ i, decode s.sampled.reqCw = .ok i ∧ i.isLocal = true ∧ ∃ v fl acc,
        step s = .next { s.latched with res := v, rflags := fl, fflags := acc, status := .ok, phase := .done }) ∨
    (validate s.sampled.reqCw s.sampled.reqA s.sampled.reqB s.sampled.reqC = .ok ∧
      ∃ i, decode s.sampled.reqCw = .ok i ∧ i.isLocal = false ∧
        step s = .next (s.latched.dispatch (s.latched.unitRequest i))) := by
  cases hv : validate s.sampled.reqCw s.sampled.reqA s.sampled.reqB s.sampled.reqC with
  | rejected r => exact .inl ⟨r, rfl, step_of_accepting_rejected h hv⟩
  | ok =>
    cases hd : decode s.sampled.reqCw with
    | error r => cases (validate_of_error hd).symm.trans hv
    | ok i =>
      rw [step_of_accepting_ok h hd]
      obtain ⟨hf, -⟩ | ⟨-, hl, v, fl, acc, -, he⟩ | ⟨-, hl, he⟩ := exec_idle_cases s.latched i h.1
      · cases (validate_of_unfit hd hf).symm.trans hv
      · exact .inr (.inl ⟨rfl, i, rfl, hl, v, fl, acc, he⟩)
      · exact .inr (.inr ⟨rfl, i, rfl, hl, he⟩)

/-- A valid dispatched command presents its request (R81). -/
theorem step_of_accepting_dispatched (h : s.Accepting) (hd : decode s.sampled.reqCw = .ok i) (hl : i.isLocal = false)
    (hf : i.operandsFit s.sampled.reqA s.sampled.reqB s.sampled.reqC = true) :
    step s = .next (s.latched.dispatch (s.latched.unitRequest i)) := by
  rw [step_of_accepting_ok h hd, exec_of_not_local i s.latched hl]
  exact unitCommand_idle i s.latched h.1 hf

/-! ## The other steps -/

theorem step_of_idle_unoffered (hr : s.sampled.rst = false) (hp : s.phase = .idle) (hv : s.sampled.reqValid = false) :
    step s = .next s.advance := by
  simpa [hp, hr, hv] using step_cases s

/-- A dispatched command held in WAIT takes the answer to its request (R86). -/
theorem step_of_wait_dispatched (hr : s.sampled.rst = false) (hp : s.phase = .wait) (hu : s.sampled.uDone = true)
    (hd : decode s.cw = .ok i) (hl : i.isLocal = false) :
    step s = .next (s.advance.takeAnswer i.outWidth (Units.answer (s.unitRequest i))) := by
  rw [step_of_wait_answered hr hp hu hd, exec_of_not_local i s.advance hl]
  exact unitCommand_wait i s.advance hp

theorem step_of_done_taken (hr : s.sampled.rst = false) (hp : s.phase = .done) (hv : s.sampled.rspReady = true) :
    step s = .next s.advance.deliver := by
  simpa [hp, hr, hv] using step_cases s

theorem step_of_done_untaken (hr : s.sampled.rst = false) (hp : s.phase = .done) (hv : s.sampled.rspReady = false) :
    step s = .next s.advance := by
  simpa [hp, hr, hv] using step_cases s

/-- The pulse of `u_valid` lasts one step: no step from WAIT presents a request (R81). -/
theorem uReq_eq_none_of_step_wait (hp : s.phase = .wait) (h : step s = .next t) : t.uReq = none := by
  have hs := step_cases s
  simp only [hp, reduceCtorEq, false_and, and_false, false_or, or_false, true_and] at hs
  obtain ⟨-, he⟩ | ⟨-, -, i, -, he⟩ | ⟨-, he, -⟩ := hs
  · cases he.symm.trans h
    rfl
  · obtain ⟨-, hw⟩ | ⟨-, hw⟩ := exec_wait_cases s.advance i hp <;> cases (he.trans hw).symm.trans h <;> rfl
  · cases he.symm.trans h
    rfl

/-! ## The codes of a request -/

/-- A word that decodes gives its command the codes of the fields the operation uses, and zeros. -/
theorem codes_of_decode {cw : CmdWord} (h : decode cw = .ok i) :
    i.opcode = cwOp cw ∧ i.fmtCode = (if (cwOp cw).toNat < 28 then cwFmt cw else 0) ∧
      i.rmCode = (if tableUsesRm (cwOp cw).toNat then cwRm cw else 0) := by
  have hrsv : cwRsv cw = 0 := by_contra fun hne => by cases (decode_of_rsv hne).symm.trans h
  have hop : (cwOp cw).toNat < 30 := not_le.mp fun hle => by cases (decode_of_reserved_op hrsv hle).symm.trans h
  have hrm : tableUsesRm (cwOp cw).toNat = true → (cwRm cw).toNat < 5 := fun hm =>
    not_le.mp fun hle => by cases (decode_of_reserved_rm hrsv hop hm hle).symm.trans h
  obtain ⟨j, hd, hcodes⟩ := decode_of_legal hrsv hop hrm
  cases hd.symm.trans h
  exact hcodes

theorem usesRm_of_not_local (h : i.isLocal = false) : tableUsesRm i.opcode.toNat = true := by
  cases i
  case bits | classify | eq | lt | le | ltq | leq | cmp | rdflags | clrflags => cases h
  all_goals rfl

/-- A dispatched command uses every field of its word. -/
theorem codes_of_decode_dispatched {cw : CmdWord} (h : decode cw = .ok i) (hl : i.isLocal = false) :
    i.opcode = cwOp cw ∧ i.fmtCode = cwFmt cw ∧ i.rmCode = cwRm cw := by
  obtain ⟨hop, hfmt, hrm⟩ := codes_of_decode h
  have hm : tableUsesRm (cwOp cw).toNat = true := hop ▸ usesRm_of_not_local hl
  exact ⟨hop, hfmt.trans (if_pos (lt_28_of_usesRm hm)), hrm.trans (if_pos hm)⟩

/-- The mode of a command is one of the five (R53). -/
theorem rmCode_lt_five (i : Instr) : i.rmCode.toNat < 5 := by
  have hcode : ∀ rm : Rm, rm.code.toNat < 5 := by
    intro rm
    cases rm <;> decide
  cases i
  case bits | classify | eq | lt | le | ltq | leq | cmp | rdflags | clrflags => exact of_decide_eq_true rfl
  all_goals exact hcode _

/-- A dispatched command selects a unit (R82). -/
theorem unitSelect_ne_zero (h : i.isLocal = false) : i.unitSelect ≠ 0 := by
  cases i
  case bits | classify | eq | lt | le | ltq | leq | cmp | rdflags | clrflags => cases h
  all_goals exact of_decide_eq_true rfl

end Sys2Proof.Machine
end

section
/-! Runs of a command that the requester takes at the first occasion (40_dispatch.md R85, 70_reset_and_hazards.md R195). -/

namespace Sys2Proof.Machine

variable {s t : State} {p : Inputs} {rest : List Inputs} {st : Status}

/-- `k` steps from `s` leave the block idle, with the inputs `rest` still to come and `st` in `STATUS`. -/
def EndsIdle (k : Nat) (s : State) (rest : List Inputs) (st : Status) : Prop :=
  ∃ t, core.run k s = .next t ∧ State.phase t = .idle ∧ State.inputs t = rest ∧ State.status t = st

theorem run_succ {M : Host.Core} {s t : M.State} (k : Nat) (h : M.step s = .next t) : M.run (k + 1) s = M.run k t := by
  rw [Host.Core.run, h]

theorem EndsIdle.step {k : Nat} (hs : step s = .next t) (h : EndsIdle k t rest st) : EndsIdle (k + 1) s rest st := by
  obtain ⟨u, hu, hend⟩ := h
  exact ⟨u, (run_succ (M := core) k hs).trans hu, hend⟩

theorem sampled_of_inputs (h : s.inputs = p :: rest) : s.sampled = p := by
  rw [State.sampled, h, List.headD_cons]

/-- A held response that the requester takes leaves the block idle, its status unchanged. -/
theorem endsIdle_of_done (hp : s.phase = .done) (hin : s.inputs = p :: rest) (hr : p.rst = false)
    (hv : p.rspReady = true) : EndsIdle 1 s rest s.status := by
  obtain rfl := sampled_of_inputs hin
  exact .step (step_of_done_taken hr hp hv) ⟨s.advance.deliver, rfl, rfl, congrArg List.tail hin, rfl⟩

end Sys2Proof.Machine
end

section
/-! Answers and contracts (40_dispatch.md R84, R86, R88): an answer made to meet a contract meets it, one that meets it
already is not changed, and a contract asks for NaNs of the result width only. -/

namespace Sys2Proof

theorem low_eq_ofNat (w : Nat) (x : XWord) (h : w ≤ 128) : low w x = BitVec.ofNat 128 (x.toNat % 2 ^ w) := by
  rw [← low_toNat w x h, BitVec.ofNat_toNat, BitVec.setWidth_eq]

theorem getLsbD_low {w k : Nat} (x : XWord) (h : w ≤ k) : (low w x).getLsbD k = false := by
  simp [low, BitVec.getLsbD_setWidth, h]

namespace Machine

/-! ## Imposing a contract -/

/-- A NaN the result asks for is one of a format of the given width. -/
def ResultSpec.NaNWidth (w : Nat) : ResultSpec → Prop
  | .bits _ => True
  | .anyNaN fmt => fmt.width = w

section
variable {k : Contract} {w : Nat} (hk : k.res.NaNWidth w)
include hk

/-- An answer made to meet a contract meets it (R84). -/
theorem Contract.meets_impose (ans : UnitAnswer) : k.Meets w (k.impose ans) := by
  have hflags : k.must ||| (k.may &&& imposeFlags k ans.flags) = imposeFlags k ans.flags := by
    rw [imposeFlags_eq]
    ext j
    cases hj : k.must[j] <;> simp [hj]
  obtain ⟨p | fmt, must, may⟩ := k
  · exact ⟨rfl, hflags⟩
  · obtain rfl : fmt.width = w := hk
    exact ⟨isNaN_low_someNaN fmt ans.res, hflags⟩

/-- Imposing a contract on an answer that meets it changes nothing the block reads. -/
theorem Contract.impose_of_meets {ans : UnitAnswer} (h : k.Meets w ans) :
    low w (k.impose ans).res = low w ans.res ∧ (k.impose ans).flags = ans.flags := by
  obtain ⟨hres, hfl⟩ := h
  refine ⟨?_, (imposeFlags_eq k ans.flags).trans hfl⟩
  obtain ⟨p | fmt, must, may⟩ := k
  · exact hres.symm
  · obtain rfl : fmt.width = w := hk
    have hnan : fmt.isNaN ans.res = true := (isNaN_low fmt ans.res).symm.trans hres
    simp only [Contract.impose, imposeResult, someNaN, hnan, if_true]
    exact low_low fmt.width ans.res fmt.width_le

end

/-! ## The NaNs a contract asks for -/

variable {fmt : Fmt}

theorem ofValue_nanWidth (rm : Rm) (v : Value) (w : Nat) : (Contract.ofValue fmt rm v).res.NaNWidth w := by
  cases v with
  | inf => trivial
  | fin neg m e =>
    rw [Contract.ofValue]
    split_ifs <;> trivial

theorem withNaNs_nanWidth (ops : List XWord) {k : Contract} (h : k.res.NaNWidth fmt.width) :
    (withNaNs fmt ops k).res.NaNWidth fmt.width := by
  rw [withNaNs]
  split_ifs
  · rfl
  · exact h

theorem addValues_nanWidth (rm : Rm) (u v : Value) : (addValues fmt rm u v).res.NaNWidth fmt.width := by
  cases u <;> cases v
  case inf.inf =>
    rw [addValues]
    split_ifs <;> trivial
  case fin.fin =>
    rw [addValues, sumFinite]
    split_ifs <;> trivial
  all_goals trivial

theorem divValues_nanWidth (rm : Rm) (u v : Value) : (divValues fmt rm u v).res.NaNWidth fmt.width := by
  cases u <;> cases v
  case fin.fin =>
    rw [divValues]
    split_ifs <;> trivial
  all_goals trivial

theorem mulContract_nanWidth (rm : Rm) (a b : XWord) : (mulContract fmt rm a b).res.NaNWidth fmt.width := by
  refine withNaNs_nanWidth _ ?_
  cases mulValues (valueOf fmt a) (valueOf fmt b) with
  | none => rfl
  | some v => exact ofValue_nanWidth rm v _

theorem fmaContract_nanWidth (rm : Rm) (a b c : XWord) : (fmaContract fmt rm a b c).res.NaNWidth fmt.width := by
  rw [fmaContract]
  split_ifs
  · rfl
  · rfl
  · cases mulValues (valueOf fmt a) (valueOf fmt b) with
    | none => rfl
    | some p => exact addValues_nanWidth rm p _

theorem remContract_nanWidth (a b : XWord) : (remContract fmt a b).res.NaNWidth fmt.width := by
  rw [remContract]
  split_ifs
  · rfl
  · cases valueOf fmt a <;> cases valueOf fmt b
    case fin.fin =>
      rw [remValues]
      split_ifs
      · rfl
      · trivial
      · exact ofValue_nanWidth _ _ _
    all_goals trivial

theorem sqrtValue_nanWidth (rm : Rm) (v : Value) : (sqrtValue fmt rm v).res.NaNWidth fmt.width := by
  cases v <;> rw [sqrtValue] <;> split_ifs <;> trivial

theorem rintValue_nanWidth (rm : Rm) (a : XWord) (v : Value) : (rintValue fmt rm a v).res.NaNWidth fmt.width := by
  cases v with
  | inf => trivial
  | fin neg m e =>
    rw [rintValue]
    split_ifs
    · exact ofValue_nanWidth _ _ _
    · trivial

/-- A conversion to an integer has a determined result also for a NaN (R149). -/
theorem toIntContract_nanWidth (t : IntTy) (rm : Rm) (a : XWord) (w : Nat) :
    (toIntContract t fmt rm a).res.NaNWidth w := by
  rw [toIntContract]
  split_ifs
  · trivial
  · cases valueOf fmt a with
    | inf => trivial
    | fin neg m e =>
      rw [toIntValue]
      split_ifs <;> trivial

theorem toFloatContract_nanWidth (dst : Fmt) (rm : Rm) (a : XWord) :
    (toFloatContract dst fmt rm a).res.NaNWidth dst.width := by
  rw [toFloatContract]
  split_ifs
  · rfl
  · exact ofValue_nanWidth rm _ _

/-- The contract of a command asks for a NaN of the result width, if for one. -/
theorem contractOf_nanWidth {i : Instr} {a b c : XWord} {k : Contract} (h : contractOf i a b c = some k) :
    k.res.NaNWidth i.outWidth := by
  cases i <;> cases h
  case add | sub => exact withNaNs_nanWidth _ (addValues_nanWidth _ _ _)
  case mul => exact mulContract_nanWidth _ _ _
  case div => exact withNaNs_nanWidth _ (divValues_nanWidth _ _ _)
  case fma => exact fmaContract_nanWidth _ _ _ _
  case rem => exact remContract_nanWidth _ _
  case sqrt => exact withNaNs_nanWidth _ (sqrtValue_nanWidth _ _)
  case rint => exact withNaNs_nanWidth _ (rintValue_nanWidth _ _ _)
  case fromU32 | fromU64 | fromI32 | fromI64 => exact ofValue_nanWidth _ _ _
  case toU32 | toU64 | toI32 | toI64 => exact toIntContract_nanWidth _ _ _ _
  case toF16 | toF32 | toF64 | toF128 => exact toFloatContract_nanWidth _ _ _

end Machine

end Sys2Proof
end

section
/-! The statements on the dispatch (40_dispatch.md). -/

namespace Sys2Proof.Machine

/-- Settles O14: by the phase and by what is offered, answered or taken in it; soundness is needed in WAIT, where it says
that a dispatched command is held. -/
theorem transitionTableIsComplete : Obligations.TransitionTableIsComplete := by
  intro s t hs hr h
  cases hp : s.phase with
  | idle =>
    cases hv : s.sampled.reqValid
    · cases (step_of_idle_unoffered hr hp hv).symm.trans h
      exact .inl ⟨.inl ⟨rfl, rfl⟩, by rw [← hp]; rfl⟩
    · refine .inr ?_
      obtain ⟨r, hval, he⟩ | ⟨hval, i, hd, hl, v, fl, acc, he⟩ | ⟨hval, i, hd, hl, he⟩ :=
        step_of_accepting_cases ⟨hp, hr, hv⟩ <;> cases he.symm.trans h
      · exact .inl ⟨rfl, rfl, rfl, rfl, rfl, rfl, rfl, rfl, hval.trans_ne nofun, hval.symm, rfl, rfl, rfl⟩
      · exact .inr (.inl ⟨rfl, rfl, rfl, rfl, rfl, rfl, rfl, rfl, hval, rfl, i, hd, hl⟩)
      · exact .inr (.inr (.inl ⟨rfl, rfl, rfl, rfl, rfl, rfl, rfl, hval, rfl, rfl, rfl, rfl, i, hd, hl, rfl⟩))
  | wait =>
    cases hu : s.sampled.uDone
    · cases (step_of_wait_unanswered hr hp hu).symm.trans h
      exact .inl ⟨.inr (.inl ⟨rfl, rfl⟩), by rw [← hp]; rfl⟩
    · obtain ⟨-, i, hd, hl⟩ := hs.wait hp
      cases (step_of_wait_dispatched hr hp hu hd hl).symm.trans h
      exact .inr (.inr (.inr (.inr (.inl ⟨rfl, rfl, rfl⟩))))
  | done =>
    cases hv : s.sampled.rspReady
    · cases (step_of_done_untaken hr hp hv).symm.trans h
      exact .inl ⟨.inr (.inr ⟨rfl, rfl⟩), by rw [← hp]; rfl⟩
    · cases (step_of_done_taken hr hp hv).symm.trans h
      exact .inr (.inr (.inr (.inr (.inr ⟨rfl, rfl, rfl⟩))))

/-- Settles O15: the request of the latched command, whose codes are the fields of the word. -/
theorem requestRoutesTheCommandUnchanged : Obligations.RequestRoutesTheCommandUnchanged := by
  intro s i hacc hd hl hf
  obtain ⟨hop, hfmt, hrm⟩ := codes_of_decode_dispatched hd hl
  exact ⟨_, _, step_of_accepting_dispatched hacc hd hl hf, rfl, rfl, rfl, unitSelect_ne_zero hl,
    (congrArg _ hop).trans (cwOp_toNat _), (congrArg _ hfmt).trans (cwFmt_toNat _), (congrArg _ hrm).trans (cwRm_toNat _),
    rmCode_lt_five i, rfl, rfl, rfl, fun _ => uReq_eq_none_of_step_wait rfl⟩

/-- Settles O21: a rejection and a LOCAL completion are delivered by the next step, a dispatched command is answered
first. -/
theorem commandsCompleteInBoundedSteps : Obligations.CommandsCompleteInBoundedSteps := by
  intro s p q r rest hp hin hpr hqr hrr hpv hqu hqv hrv
  obtain rfl := sampled_of_inputs hin
  have htail : s.latched.inputs = q :: r :: rest := congrArg List.tail hin
  obtain ⟨e, hval, he⟩ | ⟨hval, i, hd, hl, v, fl, acc, he⟩ | ⟨hval, i, hd, hl, he⟩ :=
    step_of_accepting_cases ⟨hp, hpr, hpv⟩ <;> rw [hval]
  · exact ⟨fun _ => EndsIdle.step he (endsIdle_of_done rfl htail hqr hqv), nofun⟩
  · refine ⟨fun _ => EndsIdle.step he (endsIdle_of_done rfl htail hqr hqv), fun _ ⟨j, hj, hjl⟩ => ?_⟩
    cases hd.symm.trans hj
    exact nomatch hl.symm.trans hjl
  · refine ⟨fun h => ?_, fun _ _ => ?_⟩
    · obtain h | ⟨j, hj, hjl⟩ := h
      · exact absurd rfl h
      · cases hd.symm.trans hj
        exact nomatch hl.symm.trans hjl
    · obtain rfl : (s.latched.dispatch (s.latched.unitRequest i)).sampled = q := sampled_of_inputs htail
      have hanswer := step_of_wait_dispatched hqr rfl hqu hd hl
      exact EndsIdle.step he (.step hanswer (endsIdle_of_done rfl (congrArg List.tail htail) hrr hrv))

/-- Settles O37: the answer to a request is made to meet the contract, and that is enough for every contract. -/
theorem unitsMeetTheContract : Obligations.UnitsMeetTheContract := by
  intro i s k _ hk
  rw [answer_request hk]
  exact Contract.meets_impose (contractOf_nanWidth hk) _

/-- Settles O38: a determined result and the flags are already as the contract says, and a NaN of the format is kept. -/
theorem imposingAddsNothingToTheContract : Obligations.ImposingAddsNothingToTheContract :=
  fun _ _ _ _ _ _ hk => Contract.impose_of_meets (contractOf_nanWidth hk)

/-- Settles O5: the acceptance of a word that decodes. -/
theorem acceptRunsTheDecodedCommand : Obligations.AcceptRunsTheDecodedCommand :=
  fun _ _ => step_of_accepting_ok

/-- Settles O6: the two steps from WAIT. -/
theorem answerRunsTheLatchedCommand : Obligations.AnswerRunsTheLatchedCommand := by
  intro s i hp hr hd
  cases hu : s.sampled.uDone
  · exact step_of_wait_unanswered hr hp hu
  · exact step_of_wait_answered hr hp hu hd

/-- Settles O9: the two steps from DONE, where the response is visible. -/
theorem deliveryFreesTheBlock : Obligations.DeliveryFreesTheBlock := by
  intro s hp hr
  refine ⟨by simp [State.response, State.rspValid, hp], ?_⟩
  cases hv : s.sampled.rspReady
  · rw [step_of_done_untaken hr hp hv, State.advance, hp]
    rfl
  · exact step_of_done_taken hr hp hv

/-- Settles O12: the step from IDLE with nothing offered. -/
theorem idleWithoutOfferHoldsEverything : Obligations.IdleWithoutOfferHoldsEverything :=
  fun _ hp hr => step_of_idle_unoffered hr hp

/-- Settles O36: a completion takes the low bits of the result, which are its number modulo `2^w`. -/
theorem completionMasksAnyAnswer : Obligations.CompletionMasksAnyAnswer := by
  intro s w ans hw
  refine ⟨?_, fun k hk => getLsbD_low ans.res hk⟩
  rw [State.takeAnswer, State.complete, low_eq_ofNat w ans.res hw]
  rfl

end Sys2Proof.Machine
end

section
/-! A command word put together from its fields (30_encoding.md R51), and the one operand of a unary command (R43). -/

namespace Sys2Proof

/-! ## A word by its fields -/

section
variable (op : BitVec 5) (f : BitVec 2) (r : BitVec 3)

@[simp] theorem cwOp_append : cwOp (0#6 ++ r ++ f ++ op) = op :=
  BitVec.extractLsb'_append_eq_right

@[simp] theorem cwFmt_append : cwFmt (0#6 ++ r ++ f ++ op) = f := by
  rw [cwFmt, BitVec.extractLsb'_append_eq_of_le (by decide)]
  exact BitVec.extractLsb'_append_eq_right

@[simp] theorem cwRm_append : cwRm (0#6 ++ r ++ f ++ op) = r := by
  rw [cwRm, BitVec.extractLsb'_append_eq_of_le (by decide), BitVec.extractLsb'_append_eq_of_le (by decide)]
  exact BitVec.extractLsb'_append_eq_right

@[simp] theorem cwRsv_append : cwRsv (0#6 ++ r ++ f ++ op) = 0 := by
  rw [cwRsv, BitVec.extractLsb'_append_eq_of_le (by decide), BitVec.extractLsb'_append_eq_of_le (by decide)]
  exact BitVec.extractLsb'_append_eq_left

theorem decode_append : decode (0#6 ++ r ++ f ++ op) = decodeFields op f r := by
  rw [decode_of_rsv_zero (cwRsv_append op f r), cwOp_append, cwFmt_append, cwRm_append]

end

variable {i : Instr}

/-- A command without a mode is decoded from its operation code and format under every mode field (R59). -/
theorem decode_append_of_not_usesRm (h : Machine.tableUsesRm i.opcode.toNat = false) (r : BitVec 3) :
    decode (0#6 ++ r ++ i.fmtCode ++ i.opcode) = .ok i := by
  rw [decode_append, ← Machine.decodeFields_codes i]
  exact Machine.decodeFields_congr (fun _ => rfl) fun hm => nomatch h.symm.trans hm

/-! ## The check of a single operand -/

variable {a b c : XWord}

theorem Instr.operandsFit_of_arity_one (h : i.arity = 1) : i.operandsFit a b c = fits i.inWidth a := by
  simp [Instr.operandsFit, h]

namespace Machine

variable {s : State}

/-- A unary command whose operand has a bit above its width is rejected (R43, R176). -/
theorem exec_idle_of_wide (h : i.arity = 1) (hp : s.phase = .idle) (ha : 2 ^ i.inWidth ≤ s.a.toNat) :
    exec i s = .next (s.reject .width) := by
  refine exec_idle_unfit i s hp ?_
  rwa [Instr.operandsFit_of_arity_one h, fits_eq_false_iff _ _ i.inWidth_le]

/-- A LOCAL unary command whose operand is of its width finishes (R80). -/
theorem exec_idle_of_narrow {finish : State → State} (he : exec i s = localCommand i finish s) (h : i.arity = 1)
    (hp : s.phase = .idle) (ha : s.a.toNat < 2 ^ i.inWidth) : exec i s = .next (finish s) := by
  refine he.trans (localCommand_idle i finish s hp ?_)
  rwa [Instr.operandsFit_of_arity_one h, fits_iff_lt _ _ i.inWidth_le]

/-- A completion without a flag leaves the accumulator as it was, and a result of its width unmasked (R88). -/
theorem State.complete_of_fits {w : Nat} {v : XWord} (hw : w ≤ 128) (hv : v.toNat < 2 ^ w) :
    s.complete w v 0 = { s with res := v, rflags := 0, status := .ok, phase := .done } := by
  rw [State.complete, low_eq_self w v hw ((fits_iff_lt w v hw).mpr hv), show s.fflags ||| 0 = s.fflags from BitVec.or_zero]

end Machine

end Sys2Proof
end

section
/-! `BITS` and `CLASS` as LOCAL commands, and the vector of `CLASS` as a number (41_format_ops.md R100 to R102). -/

namespace Sys2Proof

variable (fmt : Fmt) (x : XWord)

/-- The sign bit is the top bit of a pattern that has no bit above its width. -/
theorem Fmt.sign_toNat (h : x.toNat < 2 ^ fmt.width) : (fmt.sign x).toNat = x.toNat / 2 ^ (fmt.width - 1) := by
  have hw : 2 ^ fmt.width = 2 ^ (fmt.width - 1) * 2 := by
    rw [← Nat.pow_succ]; cases fmt <;> rfl
  have hd : x.toNat / 2 ^ (fmt.width - 1) < 2 := Nat.div_lt_of_lt_mul (hw ▸ h)
  have hs := fmt.sign_iff x
  rw [Nat.mod_eq_of_lt hd] at hs
  cases hb : fmt.sign x
  · have hne : x.toNat / 2 ^ (fmt.width - 1) ≠ 1 := by simpa [hb] using hs
    exact (Nat.lt_one_iff.mp (lt_of_le_of_ne (Nat.le_of_lt_succ hd) hne)).symm
  · exact (hs.mp hb).symm

theorem Fmt.expMax_ne_zero : fmt.expMax ≠ 0 := by
  cases fmt <;> decide

namespace Machine

/-- The class code of R102: 1 for a NaN, 2 for an infinity, 4 for a zero, 0 for the other numbers. -/
def classCode : Nat :=
  if fmt.exp x = fmt.expMax then (if fmt.frac x = 0 then 2 else 1)
  else if fmt.exp x = 0 ∧ fmt.frac x = 0 then 4 else 0

theorem classCode_lt : classCode fmt x < 8 := by
  unfold classCode
  split_ifs <;> decide

/-- At most one of the class bits is set, and the code is that bit (R102). -/
theorem classCode_eq : classCode fmt x =
    4 * (fmt.isZero x).toNat + 2 * (fmt.isInf x).toNat + (fmt.isNaN x).toNat := by
  have hmax := fmt.expMax_ne_zero
  simp only [classCode, Fmt.isZero, Fmt.isInf, Fmt.isNaN, beq_eq_decide, bne]
  by_cases he : fmt.exp x = fmt.expMax
  · by_cases hf : fmt.frac x = 0 <;> simp [he, hf, hmax]
  · by_cases hz : fmt.exp x = 0 ∧ fmt.frac x = 0
    · simp [hz, hmax.symm]
    · simp [he, hz, ← Bool.decide_and]

theorem classBits_toNat : (classBits fmt x).toNat = 8 * (fmt.sign x).toNat + classCode fmt x := by
  rw [classCode_eq, classBits]
  generalize fmt.sign x = n, fmt.isZero x = z, fmt.isInf x = i, fmt.isNaN x = q
  decide +revert

theorem classBits_eq (h : x.toNat < 2 ^ fmt.width) :
    classBits fmt x = BitVec.ofNat 128 (8 * (x.toNat / 2 ^ (fmt.width - 1)) + classCode fmt x) := by
  rw [← fmt.sign_toNat x h, ← classBits_toNat, BitVec.ofNat_toNat, BitVec.setWidth_eq]

theorem classBits_lt : (classBits fmt x).toNat < 2 ^ 4 := by
  have hs := (fmt.sign x).toNat_lt
  have hc := classCode_lt fmt x
  rw [classBits_toNat]
  omega

/-! ## The two commands -/

theorem exec_bits (s : State) :
    exec (.bits fmt) s = localCommand (.bits fmt) (fun s => s.complete fmt.width s.a 0) s := rfl

theorem exec_classify (s : State) :
    exec (.classify fmt) s = localCommand (.classify fmt) (fun s => s.complete 4 (classBits fmt s.a) 0) s := rfl

end Machine

end Sys2Proof
end

section
/-! The statements on the format operations (41_format_ops.md). -/

namespace Sys2Proof.Machine

/-- Settles O24: the completion of the operand, which has no bit above the width to mask. -/
theorem bitsReturnsThePattern : Obligations.BitsReturnsThePattern := by
  intro fmt s hp
  refine ⟨decode_append_of_not_usesRm (i := .bits fmt) rfl, fun ha => ?_, exec_idle_of_wide (i := .bits fmt) rfl hp⟩
  calc exec (.bits fmt) s
      = .next (s.complete fmt.width s.a 0) := exec_idle_of_narrow (exec_bits fmt s) rfl hp ha
    _ = _ := congrArg _ (State.complete_of_fits fmt.width_le ha)

/-- Settles O25: the completion of the vector, four bits that are the sign above the class code. -/
theorem classFollowsTheTable : Obligations.ClassFollowsTheTable := by
  intro fmt s hp
  refine ⟨decode_append_of_not_usesRm (i := .classify fmt) rfl, fun ha => ?_,
    exec_idle_of_wide (i := .classify fmt) rfl hp⟩
  calc exec (.classify fmt) s
      = .next (s.complete 4 (classBits fmt s.a) 0) := exec_idle_of_narrow (exec_classify fmt s) rfl hp ha
    _ = .next { s with res := classBits fmt s.a, rflags := 0, status := .ok, phase := .done } :=
        congrArg _ (State.complete_of_fits (by decide) (classBits_lt fmt s.a))
    _ = _ := by rw [classBits_eq fmt s.a ha]; rfl

end Sys2Proof.Machine
end

section
/-! The two steps of a dispatched command with its request written out (40_dispatch.md R81, R88): the check of its operands
as a check of the list of them. -/

namespace Sys2Proof.Machine

variable {i : Instr} {s : State}

/-- The check of `validate` on the operands of a state is the check of each used one (R43). -/
theorem operandsFit_iff_usedOperands : i.operandsFit s.a s.b s.c = true ↔
    ∀ x ∈ s.usedOperands i, x.toNat < 2 ^ i.inWidth := by
  have harity : i.arity = 0 ∨ i.arity = 1 ∨ i.arity = 2 ∨ i.arity = 3 := by
    cases i <;> simp [Instr.arity]
  obtain h | h | h | h := harity <;>
    simp [Instr.operandsFit, State.usedOperands, h, fits_iff_lt _ _ i.inWidth_le, and_assoc]

/-- A dispatched command sends its request and completes with the answer to it (R81, R86, R88). -/
theorem runsAs_of_dispatched (hl : i.isLocal = false) :
    RunsAs i i.inWidth i.outWidth (fun s => s.unitRequest i) (fun s => s.usedOperands i) := by
  intro s
  refine ⟨fun hp hfit => ?_, fun hp ⟨x, hx, hwide⟩ => ?_, fun hp => ?_⟩
  · rw [exec_of_not_local i s hl, unitCommand_idle i s hp (operandsFit_iff_usedOperands.mpr hfit)]
    rfl
  · refine exec_idle_unfit i s hp (Bool.eq_false_iff.mpr fun hfit => ?_)
    exact absurd (operandsFit_iff_usedOperands.mp hfit x hx) (not_lt.mpr hwide)
  · rw [exec_of_not_local i s hl, unitCommand_wait i s hp, State.takeAnswer, State.complete,
      low_eq_ofNat _ _ i.outWidth_le]
    rfl

end Sys2Proof.Machine

namespace Sys2Proof.Machine

/-- Settles O33: each operation is dispatched, and its request and its operands are the columns of its row. -/
theorem arithmeticIsDelegatedUnchanged : Obligations.ArithmeticIsDelegatedUnchanged :=
  fun fmt rm => ⟨runsAs_of_dispatched (i := .add fmt rm) rfl, runsAs_of_dispatched (i := .sub fmt rm) rfl,
    runsAs_of_dispatched (i := .mul fmt rm) rfl, runsAs_of_dispatched (i := .div fmt rm) rfl,
    runsAs_of_dispatched (i := .fma fmt rm) rfl, runsAs_of_dispatched (i := .rem fmt rm) rfl,
    runsAs_of_dispatched (i := .sqrt fmt rm) rfl, runsAs_of_dispatched (i := .rint fmt rm) rfl⟩

end Sys2Proof.Machine
end

section
/-! Arithmetic operations with a NaN result (42_arithmetic.md R119, R121): every contract that asks for a NaN asks for no
flag but `NV`, which it raises, leaves open or forbids. -/

namespace Sys2Proof.Machine

variable {fmt : Fmt} {rm : Rm} {i : Instr} {s : State} {a b c : XWord}

/-! ## Zeros and other finite values -/

/-- A zero has the significand 0. -/
theorem valueOf_isZero (h : fmt.isZero a = true) : ∃ e, valueOf fmt a = .fin (fmt.sign a) 0 e := by
  obtain ⟨m, e, hv, hm⟩ := valueOf_isFinite (isFinite_of_isZero h)
  exact ⟨e, hm.mpr h ▸ hv⟩

theorem valueOf_of_not_isZero (h : IsFinite fmt a) (hz : fmt.isZero a = false) :
    ∃ m e, valueOf fmt a = .fin (fmt.sign a) m e ∧ m ≠ 0 := by
  obtain ⟨m, e, hv, hm⟩ := valueOf_isFinite h
  exact ⟨m, e, hv, fun h0 => Bool.false_ne_true (hz.symm.trans (hm.mp h0))⟩

/-! ## The contracts on operands that are no NaN -/

theorem withNaNs_of_not_isNaN {ops : List XWord} (k : Contract) (h : ∀ x ∈ ops, fmt.isNaN x = false) :
    withNaNs fmt ops k = k := by
  rw [withNaNs, if_neg]
  simpa [List.any_eq_true] using h

theorem withNaNs_of_isNaN {ops : List XWord} (k : Contract) (h : ∃ x ∈ ops, fmt.isNaN x = true) :
    withNaNs fmt ops k = .propagated fmt (ops.any fmt.isSNaN) := by
  rw [withNaNs, if_pos (List.any_eq_true.mpr h)]

section
variable (ha : fmt.isNaN a = false) (hb : fmt.isNaN b = false)
include ha

theorem sqrtContract_of_not_isNaN : sqrtContract fmt rm a = sqrtValue fmt rm (valueOf fmt a) :=
  withNaNs_of_not_isNaN _ (by simp [ha])

theorem rintContract_of_not_isNaN : rintContract fmt rm a = rintValue fmt rm a (valueOf fmt a) :=
  withNaNs_of_not_isNaN _ (by simp [ha])

include hb

theorem addContract_of_not_isNaN : addContract fmt rm a b = addValues fmt rm (valueOf fmt a) (valueOf fmt b) :=
  withNaNs_of_not_isNaN _ (by simp [ha, hb])

theorem subContract_of_not_isNaN : subContract fmt rm a b = addValues fmt rm (valueOf fmt a) (valueOf fmt b).neg :=
  withNaNs_of_not_isNaN _ (by simp [ha, hb])

theorem divContract_of_not_isNaN : divContract fmt rm a b = divValues fmt rm (valueOf fmt a) (valueOf fmt b) :=
  withNaNs_of_not_isNaN _ (by simp [ha, hb])

theorem remContract_of_not_isNaN : remContract fmt a b = remValues fmt a (valueOf fmt a) (valueOf fmt b) := by
  simp [remContract, ha, hb]

theorem mulContract_of_mulValues {v : Value} (hv : mulValues (valueOf fmt a) (valueOf fmt b) = some v) :
    mulContract fmt rm a b = .ofValue fmt rm v := by
  rw [mulContract, withNaNs_of_not_isNaN _ (by simp [ha, hb]), hv]

theorem fmaContract_of_mulValues {v : Value} (hc : fmt.isNaN c = false)
    (hv : mulValues (valueOf fmt a) (valueOf fmt b) = some v) :
    fmaContract fmt rm a b c = addValues fmt rm v (valueOf fmt c) := by
  simp [fmaContract, ha, hb, hc, hv]

/-- Of what is no NaN only `0 × ∞` has no product. -/
theorem mulValues_eq_none_iff : mulValues (valueOf fmt a) (valueOf fmt b) = none ↔ InvalidProduct fmt a b := by
  refine ⟨fun h => ?_, mulValues_invalid⟩
  obtain hia | hfa := isInf_or_isFinite ha <;> obtain hib | hfb := isInf_or_isFinite hb
  · simp [valueOf_isInf hia, valueOf_isInf hib, mulValues] at h
  · obtain ⟨m, e, hv, hm⟩ := valueOf_isFinite hfb
    simp only [valueOf_isInf hia, hv, mulValues, ite_eq_left_iff, reduceCtorEq, imp_false, not_not] at h
    exact .inr ⟨hia, hm.mp h⟩
  · obtain ⟨m, e, hv, hm⟩ := valueOf_isFinite hfa
    simp only [valueOf_isInf hib, hv, mulValues, ite_eq_left_iff, reduceCtorEq, imp_false, not_not] at h
    exact .inl ⟨hm.mp h, hib⟩
  · obtain ⟨m, e, hv, -⟩ := valueOf_isFinite hfa
    obtain ⟨m', e', hv', -⟩ := valueOf_isFinite hfb
    simp [hv, hv', mulValues] at h

end

theorem InvalidProduct.not_isNaN (h : InvalidProduct fmt a b) : fmt.isNaN a = false ∧ fmt.isNaN b = false := by
  obtain ⟨hz, hi⟩ | ⟨hi, hz⟩ := h
  · exact ⟨(isFinite_of_isZero hz).1, isNaN_of_isInf hi⟩
  · exact ⟨isNaN_of_isInf hi, (isFinite_of_isZero hz).1⟩

theorem InfiniteProduct.not_isNaN (h : InfiniteProduct fmt a b) : fmt.isNaN a = false ∧ fmt.isNaN b = false := by
  obtain ⟨hinf, hnan, -⟩ | ⟨hinf, hnan, -⟩ := h
  · exact ⟨isNaN_of_isInf hinf, hnan⟩
  · exact ⟨hnan, isNaN_of_isInf hinf⟩

/-! ## Contracts that ask for a NaN -/

/-- The contract that asks for a NaN, with `NV` raised, and otherwise left to the units or forbidden. -/
def nanContract (fmt : Fmt) (raised free : Bool) : Contract :=
  { res := .anyNaN fmt, must := flagIf raised flagNV, may := flagIf free flagNV }

theorem invalid_eq_nanContract (fmt : Fmt) : Contract.invalid fmt = nanContract fmt true false := rfl

theorem unlistedInvalid_eq_nanContract (fmt : Fmt) : Contract.unlistedInvalid fmt = nanContract fmt false true := rfl

theorem propagated_eq_nanContract (fmt : Fmt) (signaling : Bool) :
    Contract.propagated fmt signaling = nanContract fmt signaling false := rfl

theorem nanContract_flags : ∀ (raised free : Bool) (fl : FlagBits),
    FlagsWithin (flagIf raised flagNV ||| (flagIf free flagNV &&& fl)) flagNV ∧
    (raised = true → NV (flagIf raised flagNV ||| (flagIf free flagNV &&& fl)) = true) ∧
    (raised = false → free = false → NV (flagIf raised flagNV ||| (flagIf free flagNV &&& fl)) = false) := by
  unfold FlagsWithin
  decide

/-- A command whose contract asks for a NaN completes with one and raises no flag but possibly `NV`. -/
theorem exec_wait_nanContract {raised free : Bool} (hl : i.isLocal = false) (hp : s.phase = .wait)
    (hw : i.outWidth = fmt.width) (hk : contractOf i s.a s.b s.c = some (nanContract fmt raised free)) :
    ∃ t, exec i s = .next t ∧ t.phase = .done ∧ t.status = .ok ∧ fmt.isNaN t.res = true ∧
      FlagsWithin t.rflags flagNV ∧ (raised = true → NV t.rflags = true) ∧
      (raised = false → free = false → NV t.rflags = false) := by
  obtain ⟨raw, hexec⟩ := exec_wait_contract hl hp hk
  rw [imposeFlags_eq] at hexec
  exact ⟨_, hexec, rfl, rfl, hw ▸ isNaN_low_someNaN fmt raw.res, nanContract_flags raised free raw.flags⟩

/-- An invalid operation of the source's list completes with a NaN and `NV` (R121). -/
theorem exec_wait_invalid (hl : i.isLocal = false) (hp : s.phase = .wait) (hw : i.outWidth = fmt.width)
    (hk : contractOf i s.a s.b s.c = some (.invalid fmt)) :
    ∃ t, exec i s = .next t ∧ t.status = .ok ∧ fmt.isNaN t.res = true ∧ NV t.rflags = true := by
  obtain ⟨t, hexec, -, hst, hnan, -, hnv, -⟩ :=
    exec_wait_nanContract hl hp hw (invalid_eq_nanContract fmt ▸ hk)
  exact ⟨t, hexec, hst, hnan, hnv rfl⟩

/-! ## A NaN among the operands -/

theorem isSNaN_eq_false_of_not_isNaN (h : fmt.isNaN a = false) : fmt.isSNaN a = false := by
  rw [Fmt.isSNaN, h, Bool.false_and]

/-- `FMA` with a NaN (R119): `NV` is open only beside `0 × ∞`. -/
theorem fmaContract_of_isNaN (h : ∃ x ∈ [a, b, c], fmt.isNaN x = true) :
    ∃ free, fmaContract fmt rm a b c = nanContract fmt ([a, b, c].any fmt.isSNaN) free ∧
      (free = true → InvalidProduct fmt a b) := by
  rw [fmaContract]
  split_ifs with hab hc
  · exact ⟨false, propagated_eq_nanContract _ _, nofun⟩
  · simp only [List.any_cons, List.any_nil, Bool.or_false, Bool.or_eq_true, not_or, Bool.not_eq_true] at hab
    obtain ⟨ha, hb⟩ := hab
    have hany : [a, b, c].any fmt.isSNaN = fmt.isSNaN c := by
      simp [isSNaN_eq_false_of_not_isNaN ha, isSNaN_eq_false_of_not_isNaN hb]
    rw [hany]
    refine ⟨(mulValues (valueOf fmt a) (valueOf fmt b)).isNone && !fmt.isSNaN c, rfl, fun hfree => ?_⟩
    exact (mulValues_eq_none_iff ha hb).mp (Option.isNone_iff_eq_none.mp (Bool.and_eq_true_iff.mp hfree).1)
  · exact absurd h (by simpa [hc] using hab)

/-- `REM` with a NaN (R119): `NV` is open only beside an infinite dividend or a zero divisor. -/
theorem remContract_of_isNaN (h : ∃ x ∈ [a, b], fmt.isNaN x = true) :
    ∃ free, remContract fmt a b = nanContract fmt ([a, b].any fmt.isSNaN) free ∧
      (free = true → fmt.isInf a = true ∨ fmt.isZero b = true) := by
  rw [remContract, if_pos (List.any_eq_true.mpr h)]
  exact ⟨_, rfl, fun hfree => by simpa using (Bool.and_eq_true_iff.mp hfree).1⟩

/-- The contract of an arithmetic operation with a NaN among its operands (R119). -/
theorem contractOf_of_isNaN (hi : i ∈ arithmeticOps fmt rm) (h : ∃ x ∈ s.usedOperands i, fmt.isNaN x = true) :
    ∃ free, contractOf i s.a s.b s.c = some (nanContract fmt ((s.usedOperands i).any fmt.isSNaN) free) ∧
      (free = true → i = .fma fmt rm ∧ InvalidProduct fmt s.a s.b ∨
        i = .rem fmt rm ∧ (fmt.isInf s.a = true ∨ fmt.isZero s.b = true)) := by
  by_cases hfma : i = .fma fmt rm
  · subst hfma
    obtain ⟨free, hk, hfree⟩ := fmaContract_of_isNaN (rm := rm) h
    exact ⟨free, congrArg some hk, fun hf => .inl ⟨rfl, hfree hf⟩⟩
  by_cases hrem : i = .rem fmt rm
  · subst hrem
    obtain ⟨free, hk, hfree⟩ := remContract_of_isNaN h
    exact ⟨free, congrArg some hk, fun hf => .inr ⟨rfl, hfree hf⟩⟩
  simp only [arithmeticOps, List.mem_cons, List.not_mem_nil, or_false, hfma, hrem, false_or] at hi
  obtain rfl | rfl | rfl | rfl | rfl | rfl := hi <;> exact ⟨false, congrArg some (withNaNs_of_isNaN _ h), nofun⟩

/-! ## Invalid operations -/

/-- The invalid operations of the source's list (R121). -/
theorem divContract_invalid (h : fmt.isZero a = true ∧ fmt.isZero b = true ∨ fmt.isInf a = true ∧ fmt.isInf b = true) :
    divContract fmt rm a b = .invalid fmt := by
  obtain ⟨ha, hb⟩ | ⟨ha, hb⟩ := h
  · have hfa := isFinite_of_isZero ha
    have hfb := isFinite_of_isZero hb
    obtain ⟨e, hv⟩ := valueOf_isZero ha
    obtain ⟨e', hv'⟩ := valueOf_isZero hb
    rw [divContract_of_not_isNaN hfa.1 hfb.1, hv, hv', divValues, if_pos rfl, if_pos rfl]
  · rw [divContract_of_not_isNaN (isNaN_of_isInf ha) (isNaN_of_isInf hb), valueOf_isInf ha, valueOf_isInf hb, divValues]

theorem addValues_inf_invalid {n n' : Bool} (h : n ≠ n') : addValues fmt rm (.inf n) (.inf n') = .invalid fmt :=
  if_neg h

theorem addContract_invalid (ha : fmt.isInf a = true) (hb : fmt.isInf b = true) (hs : fmt.sign a ≠ fmt.sign b) :
    addContract fmt rm a b = .invalid fmt := by
  rw [addContract_of_not_isNaN (isNaN_of_isInf ha) (isNaN_of_isInf hb), valueOf_isInf ha, valueOf_isInf hb,
    addValues_inf_invalid hs]

theorem subContract_invalid (ha : fmt.isInf a = true) (hb : fmt.isInf b = true) (hs : fmt.sign a = fmt.sign b) :
    subContract fmt rm a b = .invalid fmt := by
  rw [subContract_of_not_isNaN (isNaN_of_isInf ha) (isNaN_of_isInf hb), valueOf_isInf ha, valueOf_isInf hb, Value.neg,
    addValues_inf_invalid (by simp [hs])]

theorem fmaContract_invalid (hab : InfiniteProduct fmt a b) (hc : fmt.isInf c = true)
    (hs : (fmt.sign a ^^ fmt.sign b) ≠ fmt.sign c) : fmaContract fmt rm a b c = .invalid fmt := by
  obtain ⟨ha, hb⟩ := hab.not_isNaN
  rw [fmaContract_of_mulValues ha hb (isNaN_of_isInf hc) (mulValues_isInf hab), valueOf_isInf hc,
    addValues_inf_invalid hs]

theorem sqrtContract_invalid (hs : fmt.sign a = true) (ha : IsFinite fmt a) (hz : fmt.isZero a = false) :
    sqrtContract fmt rm a = .invalid fmt := by
  obtain ⟨m, e, hv, hm⟩ := valueOf_of_not_isZero ha hz
  rw [sqrtContract_of_not_isNaN ha.1, hv, sqrtValue, if_neg hm, if_pos hs]

/-- The invalid operations the source does not list (R121, log entry 11) without a NaN. -/
theorem mulContract_unlisted (h : InvalidProduct fmt a b) : mulContract fmt rm a b = .unlistedInvalid fmt := by
  obtain ⟨ha, hb⟩ := h.not_isNaN
  rw [mulContract, withNaNs_of_not_isNaN _ (by simp [ha, hb]), mulValues_invalid h]

theorem fmaContract_unlisted (h : InvalidProduct fmt a b) (hc : fmt.isNaN c = false) :
    fmaContract fmt rm a b c = .unlistedInvalid fmt := by
  obtain ⟨ha, hb⟩ := h.not_isNaN
  simp [fmaContract, ha, hb, hc, mulValues_invalid h]

theorem sqrtContract_unlisted (ha : fmt.isInf a = true) (hs : fmt.sign a = true) :
    sqrtContract fmt rm a = .unlistedInvalid fmt := by
  rw [sqrtContract_of_not_isNaN (isNaN_of_isInf ha), valueOf_isInf ha, sqrtValue, if_pos hs]

theorem remContract_unlisted (ha : fmt.isNaN a = false) (hb : fmt.isNaN b = false)
    (h : fmt.isInf a = true ∨ fmt.isZero b = true) : remContract fmt a b = .unlistedInvalid fmt := by
  rw [remContract_of_not_isNaN ha hb]
  obtain hia | hfa := isInf_or_isFinite ha
  · rw [valueOf_isInf hia, remValues]
  · have hz : fmt.isZero b = true := h.resolve_left (by simp [hfa.2])
    obtain ⟨m, e, hv, -⟩ := valueOf_isFinite hfa
    obtain ⟨e', hv'⟩ := valueOf_isZero hz
    rw [hv, hv', remValues, if_pos rfl]

/-- An invalid operation that the source does not list, a NaN beside it included. -/
def UnlistedInvalid (fmt : Fmt) (rm : Rm) (i : Instr) (s : State) : Prop :=
  i = .mul fmt rm ∧ InvalidProduct fmt s.a s.b ∨
  i = .fma fmt rm ∧ InvalidProduct fmt s.a s.b ∨
  i = .sqrt fmt rm ∧ fmt.isInf s.a = true ∧ fmt.sign s.a = true ∨
  i = .rem fmt rm ∧ fmt.isInf s.a = true ∨
  i = .rem fmt rm ∧ fmt.isZero s.b = true

theorem UnlistedInvalid.mem_arithmeticOps (h : UnlistedInvalid fmt rm i s) : i ∈ arithmeticOps fmt rm := by
  obtain ⟨rfl, -⟩ | ⟨rfl, -⟩ | ⟨rfl, -⟩ | ⟨rfl, -⟩ | ⟨rfl, -⟩ := h <;> simp [arithmeticOps]

/-- Where no operand is a NaN the contract of an unlisted invalid operation leaves `NV` open. -/
theorem UnlistedInvalid.contractOf_eq (h : UnlistedInvalid fmt rm i s)
    (hnan : ∀ x ∈ s.usedOperands i, fmt.isNaN x = false) :
    contractOf i s.a s.b s.c = some (nanContract fmt false true) := by
  rw [← unlistedInvalid_eq_nanContract]
  obtain ⟨rfl, h⟩ | ⟨rfl, h⟩ | ⟨rfl, h, hs⟩ | ⟨rfl, h⟩ | ⟨rfl, h⟩ := h
  · exact congrArg some (mulContract_unlisted h)
  · exact congrArg some (fmaContract_unlisted h (hnan s.c (by simp [State.usedOperands, Instr.arity])))
  · exact congrArg some (sqrtContract_unlisted h hs)
  · exact congrArg some (remContract_unlisted (isNaN_of_isInf h)
      (hnan s.b (by simp [State.usedOperands, Instr.arity])) (.inl h))
  · exact congrArg some (remContract_unlisted (hnan s.a (by simp [State.usedOperands, Instr.arity]))
      (isFinite_of_isZero h).1 (.inr h))

end Sys2Proof.Machine
end

section
/-! Arithmetic operations whose result is an infinity or an exact zero (42_arithmetic.md R117, R121 to R123). -/

namespace Sys2Proof.Machine

variable {fmt : Fmt} {rm : Rm} {i : Instr} {s : State} {a b c : XWord}

/-! ## Patterns -/

theorem signedZero_eq_pattern (fmt : Fmt) (neg : Bool) : signedZero fmt neg = fmt.pattern neg 0 := by
  rw [← low_pattern_zero, low_pattern fmt neg (Nat.two_pow_pos _)]

theorem sign_signedZero (fmt : Fmt) (neg : Bool) : fmt.sign (signedZero fmt neg) = neg := by
  rw [signedZero_eq_pattern, fmt.sign_pattern neg 0 (Nat.two_pow_pos _)]

theorem sign_signedInfinity (fmt : Fmt) (neg : Bool) : fmt.sign (signedInfinity fmt neg) = neg :=
  fmt.sign_pattern neg fmt.infMag fmt.infMag_lt

theorem isInf_signedInfinity (fmt : Fmt) (neg : Bool) : fmt.isInf (signedInfinity fmt neg) = true := by
  have hmag : fmt.mag (signedInfinity fmt neg) = fmt.expMax * 2 ^ fmt.fracWidth :=
    fmt.mag_pattern neg fmt.infMag fmt.infMag_lt
  rw [Fmt.isInf_iff, fmt.exp_eq_mag_div, fmt.frac_eq_mag_mod, hmag]
  exact ⟨Nat.mul_div_cancel _ (Nat.two_pow_pos _), Nat.mul_mod_left _ _⟩

/-! ## Completions -/

section
variable {neg : Bool} (hl : i.isLocal = false) (hp : s.phase = .wait) (hw : i.outWidth = fmt.width)
include hl hp hw

/-- A determined result, with the flags the contract raises and those of the open ones that the units raise. -/
theorem exec_wait_bits {k : Contract} {x : XWord} (hk : contractOf i s.a s.b s.c = some k) (hr : k.res = .bits x) :
    ∃ fl, exec i s = .next (s.WithResponse (low fmt.width x) (k.must ||| (k.may &&& fl))) := by
  obtain ⟨raw, hexec⟩ := exec_wait_contract hl hp hk
  refine ⟨raw.flags, hexec.trans ?_⟩
  rw [hr, imposeFlags_eq, hw]
  rfl

theorem exec_wait_infinity (hk : contractOf i s.a s.b s.c = some (.infinity fmt neg)) :
    exec i s = .next (s.WithResponse (signedInfinity fmt neg) 0) := by
  rw [exec_wait_determined hl hp hk rfl rfl, hw, low_pattern_infMag]
  rfl

theorem exec_wait_zero (hk : contractOf i s.a s.b s.c = some (.zero fmt neg)) :
    exec i s = .next (s.WithResponse (signedZero fmt neg) 0) := by
  rw [exec_wait_determined hl hp hk rfl rfl, hw, low_pattern_zero]
  rfl

end

/-! ## Infinite results (R122) -/

theorem addValues_inf_left {n : Bool} {v : Value} (h : v ≠ .inf (!n)) :
    addValues fmt rm (.inf n) v = .infinity fmt n := by
  cases v with
  | fin => rfl
  | inf n' =>
    have hn : n = n' := by
      rw [← Bool.not_eq_not]
      exact fun hne => h (by rw [hne, Bool.not_not])
    rw [addValues, if_pos hn]

/-- An infinity is not cancelled by a finite value nor by an infinity of its sign. -/
theorem valueOf_ne_inf {n : Bool} (h : IsFinite fmt a ∨ fmt.isInf a = true ∧ n = fmt.sign a) :
    valueOf fmt a ≠ .inf (!n) := by
  obtain hfin | ⟨hinf, rfl⟩ := h
  · obtain ⟨m, e, hv, -⟩ := valueOf_isFinite hfin
    simp [hv]
  · simp [valueOf_isInf hinf]

theorem neg_valueOf_ne_inf {n : Bool} (h : IsFinite fmt a ∨ fmt.isInf a = true ∧ n ≠ fmt.sign a) :
    (valueOf fmt a).neg ≠ .inf (!n) := by
  obtain hfin | ⟨hinf, hn⟩ := h
  · obtain ⟨m, e, hv, -⟩ := valueOf_isFinite hfin
    simp [hv, Value.neg]
  · simpa [valueOf_isInf hinf, Value.neg] using hn.symm

theorem not_isNaN_of_isFinite_or_isInf {p : Prop} (h : IsFinite fmt a ∨ fmt.isInf a = true ∧ p) : fmt.isNaN a = false :=
  h.elim (·.1) fun h => isNaN_of_isInf h.1

theorem addContract_inf_left (ha : fmt.isInf a = true)
    (hb : IsFinite fmt b ∨ fmt.isInf b = true ∧ fmt.sign a = fmt.sign b) :
    addContract fmt rm a b = .infinity fmt (fmt.sign a) := by
  rw [addContract_of_not_isNaN (isNaN_of_isInf ha) (not_isNaN_of_isFinite_or_isInf hb), valueOf_isInf ha,
    addValues_inf_left (valueOf_ne_inf hb)]

theorem addContract_inf_right (ha : IsFinite fmt a) (hb : fmt.isInf b = true) :
    addContract fmt rm a b = .infinity fmt (fmt.sign b) := by
  obtain ⟨m, e, hv, -⟩ := valueOf_isFinite ha
  rw [addContract_of_not_isNaN ha.1 (isNaN_of_isInf hb), hv, valueOf_isInf hb, addValues]

theorem subContract_inf_left (ha : fmt.isInf a = true)
    (hb : IsFinite fmt b ∨ fmt.isInf b = true ∧ fmt.sign a ≠ fmt.sign b) :
    subContract fmt rm a b = .infinity fmt (fmt.sign a) := by
  rw [subContract_of_not_isNaN (isNaN_of_isInf ha) (not_isNaN_of_isFinite_or_isInf hb), valueOf_isInf ha,
    addValues_inf_left (neg_valueOf_ne_inf hb)]

theorem subContract_inf_right (ha : IsFinite fmt a) (hb : fmt.isInf b = true) :
    subContract fmt rm a b = .infinity fmt (!fmt.sign b) := by
  obtain ⟨m, e, hv, -⟩ := valueOf_isFinite ha
  rw [subContract_of_not_isNaN ha.1 (isNaN_of_isInf hb), hv, valueOf_isInf hb, Value.neg, addValues]

theorem mulContract_inf (h : InfiniteProduct fmt a b) :
    mulContract fmt rm a b = .infinity fmt (fmt.sign a ^^ fmt.sign b) := by
  obtain ⟨ha, hb⟩ := h.not_isNaN
  rw [mulContract_of_mulValues ha hb (mulValues_isInf h), Contract.ofValue]

theorem fmaContract_inf_product (h : InfiniteProduct fmt a b)
    (hc : IsFinite fmt c ∨ fmt.isInf c = true ∧ (fmt.sign a ^^ fmt.sign b) = fmt.sign c) :
    fmaContract fmt rm a b c = .infinity fmt (fmt.sign a ^^ fmt.sign b) := by
  obtain ⟨ha, hb⟩ := h.not_isNaN
  rw [fmaContract_of_mulValues ha hb (not_isNaN_of_isFinite_or_isInf hc) (mulValues_isInf h),
    addValues_inf_left (valueOf_ne_inf hc)]

theorem fmaContract_inf_addend (ha : IsFinite fmt a) (hb : IsFinite fmt b) (hc : fmt.isInf c = true) :
    fmaContract fmt rm a b c = .infinity fmt (fmt.sign c) := by
  obtain ⟨m, e, hv, -⟩ := valueOf_isFinite ha
  obtain ⟨m', e', hv', -⟩ := valueOf_isFinite hb
  rw [fmaContract_of_mulValues ha.1 hb.1 (isNaN_of_isInf hc) (by rw [hv, hv', mulValues]), valueOf_isInf hc, addValues]

theorem divContract_inf_left (ha : fmt.isInf a = true) (hb : IsFinite fmt b) :
    divContract fmt rm a b = .infinity fmt (fmt.sign a ^^ fmt.sign b) := by
  obtain ⟨m, e, hv, -⟩ := valueOf_isFinite hb
  rw [divContract_of_not_isNaN (isNaN_of_isInf ha) hb.1, valueOf_isInf ha, hv, divValues]

theorem divContract_inf_right (ha : IsFinite fmt a) (hb : fmt.isInf b = true) :
    divContract fmt rm a b = .zero fmt (fmt.sign a ^^ fmt.sign b) := by
  obtain ⟨m, e, hv, -⟩ := valueOf_isFinite ha
  rw [divContract_of_not_isNaN ha.1 (isNaN_of_isInf hb), hv, valueOf_isInf hb, divValues]

/-- A finite nonzero dividend over zero (R121). -/
theorem divContract_by_zero (ha : IsFinite fmt a) (hz : fmt.isZero a = false) (hb : fmt.isZero b = true) :
    divContract fmt rm a b =
      { res := .bits (fmt.pattern (fmt.sign a ^^ fmt.sign b) fmt.infMag), must := flagDZ, may := 0 } := by
  obtain ⟨m, e, hv, hm0⟩ := valueOf_of_not_isZero ha hz
  obtain ⟨e', hv'⟩ := valueOf_isZero hb
  rw [divContract_of_not_isNaN ha.1 (isFinite_of_isZero hb).1, hv, hv', divValues, if_pos rfl, if_neg hm0]

/-- The remainder by an infinity is the dividend (G7). -/
theorem remContract_inf_right (ha : IsFinite fmt a) (hb : fmt.isInf b = true) : remContract fmt a b =
    { Contract.exactly (low fmt.width a) with may := flagIf (fmt.isSub a) flagUF } := by
  obtain ⟨m, e, hv, -⟩ := valueOf_isFinite ha
  rw [remContract_of_not_isNaN ha.1 (isNaN_of_isInf hb), hv, valueOf_isInf hb, remValues]

theorem exec_rem_inf_right (hp : s.phase = .wait) (ha : IsFinite fmt s.a) (hb : fmt.isInf s.b = true) :
    ∃ fl, exec (.rem fmt rm) s = .next (s.WithResponse (BitVec.ofNat 128 (s.a.toNat % 2 ^ fmt.width)) fl) ∧
      FlagsWithin fl flagUF ∧ (fmt.isSub s.a = false → fl = 0) := by
  have hflags : ∀ (sub : Bool) (fl : FlagBits), FlagsWithin (0 ||| (flagIf sub flagUF &&& fl)) flagUF ∧
      (sub = false → 0 ||| (flagIf sub flagUF &&& fl) = 0) := by
    unfold FlagsWithin
    decide
  obtain ⟨fl, hexec⟩ := exec_wait_bits (fmt := fmt) (i := .rem fmt rm) rfl hp rfl
    (congrArg some (remContract_inf_right ha hb)) rfl
  rw [low_low _ _ fmt.width_le, low_eq_ofNat _ _ fmt.width_le] at hexec
  exact ⟨_, hexec, hflags _ fl⟩

theorem sqrtContract_inf (ha : fmt.isInf a = true) (hs : fmt.sign a = false) :
    sqrtContract fmt rm a = .infinity fmt false := by
  rw [sqrtContract_of_not_isNaN (isNaN_of_isInf ha), valueOf_isInf ha, sqrtValue, hs, if_neg Bool.false_ne_true]

theorem rintContract_inf (ha : fmt.isInf a = true) : rintContract fmt rm a = .infinity fmt (fmt.sign a) := by
  rw [rintContract_of_not_isNaN (isNaN_of_isInf ha), valueOf_isInf ha, rintValue]

/-! ## Exact zeros (R117, R123) -/

theorem sqrtContract_zero (h : fmt.isZero a = true) : sqrtContract fmt rm a = .zero fmt (fmt.sign a) := by
  obtain ⟨e, hv⟩ := valueOf_isZero h
  rw [sqrtContract_of_not_isNaN (isFinite_of_isZero h).1, hv, sqrtValue, if_pos rfl]

/-- The sign of an exact zero sum: the common sign of the addends, or by the mode (R123, G14). -/
def zeroSumSign (rm : Rm) (n1 n2 : Bool) : Bool := if n1 = n2 then n1 else rm == .rdn

theorem zeroSumSign_self (rm : Rm) (n : Bool) : zeroSumSign rm n n = n := if_pos rfl

theorem zeroSumSign_of_ne {n1 n2 : Bool} (h : n1 ≠ n2) : zeroSumSign rm n1 n2 = decide (rm = .rdn) := if_neg h

/-- Where the addends have one sign it is as much the sign of the second. -/
theorem zeroSumSign_eq (rm : Rm) (n1 n2 : Bool) : zeroSumSign rm n1 n2 = if n1 = n2 then n2 else decide (rm = .rdn) := by
  by_cases h : n1 = n2
  · rw [if_pos h, h, zeroSumSign_self]
  · rw [if_neg h, zeroSumSign_of_ne h]

/-- A sum of finite values that is exactly zero is a zero without a flag. -/
theorem addValues_eq_zero {n1 n2 : Bool} {m1 m2 : Nat} {e1 e2 : Int}
    (h : signFactor n1 * (m1 * (2 : ℝ) ^ e1) + signFactor n2 * (m2 * (2 : ℝ) ^ e2) = 0) :
    addValues fmt rm (.fin n1 m1 e1) (.fin n2 m2 e2) = .zero fmt (zeroSumSign rm n1 n2) := by
  rw [signedInt_units n1 m1 (min_le_left e1 e2), signedInt_units n2 m2 (min_le_right e1 e2), ← add_mul, ← Int.cast_add,
    mul_eq_zero_iff_right (zpow_ne_zero _ two_ne_zero), Int.cast_eq_zero] at h
  rw [addValues, sumFinite, if_pos h, zeroSumSign]

/-- A finite pattern has a finite value of its sign that stands for its real number. -/
theorem valueOf_eq_fin (h : IsFinite fmt a) : ∃ m e, valueOf fmt a = .fin (fmt.sign a) m e ∧
    (realValue fmt a : ℝ) = signFactor (fmt.sign a) * (m * (2 : ℝ) ^ e) := by
  obtain ⟨m, e, hv, -⟩ := valueOf_isFinite h
  obtain ⟨n, m', e', hv', hr⟩ := valueOf_represents h
  cases hv.symm.trans hv'
  exact ⟨m, e, hv, hr⟩

theorem addContract_zero (ha : IsFinite fmt a) (hb : IsFinite fmt b) (h : realValue fmt a + realValue fmt b = 0) :
    addContract fmt rm a b = .zero fmt (zeroSumSign rm (fmt.sign a) (fmt.sign b)) := by
  obtain ⟨m, e, hv, hr⟩ := valueOf_eq_fin ha
  obtain ⟨m', e', hv', hr'⟩ := valueOf_eq_fin hb
  rw [addContract_of_not_isNaN ha.1 hb.1, hv, hv', addValues_eq_zero]
  rw [← hr, ← hr']
  exact_mod_cast h

theorem subContract_zero (ha : IsFinite fmt a) (hb : IsFinite fmt b) (h : realValue fmt a - realValue fmt b = 0) :
    subContract fmt rm a b = .zero fmt (zeroSumSign rm (fmt.sign a) (!fmt.sign b)) := by
  obtain ⟨m, e, hv, hr⟩ := valueOf_eq_fin ha
  obtain ⟨m', e', hv', hr'⟩ := valueOf_eq_fin hb
  rw [subContract_of_not_isNaN ha.1 hb.1, hv, hv', Value.neg, addValues_eq_zero]
  rw [signFactor_not, neg_mul, ← hr, ← hr', ← sub_eq_add_neg]
  exact_mod_cast h

theorem fmaContract_zero (ha : IsFinite fmt a) (hb : IsFinite fmt b) (hc : IsFinite fmt c)
    (h : realValue fmt a * realValue fmt b + realValue fmt c = 0) :
    fmaContract fmt rm a b c = .zero fmt (zeroSumSign rm (fmt.sign a ^^ fmt.sign b) (fmt.sign c)) := by
  obtain ⟨m, e, hv, hr⟩ := valueOf_eq_fin ha
  obtain ⟨m', e', hv', hr'⟩ := valueOf_eq_fin hb
  obtain ⟨m'', e'', hv'', hr''⟩ := valueOf_eq_fin hc
  have hprod : mulValues (valueOf fmt a) (valueOf fmt b) = some (.fin (fmt.sign a != fmt.sign b) (m * m') (e + e')) := by
    rw [hv, hv', mulValues]
  have hmul : signFactor (fmt.sign a != fmt.sign b) * ((m * m' : Nat) * (2 : ℝ) ^ (e + e')) =
      realValue fmt a * realValue fmt b := by
    rw [hr, hr', signFactor_bne, zpow_add₀ two_ne_zero, Nat.cast_mul]
    ring
  rw [fmaContract_of_mulValues ha.1 hb.1 hc.1 hprod, hv'', addValues_eq_zero]
  rw [hmul, ← hr'']
  exact_mod_cast h

/-- The value of a pattern is its magnitude under its sign. -/
theorem realValue_eq_of_mag_eq (h : fmt.mag a = fmt.mag b) (hs : fmt.sign a = fmt.sign b) :
    realValue fmt a = realValue fmt b := by
  have : (realValue fmt a : ℝ) = realValue fmt b := by rw [realValue_eq, realValue_eq, h, hs]
  exact_mod_cast this

theorem realValue_eq_neg_of_mag_eq (h : fmt.mag a = fmt.mag b) (hs : fmt.sign a ≠ fmt.sign b) :
    realValue fmt a = -realValue fmt b := by
  have : (realValue fmt a : ℝ) = -realValue fmt b := by
    rw [realValue_eq, realValue_eq, h, Bool.eq_not.mpr hs, signFactor_not, neg_mul]
  exact_mod_cast this

theorem mag_eq_zero_of_isZero (h : fmt.isZero a = true) : fmt.mag a = 0 := by
  obtain ⟨hexp, hfrac⟩ := (fmt.isZero_iff a).mp h
  rw [fmt.mag_eq_fields, hexp, hfrac, Nat.zero_mul]

theorem realValue_of_isZero (h : fmt.isZero a = true) : realValue fmt a = 0 := by
  have : (realValue fmt a : ℝ) = 0 := by rw [realValue_eq, mag_eq_zero_of_isZero h, gridValue_zero, mul_zero]
  exact_mod_cast this

end Sys2Proof.Machine
end

section
/-! Exact results rounded once: the correctly rounded result, its flags and its sign (00_scope.md R13 to R16,
42_arithmetic.md R113 to R115, R120). -/

namespace Sys2Proof.Machine

variable {fmt : Fmt} {rm : Rm} {i : Instr} {s : State} {a b : XWord} {x : ℝ} {neg : Bool}

/-! ## Exact values -/

/-- A finite pattern of the exact value is its rounding under every mode. -/
theorem roundsTo_of_eq (rm : Rm) (hfin : IsFinite fmt a) (hx : (realValue fmt a : ℝ) = x) : RoundsTo fmt rm x a := by
  subst hx
  have hcast : ∀ {p q : ℚ}, (p : ℝ) = q → p = q := fun h => by exact_mod_cast h
  refine ⟨hfin, ?_⟩
  cases rm with
  | rne =>
    refine fun y _ => ⟨by simp, fun h hne => absurd (hcast ?_) hne⟩
    simpa [sub_eq_zero] using h.symm
  | rtz => exact ⟨le_rfl, fun y _ _ => by simp⟩
  | rdn => exact ⟨le_rfl, fun y _ h => by exact_mod_cast h⟩
  | rup => exact ⟨le_rfl, fun y _ h => by exact_mod_cast h⟩
  | rmm =>
    refine fun y _ => ⟨by simp, fun h => le_of_eq (congrArg _ (hcast ?_))⟩
    simpa [sub_eq_zero] using h.symm

theorem isFinite_signedZero (fmt : Fmt) (neg : Bool) : IsFinite fmt (signedZero fmt neg) := by
  rw [signedZero_eq_pattern]
  exact isFinite_pattern fmt neg 0 fmt.infMag_pos

theorem realValue_signedZero (fmt : Fmt) (neg : Bool) : (realValue fmt (signedZero fmt neg) : ℝ) = 0 := by
  rw [signedZero_eq_pattern, realValue_pattern fmt neg 0 (Nat.two_pow_pos _), gridValue_zero, mul_zero]

theorem signFactor_ne_zero (neg : Bool) : signFactor neg ≠ 0 := by
  cases neg <;> simp [signFactor]

theorem abs_signFactor_mul (neg : Bool) {y : ℝ} (hy : 0 < y) : |signFactor neg * y| = y := by
  cases neg <;> simp [signFactor, hy.le]

/-! ## Responses -/

/-- What R120 says of the response `t` to a command with the exact result `x`. -/
def State.CorrectlyRounds (fmt : Fmt) (rm : Rm) (x : ℝ) (t : State) : Prop :=
  (OF t.rflags = false → RoundsTo fmt rm x t.res) ∧
  (NX t.rflags = false ↔ IsFinite fmt t.res ∧ (realValue fmt t.res : ℝ) = x) ∧
  (OF t.rflags = true → (realValue fmt (BitVec.ofNat 128 (fmt.infMag - 1)) : ℝ) < |x|) ∧
  ((2 : ℝ) ^ (fmt.bias + 1) ≤ |x| → OF t.rflags = true) ∧
  (UF t.rflags = true → x ≠ 0 ∧ |x| < (2 : ℝ) ^ (1 - (fmt.bias : ℤ)))

/-- A zero without a flag rounds 0 correctly. -/
theorem correctlyRounds_zero (s : State) (fmt : Fmt) (rm : Rm) (neg : Bool) :
    (s.WithResponse (signedZero fmt neg) 0).CorrectlyRounds fmt rm 0 := by
  have hfin := isFinite_signedZero fmt neg
  have hval := realValue_signedZero fmt neg
  refine ⟨fun _ => roundsTo_of_eq rm hfin hval, iff_of_true (show NX 0 = false by decide) ⟨hfin, hval⟩,
    fun h => absurd (show OF 0 = true from h) (by decide), fun h => ?_,
    fun h => absurd (show UF 0 = true from h) (by decide)⟩
  rw [abs_zero] at h
  exact absurd h (not_le.mpr (pow_pos two_pos _))

/-- A command whose contract rounds the magnitude of `x` once rounds `x` correctly. -/
theorem exec_wait_correctlyRounds {mag : Magnitude} (hpos : mag.Positive) (hl : i.isLocal = false) (hp : s.phase = .wait)
    (hw : i.outWidth = fmt.width) (hk : contractOf i s.a s.b s.c = some (.rounded fmt rm neg mag))
    (hx : x = signFactor neg * mag.real) :
    ∃ t, exec i s = .next t ∧ t.status = .ok ∧ t.CorrectlyRounds fmt rm x := by
  obtain ⟨t, hexec, hst, hres, -, hof, hnx, -, -, huf⟩ := exec_wait_rounded hpos hl hp hw hk
  obtain ⟨hround, -, hexact, hover, hhuge⟩ := roundTo_correct fmt rm neg mag hpos
  have hreal := Magnitude.real_pos hpos
  have habs : |x| = mag.real := hx ▸ abs_signFactor_mul neg hreal
  rw [← hx, ← hres] at hround hexact
  rw [← hof] at hround hover hhuge
  rw [← hnx] at hexact
  rw [← habs] at hreal hover hhuge
  refine ⟨t, hexec, hst, hround, hexact, hover, hhuge, fun h => ⟨abs_pos.mp hreal, ?_⟩⟩
  exact habs ▸ (roundTo_tinyBefore fmt rm neg mag hpos).mp (huf h)

/-! ## Signs -/

/-- The contract asks for a zero or a rounded result of the sign `neg`. -/
inductive Contract.HasSign (fmt : Fmt) (rm : Rm) (neg : Bool) : Contract → Prop
  | zero : HasSign fmt rm neg (.zero fmt neg)
  | rounded (mag : Magnitude) (hpos : mag.Positive) : HasSign fmt rm neg (.rounded fmt rm neg mag)

theorem exec_wait_hasSign {k : Contract} (hl : i.isLocal = false) (hp : s.phase = .wait) (hw : i.outWidth = fmt.width)
    (hk : contractOf i s.a s.b s.c = some k) (hsign : k.HasSign fmt rm neg) :
    ∃ t, exec i s = .next t ∧ fmt.sign t.res = neg := by
  cases hsign with
  | zero => exact ⟨_, exec_wait_zero hl hp hw hk, sign_signedZero fmt neg⟩
  | rounded mag hpos =>
    obtain ⟨t, hexec, -, -, hsign, -⟩ := exec_wait_rounded hpos hl hp hw hk
    exact ⟨t, hexec, hsign⟩

theorem ofValue_hasSign (neg : Bool) (m : Nat) (e : Int) : (Contract.ofValue fmt rm (.fin neg m e)).HasSign fmt rm neg := by
  rw [Contract.ofValue]
  split_ifs with hm
  · exact .zero
  · exact .rounded _ ⟨Nat.pos_of_ne_zero hm, one_pos⟩

/-- R113. -/
theorem mulContract_hasSign (ha : IsFinite fmt a) (hb : IsFinite fmt b) :
    (mulContract fmt rm a b).HasSign fmt rm (fmt.sign a ^^ fmt.sign b) := by
  obtain ⟨m, e, hv, -⟩ := valueOf_isFinite ha
  obtain ⟨m', e', hv', -⟩ := valueOf_isFinite hb
  rw [mulContract_of_mulValues ha.1 hb.1 (by rw [hv, hv', mulValues])]
  exact ofValue_hasSign _ _ _

/-- R114. -/
theorem divContract_hasSign (ha : IsFinite fmt a) (hb : IsFinite fmt b) (hz : fmt.isZero b = false) :
    (divContract fmt rm a b).HasSign fmt rm (fmt.sign a ^^ fmt.sign b) := by
  obtain ⟨m, e, hv, -⟩ := valueOf_isFinite ha
  obtain ⟨m', e', hv', hne⟩ := valueOf_of_not_isZero hb hz
  rw [divContract_of_not_isNaN ha.1 hb.1, hv, hv', divValues, if_neg hne]
  split_ifs with hm
  · exact .zero
  · exact .rounded _ ⟨Nat.pos_of_ne_zero hm, Nat.pos_of_ne_zero hne⟩

/-- A nonzero exact result gives its sign, also where it rounds to zero. -/
theorem exec_wait_sign_of_ne_zero (hi : i ∈ arithmeticOps fmt rm) (hp : s.phase = .wait)
    (hfin : ∀ y ∈ s.usedOperands i, IsFinite fmt y) (hx : exactResult i fmt s = some x) (hne : x ≠ 0) :
    ∃ t, exec i s = .next t ∧ (fmt.sign t.res = true ↔ x < 0) := by
  obtain ⟨h0, -⟩ | ⟨neg, mag, hpos, hxmag, hk⟩ := exec_wait_roundsOnce hi hp hfin hx
  · exact absurd h0 hne
  · obtain ⟨hl, hw⟩ := arithmeticOps_dispatched hi
    obtain ⟨t, hexec, hsign⟩ := exec_wait_hasSign hl hp hw hk (.rounded mag hpos)
    exact ⟨t, hexec, by rw [hsign, hxmag, signFactor_mul_neg_iff neg (Magnitude.real_pos hpos)]⟩

theorem eq_of_mem_usedOperands {y : XWord} (h : y ∈ s.usedOperands i) : y = s.a ∨ y = s.b ∨ y = s.c := by
  simpa using List.mem_of_mem_take h

end Sys2Proof.Machine
end

section
/-! Results that are numbers of the format, so that rounding changes nothing (42_arithmetic.md R116, R118). -/

namespace Sys2Proof.Machine

variable {fmt : Fmt} {rm : Rm} {i : Instr} {s : State} {a b : XWord} {neg : Bool} {m n : Nat} {e : Int}

/-! ## Numbers of the format -/

/-- A significand of at most `F + 1` bits over a last place not below that of the subnormals is a magnitude of the format
with its exponent range continued. -/
theorem exists_gridValue_eq (F : Nat) (q0 : Int) (d : Nat) :
    ∀ m : Nat, m < 2 ^ (F + 1) → ∃ n, gridValue F q0 n = m * (2 : ℝ) ^ (q0 + d) := by
  induction d with
  | zero => exact fun m hm => ⟨0 * 2 ^ F + m, gridValue_units F q0 0 m (.inl rfl) hm.le⟩
  | succ d ih =>
    intro m hm
    by_cases hF : 2 ^ F ≤ m
    · exact ⟨_, gridValue_units F q0 (d + 1) m (.inr hF) hm.le⟩
    · obtain ⟨n, hn⟩ := ih (2 * m) (by rw [pow_succ]; omega)
      refine ⟨n, hn.trans ?_⟩
      rw [Nat.cast_succ, ← add_assoc, zpow_add_one₀ two_ne_zero]
      push_cast
      ring

theorem exists_finite_gridValue_eq (hm : m < 2 ^ (fmt.fracWidth + 1)) (he : fmt.qMin ≤ e)
    (hmax : (m : ℝ) * 2 ^ e < 2 ^ (fmt.bias + 1)) :
    ∃ n < fmt.infMag, gridValue fmt.fracWidth fmt.qMin n = m * (2 : ℝ) ^ e := by
  obtain ⟨d, hd⟩ := Int.eq_ofNat_of_zero_le (sub_nonneg.mpr he)
  obtain ⟨n, hn⟩ := exists_gridValue_eq fmt.fracWidth fmt.qMin d m hm
  rw [show fmt.qMin + (d : Int) = e by omega] at hn
  exact ⟨n, (gridValue_strictMono fmt.fracWidth fmt.qMin).lt_iff_lt.mp (by rwa [hn, gridValue_infMag]), hn⟩

/-- Rounding a magnitude that the format has gives that magnitude and is exact. -/
theorem roundTo_of_eq_gridValue (rm : Rm) (neg : Bool) {x : Magnitude} (hx : x.Positive) (hn : n < fmt.infMag)
    (hreal : x.real = gridValue fmt.fracWidth fmt.qMin n) :
    (roundTo fmt rm neg x).pattern = fmt.pattern neg n ∧ (roundTo fmt rm neg x).inexact = false ∧
      (roundTo fmt rm neg x).overflow = false := by
  obtain ⟨l, r, hb, hover, hinexact, hpattern⟩ := roundTo_spec fmt rm neg x hx
  have hg := gridValue_strictMono fmt.fracWidth fmt.qMin
  have hlt := hg (Nat.lt_succ_self l)
  rw [hreal] at hb
  obtain ⟨hle, hlt'⟩ := hb.le hlt
  obtain rfl : n = l := le_antisymm (Nat.lt_succ_iff.mp (hg.lt_iff_lt.mp hlt')) (hg.le_iff_le.mp hle)
  obtain ⟨rfl, -⟩ := (hb.exact_or_lt hlt).resolve_right fun h => lt_irrefl _ h.2
  rw [takenMag_exact] at hover hinexact hpattern
  simp [hover, hinexact, hpattern, not_le.mpr hn]

/-- The contract of a finite value that the format has: that number, and no flag but possibly `UF`. -/
theorem ofValue_of_eq_gridValue (rm : Rm) (neg : Bool) (hn : n < fmt.infMag)
    (h : gridValue fmt.fracWidth fmt.qMin n = m * (2 : ℝ) ^ e) :
    ∃ tiny, Contract.ofValue fmt rm (.fin neg m e) =
      { res := .bits (fmt.pattern neg n), must := 0, may := flagIf tiny flagUF } := by
  rw [Contract.ofValue]
  split_ifs with hm
  · rw [hm, Nat.cast_zero, zero_mul, ← gridValue_zero fmt.fracWidth fmt.qMin] at h
    obtain rfl := (gridValue_strictMono _ _).injective h
    exact ⟨false, rfl⟩
  · obtain ⟨hpattern, hinexact, hover⟩ := roundTo_of_eq_gridValue (fmt := fmt) (x := .ratio m 1 e) rm neg
      ⟨Nat.pos_of_ne_zero hm, one_pos⟩ hn (by rw [h, Magnitude.real, Nat.cast_one, div_one])
    refine ⟨(roundTo fmt rm neg (.ratio m 1 e)).tinyBefore, ?_⟩
    simp [Contract.rounded, hpattern, hinexact, hover, flagIf]

/-- The value of the pattern of such a number. -/
theorem realValue_pattern_of_eq_gridValue (neg : Bool) (hn : n < fmt.infMag)
    (h : gridValue fmt.fracWidth fmt.qMin n = m * (2 : ℝ) ^ e) :
    realValue fmt (fmt.pattern neg n) = signRat neg * (m * 2 ^ e) := by
  have hreal : (realValue fmt (fmt.pattern neg n) : ℝ) = ((signRat neg * (m * 2 ^ e) : ℚ) : ℝ) := by
    rw [realValue_pattern fmt neg n (hn.trans fmt.infMag_lt), h]
    cases neg <;> simp [signFactor, signRat]
  exact_mod_cast hreal

/-- The zero of the format among these numbers. -/
theorem realValue_pattern_eq_zero_iff (neg : Bool) (hn : n < fmt.infMag) :
    realValue fmt (fmt.pattern neg n) = 0 ↔ n = 0 := by
  have hinj := (gridValue_strictMono fmt.fracWidth fmt.qMin).injective.eq_iff (a := n) (b := 0)
  rw [gridValue_zero] at hinj
  rw [← Rat.cast_eq_zero (α := ℝ), realValue_pattern fmt neg n (hn.trans fmt.infMag_lt),
    mul_eq_zero_iff_left (signFactor_ne_zero neg), hinj]

/-- A command whose contract asks for a number of the format completes with it, and with `NX` as the contract says and no
other flag but possibly `UF`. -/
theorem exec_wait_number {inexact tiny : Bool} (hl : i.isLocal = false) (hp : s.phase = .wait)
    (hw : i.outWidth = fmt.width) (hn : n < fmt.infMag) (hk : contractOf i s.a s.b s.c =
      some { res := .bits (fmt.pattern neg n), must := flagIf inexact flagNX, may := flagIf tiny flagUF }) :
    ∃ t, exec i s = .next t ∧ t.status = .ok ∧ t.res = fmt.pattern neg n ∧ NX t.rflags = inexact ∧
      OF t.rflags = false := by
  have hflags : ∀ (inexact tiny : Bool) (fl : FlagBits),
      NX (flagIf inexact flagNX ||| (flagIf tiny flagUF &&& fl)) = inexact ∧
      OF (flagIf inexact flagNX ||| (flagIf tiny flagUF &&& fl)) = false := by decide
  obtain ⟨fl, hexec⟩ := exec_wait_bits hl hp hw hk rfl
  exact ⟨_, hexec, rfl, low_pattern fmt neg (hn.trans fmt.infMag_lt), hflags inexact tiny fl⟩

/-! ## Significands and exponents -/

theorem realValue_eq_of_valueOf (h : valueOf fmt a = .fin neg m e) : realValue fmt a = signRat neg * (m * 2 ^ e) :=
  realValue_of_valueOf h

theorem valueOf_bounds (h : valueOf fmt a = .fin neg m e) : m < 2 ^ (fmt.fracWidth + 1) ∧ fmt.qMin ≤ e := by
  have hfrac := fmt.frac_lt a
  rw [pow_succ]
  unfold valueOf at h
  split_ifs at h with hinf hexp <;> cases h
  · exact ⟨by omega, le_rfl⟩
  · exact ⟨by omega, by omega⟩

/-- The magnitude of a finite value is below the power of two after the largest one. -/
theorem valueOf_lt (hfin : IsFinite fmt a) (h : valueOf fmt a = .fin neg m e) :
    (m : ℝ) * 2 ^ e < 2 ^ (fmt.bias + 1) := by
  obtain ⟨m', e', hv, hr⟩ := valueOf_eq_fin hfin
  cases h.symm.trans hv
  rw [realValue_eq] at hr
  rw [← mul_left_cancel₀ (signFactor_ne_zero _) hr, ← gridValue_infMag]
  exact gridValue_strictMono _ _ ((isFinite_iff fmt a).mp hfin)

end Sys2Proof.Machine
end

section
/-! The remainder (42_arithmetic.md R116) over the smaller of the two last places, where it is a remainder of naturals. -/

namespace Sys2Proof.Machine

variable {fmt : Fmt} {s : State} {a b : XWord}

/-! ## The remainder of naturals -/

section
variable (x y : Nat)

/-- The nearest quotient is the one above, ties to even. -/
def remUp : Bool := decide (y < 2 * (x % y)) || (2 * (x % y) == y && x / y % 2 == 1)

/-- The distance of `x` from the nearest multiple of `y`. -/
def remMag : Nat := if remUp x y then y - x % y else x % y

/-- The integer nearest the quotient. -/
def remQuotient : Nat := if remUp x y then x / y + 1 else x / y

theorem remFinite_eq (n1 : Bool) (m1 : Nat) (e1 : Int) (m2 : Nat) (e2 : Int) :
    remFinite fmt n1 m1 e1 m2 e2 = Contract.ofValue fmt .rne
      (.fin (if remUp (m1 * pow2 (e1 - min e1 e2)) (m2 * pow2 (e2 - min e1 e2)) then !n1 else n1)
        (remMag (m1 * pow2 (e1 - min e1 e2)) (m2 * pow2 (e2 - min e1 e2))) (min e1 e2)) := rfl

variable {x y}

theorem remUp_zero (y : Nat) : remUp 0 y = false := by
  simp [remUp]

/-- A remainder `r` of a division by `y` rounds up to nearest even when it is above the half, or at it below an odd
quotient. -/
theorem roundsUp_rne_residueOf {r : Nat} (hy : 0 < y) (neg odd : Bool) :
    roundsUp .rne neg odd (residueOf r y) = (decide (y < 2 * r) || (2 * r == y && odd)) := by
  unfold residueOf
  split_ifs with hzero hlt heq
  · show false = _
    simp [hzero, beq_eq_decide, hy.ne]
  · show false = _
    simp [beq_eq_decide, hlt.le, hlt.ne]
  · show odd = _
    simp [heq]
  · show true = _
    simp [lt_of_le_of_ne (not_lt.mp hlt) (Ne.symm heq)]

/-- Rounding the quotient to nearest even takes that integer. -/
theorem takenMag_residueOf (hy : 0 < y) (neg : Bool) :
    takenMag .rne neg (x / y) (residueOf (x % y) y) = remQuotient x y := by
  rw [takenMag, roundsUp_rne_residueOf hy, remQuotient, remUp]

theorem remMag_le_left (x y : Nat) : remMag x y ≤ x := by
  have hle := Nat.mod_le x y
  rw [remMag]
  split_ifs with hup
  · simp only [remUp, Bool.or_eq_true, decide_eq_true_eq, Bool.and_eq_true, beq_iff_eq] at hup
    omega
  · exact hle

theorem remMag_le_right (hy : 0 < y) : remMag x y ≤ y := by
  have hlt := Nat.mod_lt x hy
  rw [remMag]
  split_ifs <;> omega

/-- Where the quotient above is taken, the remainder is not zero. -/
theorem remUp_eq_false_of_remMag (hy : 0 < y) (h : remMag x y = 0) : remUp x y = false := by
  have hlt := Nat.mod_lt x hy
  by_contra hup
  rw [remMag, if_pos (by simpa using hup)] at h
  omega

/-- The signed remainder is the dividend less the divisor times the nearest quotient. -/
theorem signRat_mul_remMag (hy : 0 < y) (neg : Bool) : signRat (if remUp x y then !neg else neg) * remMag x y =
    signRat neg * (x - y * remQuotient x y) := by
  have hle := (Nat.mod_lt x hy).le
  have hdiv : (x : ℚ) = y * (x / y : Nat) + (x % y : Nat) := by exact_mod_cast (Nat.div_add_mod x y).symm
  rw [remMag, remQuotient]
  cases remUp x y
  · simp only [Bool.false_eq_true, if_false]
    linear_combination -(signRat neg) * hdiv
  · have hnot : signRat (!neg) = -signRat neg := by cases neg <;> simp [signRat]
    simp only [if_true]
    rw [hnot, Nat.cast_sub hle]
    push_cast
    linear_combination -(signRat neg) * hdiv

/-- The nearest quotient is the quotient rounded to an integer. -/
theorem roundsToInt_quotient (hy : 0 < y) (neg : Bool) : RoundsToInt .rne (signRat neg * ((x : ℚ) / y))
    (signedInt neg (remQuotient x y)) := by
  rw [← takenMag_residueOf hy neg]
  refine roundsToInt_taken .rne neg (by positivity) ?_
  have hplaces := residueOf_places x y hy
  rw [← div_one ((x : ℝ) / y)] at hplaces
  have hbetween := hplaces.between one_pos
  push_cast
  simpa using hbetween

end

/-! ## `REM` (R116) -/

theorem signRat_bne (n1 n2 : Bool) : signRat (n1 != n2) = signRat n1 * signRat n2 := by
  cases n1 <;> cases n2 <;> simp [signRat]

/-- A significand over a smaller last place. -/
theorem mul_zpow_eq_units {K : Type} [Field K] [CharZero K] (m : Nat) {e1 e : Int} (h : e ≤ e1) :
    (m : K) * 2 ^ e1 = (m * pow2 (e1 - e) : Nat) * 2 ^ e := by
  obtain ⟨d, hd⟩ := Int.eq_ofNat_of_zero_le (sub_nonneg.mpr h)
  rw [hd, pow2, Int.toNat_natCast, Nat.cast_mul, mul_assoc, Nat.cast_pow, Nat.cast_ofNat, ← zpow_natCast,
    ← zpow_add₀ two_ne_zero, show (d : Int) + e = e1 by omega]

section
variable {n1 n2 : Bool} {m1 m2 : Nat} {e1 e2 : Int}

/-- A nonzero finite divisor: the remainder of the values, a zero dividend included. -/
theorem remContract_of_isFinite (ha : IsFinite fmt a) (hb : IsFinite fmt b) (hva : valueOf fmt a = .fin n1 m1 e1)
    (hvb : valueOf fmt b = .fin n2 m2 e2) (hm2 : m2 ≠ 0) : remContract fmt a b = remFinite fmt n1 m1 e1 m2 e2 := by
  rw [remContract_of_not_isNaN ha.1 hb.1, hva, hvb, remValues, if_neg hm2]
  split_ifs with hm1
  · rw [remFinite_eq, hm1, zero_mul, remUp_zero, Contract.ofValue,
      if_pos (Nat.le_zero.mp (remMag_le_left _ _))]
    rfl
  · rfl

/-- The remainder is a number of the format: over the smaller last place it is at most the significand that has it. -/
theorem remMag_gridValue (ha : IsFinite fmt a) (hva : valueOf fmt a = .fin n1 m1 e1)
    (hvb : valueOf fmt b = .fin n2 m2 e2) (hm2 : m2 ≠ 0) :
    ∃ n < fmt.infMag, gridValue fmt.fracWidth fmt.qMin n =
      (remMag (m1 * pow2 (e1 - min e1 e2)) (m2 * pow2 (e2 - min e1 e2)) : Nat) * (2 : ℝ) ^ min e1 e2 := by
  obtain ⟨hm1lt, he1⟩ := valueOf_bounds hva
  obtain ⟨hm2lt, he2⟩ := valueOf_bounds hvb
  set x := m1 * pow2 (e1 - min e1 e2)
  set y := m2 * pow2 (e2 - min e1 e2)
  have hy : 0 < y := Nat.mul_pos (Nat.pos_of_ne_zero hm2) (pow2_pos _)
  have hleft := remMag_le_left x y
  have hright : remMag x y ≤ y := remMag_le_right hy
  refine exists_finite_gridValue_eq ?_ (le_min he1 he2) ?_
  · obtain hle | hle := le_total e1 e2
    · have hx : x = m1 := by simp [x, hle, pow2]
      omega
    · have hym : y = m2 := by simp [y, hle, pow2]
      omega
  · have hxval : ((m1 : ℝ) * 2 ^ e1) = (x : ℝ) * 2 ^ min e1 e2 := mul_zpow_eq_units m1 (min_le_left e1 e2)
    refine lt_of_le_of_lt ?_ (hxval ▸ valueOf_lt ha hva)
    exact mul_le_mul_of_nonneg_right (Nat.cast_le.mpr hleft) (zpow_pos two_pos _).le

end

/-- The remainder of finite operands by a nonzero divisor: a number of the format, exactly `a - b q` with `q` the integer
nearest the quotient, under the sign of the dividend where it is zero. -/
theorem remContract_exact (ha : IsFinite fmt a) (hb : IsFinite fmt b) (hz : fmt.isZero b = false) :
    ∃ (neg : Bool) (n : Nat) (tiny : Bool) (q : Int), n < fmt.infMag ∧
      remContract fmt a b = { res := .bits (fmt.pattern neg n), must := 0, may := flagIf tiny flagUF } ∧
      realValue fmt (fmt.pattern neg n) = realValue fmt a - realValue fmt b * q ∧
      RoundsToInt .rne (realValue fmt a / realValue fmt b) q ∧ (n = 0 → neg = fmt.sign a) := by
  obtain ⟨m1, e1, hva, -⟩ := valueOf_isFinite ha
  obtain ⟨m2, e2, hvb, hne⟩ := valueOf_of_not_isZero hb hz
  obtain ⟨n, hn, hgrid⟩ := remMag_gridValue ha hva hvb hne
  have hk := remContract_of_isFinite ha hb hva hvb hne
  have hra := realValue_eq_of_valueOf hva
  have hrb := realValue_eq_of_valueOf hvb
  rw [mul_zpow_eq_units m1 (min_le_left e1 e2)] at hra
  rw [mul_zpow_eq_units m2 (min_le_right e1 e2)] at hrb
  rw [remFinite_eq] at hk
  have hy : 0 < m2 * pow2 (e2 - min e1 e2) := Nat.mul_pos (Nat.pos_of_ne_zero hne) (pow2_pos _)
  generalize m1 * pow2 (e1 - min e1 e2) = x at *
  generalize m2 * pow2 (e2 - min e1 e2) = y at *
  obtain ⟨tiny, hof⟩ := ofValue_of_eq_gridValue .rne (if remUp x y then !fmt.sign a else fmt.sign a) hn hgrid
  refine ⟨_, n, tiny, signedInt (fmt.sign a != fmt.sign b) (remQuotient x y), hn, hk.trans hof, ?_, ?_, fun h0 => ?_⟩
  · have hsigns : signRat (fmt.sign b) * signRat (fmt.sign a != fmt.sign b) = signRat (fmt.sign a) := by
      rw [signRat_bne, mul_left_comm, signRat_mul_self, mul_one]
    rw [realValue_pattern_of_eq_gridValue _ hn hgrid, ← mul_assoc, signRat_mul_remMag hy, hra, hrb, signedInt_cast,
      ← hsigns]
    ring
  · have hquotient : realValue fmt a / realValue fmt b = signRat (fmt.sign a != fmt.sign b) * ((x : ℚ) / y) := by
      have hinv : (signRat (fmt.sign b))⁻¹ = signRat (fmt.sign b) := inv_eq_of_mul_eq_one_left (signRat_mul_self _)
      rw [hra, hrb, mul_div_mul_comm, mul_div_mul_right _ _ (zpow_ne_zero _ two_ne_zero), signRat_bne, div_eq_mul_inv,
        hinv]
    rw [hquotient]
    exact roundsToInt_quotient hy _
  · rw [h0, gridValue_zero, eq_comm, mul_eq_zero_iff_right (zpow_ne_zero _ two_ne_zero), Nat.cast_eq_zero] at hgrid
    rw [remUp_eq_false_of_remMag hy hgrid, if_neg Bool.false_ne_true]

theorem exec_rem_ignores_mode (rm rm' : Rm) (hp : s.phase = .wait) : exec (.rem fmt rm) s = exec (.rem fmt rm') s := by
  rw [exec_of_not_local _ s rfl, exec_of_not_local _ s rfl, unitCommand_wait _ s hp, unitCommand_wait _ s hp,
    answer_request (i := .rem fmt rm) rfl, answer_request (i := .rem fmt rm') rfl]
  rfl

end Sys2Proof.Machine
end

section
/-! Rounding to an integral value of the format (42_arithmetic.md R118, R125). -/

namespace Sys2Proof.Machine

variable {fmt : Fmt} {rm : Rm} {s : State} {a : XWord} {neg : Bool} {m : Nat} {e : Int}

/-! ## The bits of the format -/

/-- The bits above the width are no part of the value. -/
theorem mag_low (fmt : Fmt) (a : XWord) : fmt.mag (low fmt.width a) = fmt.mag a := by
  rw [fmt.mag_eq_mod, fmt.mag_eq_mod, low_toNat _ _ fmt.width_le]
  exact Nat.mod_mod_of_dvd _ (Nat.pow_dvd_pow 2 (Nat.sub_le _ _))

theorem sign_low (fmt : Fmt) (a : XWord) : fmt.sign (low fmt.width a) = fmt.sign a := by
  cases fmt <;> simp [Fmt.sign, low, Fmt.width]

theorem realValue_low (fmt : Fmt) (a : XWord) : realValue fmt (low fmt.width a) = realValue fmt a :=
  realValue_eq_of_mag_eq (mag_low fmt a) (sign_low fmt a)

theorem isFinite_low (ha : IsFinite fmt a) : IsFinite fmt (low fmt.width a) := by
  rw [isFinite_iff, mag_low]
  exact (isFinite_iff fmt a).mp ha

/-! ## Rounding to an integer -/

theorem roundToInteger_eq (rm : Rm) (neg : Bool) (m : Nat) (e : Int) : roundToInteger rm neg m e =
    (takenMag rm neg (m * pow2 e / pow2 (-e)) (residueOf (m * pow2 e % pow2 (-e)) (pow2 (-e))),
      residueOf (m * pow2 e % pow2 (-e)) (pow2 (-e)) != .exact) := by
  simp [roundToInteger, Magnitude.roundAt, Magnitude.inUnits, takenMag]

theorem pow2_of_nonpos {k : Int} (h : k ≤ 0) : pow2 k = 1 := by
  rw [pow2, Int.toNat_of_nonpos h, pow_zero]

/-- A value that is not an integer has its last place below the units, so it rounds to half its significand at most. -/
theorem roundToInteger_le (h : (roundToInteger rm neg m e).2 = true) : (roundToInteger rm neg m e).1 ≤ m / 2 + 1 := by
  rw [roundToInteger_eq] at h ⊢
  have hneg : e < 0 := by
    by_contra hpos
    rw [pow2_of_nonpos (k := -e) (by omega), Nat.mod_one] at h
    exact absurd h (by simp [residueOf])
  obtain ⟨d, hd⟩ : ∃ d : Nat, (-e).toNat = d + 1 := Nat.exists_eq_succ_of_ne_zero (by omega)
  have hquotient : m * pow2 e / pow2 (-e) ≤ m / 2 := by
    rw [pow2_of_nonpos hneg.le, mul_one, pow2, hd, pow_succ']
    exact Nat.div_le_div_left (Nat.le_mul_of_pos_right 2 (Nat.two_pow_pos d)) two_pos
  have htaken := takenMag_mem rm neg (m * pow2 e / pow2 (-e)) (residueOf (m * pow2 e % pow2 (-e)) (pow2 (-e)))
  simp only
  omega

/-- An integer that a finite value of the format rounds to is a number of the format. -/
theorem roundToInteger_gridValue (hm : m < 2 ^ (fmt.fracWidth + 1)) (h : (roundToInteger rm neg m e).2 = true) :
    ∃ n < fmt.infMag, gridValue fmt.fracWidth fmt.qMin n =
      ((roundToInteger rm neg m e).1 : Nat) * (2 : ℝ) ^ (0 : Int) := by
  have hle := roundToInteger_le h
  have hpos := fmt.fracWidth_pos
  generalize (roundToInteger rm neg m e).1 = k at hle ⊢
  have hk : k ≤ 2 ^ fmt.fracWidth := by
    rw [pow_succ] at hm
    omega
  have hbias : fmt.fracWidth < fmt.bias + 1 := by cases fmt <;> decide
  have hqMin : fmt.qMin ≤ 0 := by cases fmt <;> decide
  refine exists_finite_gridValue_eq (hk.trans_lt (Nat.pow_lt_pow_right one_lt_two (Nat.lt_succ_self _))) hqMin ?_
  rw [zpow_zero, mul_one]
  exact_mod_cast hk.trans_lt (Nat.pow_lt_pow_right one_lt_two hbias)

/-! ## `RINT` -/

/-- What R118 and R125 say of the response `t` to `RINT` of the finite operand `a`, with `j` the integer. -/
def State.RoundsToIntegral (fmt : Fmt) (rm : Rm) (a : XWord) (j : Int) (t : State) : Prop :=
  t.status = .ok ∧ IsFinite fmt t.res ∧ realValue fmt t.res = j ∧ RoundsToInt rm (realValue fmt a) j ∧
  fmt.sign t.res = fmt.sign a ∧
  (realValue fmt a = j → t.res.toNat = a.toNat % 2 ^ fmt.width ∧ t.rflags = 0) ∧
  (NX t.rflags = true ↔ Config.rintInexact = true ∧ realValue fmt t.res ≠ realValue fmt a)

section
variable (hp : s.phase = .wait) (ha : IsFinite fmt s.a) (hva : valueOf fmt s.a = .fin neg m e)
include hp ha hva

/-- A value that is an integer comes back bit for bit. -/
theorem exec_rint_integral (h : (roundToInteger rm neg m e).2 = false) :
    exec (.rint fmt rm) s = .next (s.WithResponse (low fmt.width s.a) 0) := by
  have hk := rintContract_of_not_isNaN (rm := rm) ha.1
  simp only [hva, rintValue, h, Bool.false_eq_true, if_false] at hk
  have hexec := exec_wait_determined (i := .rint fmt rm) rfl hp (congrArg some hk) rfl rfl
  rwa [show (Instr.rint fmt rm).outWidth = fmt.width from rfl, low_low _ _ fmt.width_le] at hexec

/-- Any other value gives the integer it rounds to, which is a number of the format. -/
theorem exec_rint_changed (h : (roundToInteger rm neg m e).2 = true) : ∃ n < fmt.infMag,
    realValue fmt (fmt.pattern neg n) = signedInt neg (roundToInteger rm neg m e).1 ∧
    ∃ t, exec (.rint fmt rm) s = .next t ∧ t.status = .ok ∧ t.res = fmt.pattern neg n ∧
      NX t.rflags = Config.rintInexact := by
  obtain ⟨hm, -⟩ := valueOf_bounds hva
  obtain ⟨n, hn, hgrid⟩ := roundToInteger_gridValue hm h
  obtain ⟨tiny, hof⟩ := ofValue_of_eq_gridValue .rne neg hn hgrid
  have hk := rintContract_of_not_isNaN (rm := rm) ha.1
  simp only [hva, rintValue, h, if_true, hof] at hk
  obtain ⟨t, hexec, hst, hres, hnx, -⟩ := exec_wait_number (i := .rint fmt rm) rfl hp rfl hn (congrArg some hk)
  refine ⟨n, hn, ?_, t, hexec, hst, hres, hnx⟩
  rw [realValue_pattern_of_eq_gridValue _ hn hgrid, zpow_zero, mul_one, signedInt_cast]

end

theorem exec_rint_finite (hp : s.phase = .wait) (ha : IsFinite fmt s.a) :
    ∃ t j, exec (.rint fmt rm) s = .next t ∧ t.RoundsToIntegral fmt rm s.a j := by
  obtain ⟨m, e, hva, -⟩ := valueOf_isFinite ha
  have hval := realValue_eq_of_valueOf hva
  obtain ⟨hrounds, hexact⟩ := roundToInteger_spec rm (fmt.sign s.a) m e
  rw [← hval] at hrounds
  cases hchanged : (roundToInteger rm (fmt.sign s.a) m e).2 with
  | false =>
    have hlow := realValue_low fmt s.a
    have hj : realValue fmt s.a = signedInt (fmt.sign s.a) (roundToInteger rm (fmt.sign s.a) m e).1 := by
      rw [hval, signedInt_cast, hexact.mp hchanged]
    refine ⟨_, _, exec_rint_integral hp ha hva hchanged, rfl, isFinite_low ha, hlow.trans hj, hrounds, sign_low fmt s.a,
      fun _ => ⟨low_toNat _ _ fmt.width_le, rfl⟩, ?_⟩
    exact iff_of_false (show ¬ NX 0 = true by decide) fun h => h.2 hlow
  | true =>
    obtain ⟨n, hn, hj, t, hexec, hst, hres, hnx⟩ := exec_rint_changed (rm := rm) hp ha hva hchanged
    have hne : realValue fmt s.a ≠ signedInt (fmt.sign s.a) (roundToInteger rm (fmt.sign s.a) m e).1 := by
      intro h
      rw [hval, signedInt_cast] at h
      have hs : signRat (fmt.sign s.a) ≠ 0 := left_ne_zero_of_mul_eq_one (signRat_mul_self _)
      exact Bool.false_ne_true ((hexact.mpr (mul_left_cancel₀ hs h)).symm.trans hchanged)
    rw [← hres] at hj
    refine ⟨t, _, hexec, hst, hres ▸ isFinite_pattern fmt _ n hn, hj, hrounds,
      hres ▸ fmt.sign_pattern _ n (hn.trans fmt.infMag_lt), fun h => absurd h hne, ?_⟩
    rw [hnx]
    exact iff_self_and.mpr fun _ => hj.trans_ne hne.symm

end Sys2Proof.Machine
end

section
/-! The statements on arithmetic (42_arithmetic.md). -/

namespace Sys2Proof.Machine

/-- Settles O39: the contract asks for a NaN, and leaves `NV` open only in the two cases set apart. -/
theorem arithmeticPropagatesNaNs : Obligations.ArithmeticPropagatesNaNs := by
  intro fmt rm i s hi hp hnan
  obtain ⟨hl, hw⟩ := arithmeticOps_dispatched hi
  obtain ⟨free, hk, hfree⟩ := contractOf_of_isNaN hi hnan
  obtain ⟨t, hexec, hdone, hst, hres, -, hraised, hclear⟩ := exec_wait_nanContract hl hp hw hk
  refine ⟨t, hexec, hdone, hst, hres, fun hs => hraised (List.any_eq_true.mpr hs), fun hs hfma hrem => ?_⟩
  refine hclear (List.any_eq_false.mpr fun x hx => by simp [hs x hx]) (Bool.eq_false_iff.mpr fun hf => ?_)
  exact (hfree hf).elim hfma hrem

/-- Settles O40: the contracts of R121, operation by operation. -/
theorem listedInvalidOperations : Obligations.ListedInvalidOperations := by
  intro fmt rm s hp
  refine ⟨fun h => ?_, fun ⟨ha, hb, hs⟩ => ?_, fun ⟨ha, hb, hs⟩ => ?_, fun ⟨hab, hc, hs⟩ => ?_,
    fun ⟨hs, ha, hz⟩ => ?_, fun ⟨ha, hz, hb⟩ => ?_⟩
  · exact exec_wait_invalid rfl hp rfl (congrArg some (divContract_invalid h))
  · exact exec_wait_invalid rfl hp rfl (congrArg some (addContract_invalid ha hb hs))
  · exact exec_wait_invalid rfl hp rfl (congrArg some (subContract_invalid ha hb hs))
  · exact exec_wait_invalid rfl hp rfl (congrArg some (fmaContract_invalid hab hc hs))
  · exact exec_wait_invalid rfl hp rfl (congrArg some (sqrtContract_invalid hs ha hz))
  · have hexec := exec_wait_determined (i := .div fmt rm) rfl hp (congrArg some (divContract_by_zero ha hz hb)) rfl rfl
    rw [show (Instr.div fmt rm).outWidth = fmt.width from rfl, low_pattern_infMag] at hexec
    exact ⟨_, hexec, rfl, show DZ flagDZ = true by decide, isInf_signedInfinity fmt _, sign_signedInfinity fmt _⟩

/-- Settles O41: equal magnitudes make an exact zero sum or difference. -/
theorem cancellingSumsAreSignedZeros : Obligations.CancellingSumsAreSignedZeros := by
  intro fmt rm s hp ha hb hmag
  have hsum (h : realValue fmt s.a + realValue fmt s.b = 0) := exec_wait_zero (i := .add fmt rm) rfl hp rfl
    (congrArg some (addContract_zero ha hb h))
  have hdiff (h : realValue fmt s.a - realValue fmt s.b = 0) := exec_wait_zero (i := .sub fmt rm) rfl hp rfl
    (congrArg some (subContract_zero ha hb h))
  refine ⟨fun hs => ?_, fun hs => ?_, fun hz hs => ?_, fun hz hs => ?_⟩
  · rw [hsum (by rw [realValue_eq_neg_of_mag_eq hmag hs, neg_add_cancel]), zeroSumSign_of_ne hs]
  · rw [hdiff (by rw [realValue_eq_of_mag_eq hmag hs, sub_self]), zeroSumSign_of_ne (by simp [hs])]
  · have hzero := realValue_of_isZero hz
    rw [hsum (by rw [← realValue_eq_of_mag_eq hmag hs, hzero, add_zero]), ← hs, zeroSumSign_self]
  · have hzero := realValue_of_isZero hz
    have hneg := realValue_eq_neg_of_mag_eq hmag hs
    rw [hdiff (by rw [sub_eq_add_neg, ← hneg, hzero, add_zero]), ← Bool.eq_not.mpr hs, zeroSumSign_self]

/-- Settles O42: the contract of a zero. -/
theorem sqrtOfZeroIsThatZero : Obligations.SqrtOfZeroIsThatZero :=
  fun _ _ _ hp hz => exec_wait_zero rfl hp rfl (congrArg some (sqrtContract_zero hz))

/-- Settles O43: the request of `REM` and its contract do not have the mode, and the contract asks for the exact remainder. -/
theorem remainderIgnoresTheModeAndIsExact : Obligations.RemainderIgnoresTheModeAndIsExact := by
  intro fmt rm rm' s hp
  refine ⟨exec_rem_ignores_mode rm rm' hp, fun ha hb hz => ?_⟩
  obtain ⟨neg, n, tiny, q, hn, hk, hvalue, hq, hzero⟩ := remContract_exact ha hb hz
  obtain ⟨t, hexec, -, hres, hnx, hof⟩ := exec_wait_number (i := .rem fmt rm) (inexact := false) rfl hp rfl hn
    (congrArg some hk)
  rw [← hres] at hvalue
  refine ⟨t, hexec, hnx, hof, hres ▸ isFinite_pattern fmt neg n hn, q, hvalue, hq, fun h0 => ?_⟩
  rw [hres] at h0 ⊢
  rw [← hzero ((realValue_pattern_eq_zero_iff neg hn).mp h0)]
  exact fmt.sign_pattern neg n (hn.trans fmt.infMag_lt)

/-- Settles O44: an exact zero comes out as a zero without a flag, any other exact result as its magnitude rounded once. -/
theorem arithmeticIsCorrectlyRounded : Obligations.ArithmeticIsCorrectlyRounded := by
  intro fmt rm i s x hi hp hfin hx
  obtain ⟨rfl, neg, hexec⟩ | ⟨neg, mag, hpos, hxmag, hk⟩ := exec_wait_roundsOnce hi hp hfin hx
  · exact ⟨_, hexec, rfl, correctlyRounds_zero s fmt rm neg⟩
  · obtain ⟨hl, hw⟩ := arithmeticOps_dispatched hi
    exact exec_wait_correctlyRounds hpos hl hp hw hk hxmag

/-- Settles O46: an integral operand comes back as it is, and any other value rounds to a number of the format. -/
theorem rintRoundsToAnIntegralValue : Obligations.RintRoundsToAnIntegralValue :=
  fun _ _ _ => exec_rint_finite

/-- Settles O53: the contracts of infinite sums and products. -/
theorem infiniteSumsAndProducts : Obligations.InfiniteSumsAndProducts :=
  fun _ _ _ hp =>
    ⟨fun ha hb => exec_wait_infinity rfl hp rfl (congrArg some (addContract_inf_left ha hb)),
      fun ha hb => exec_wait_infinity rfl hp rfl (congrArg some (addContract_inf_right ha hb)),
      fun ha hb => exec_wait_infinity rfl hp rfl (congrArg some (subContract_inf_left ha hb)),
      fun ha hb => exec_wait_infinity rfl hp rfl (congrArg some (subContract_inf_right ha hb)),
      fun hab => exec_wait_infinity rfl hp rfl (congrArg some (mulContract_inf hab)),
      fun hab hc => exec_wait_infinity rfl hp rfl (congrArg some (fmaContract_inf_product hab hc)),
      fun ha hb hc => exec_wait_infinity rfl hp rfl (congrArg some (fmaContract_inf_addend ha hb hc))⟩

/-- Settles O54: the contracts of quotients, remainders and roots with an infinity. -/
theorem infiniteQuotientsRemaindersAndRoots : Obligations.InfiniteQuotientsRemaindersAndRoots :=
  fun _ _ _ hp =>
    ⟨fun ha hb => exec_wait_infinity rfl hp rfl (congrArg some (divContract_inf_left ha hb)),
      fun ha hb => exec_wait_zero rfl hp rfl (congrArg some (divContract_inf_right ha hb)),
      fun ha hb => exec_rem_inf_right hp ha hb,
      fun ha hs => exec_wait_infinity rfl hp rfl (congrArg some (sqrtContract_inf ha hs)),
      fun ha => exec_wait_infinity rfl hp rfl (congrArg some (rintContract_inf ha))⟩

/-- Settles O55: products and quotients by their contracts, zero sums of an `FMA` by theirs, and nonzero exact results by
the sign under which they are rounded. -/
theorem resultsHaveTheSignOfTheExactValue : Obligations.ResultsHaveTheSignOfTheExactValue := by
  intro fmt rm s hp ha hb
  refine ⟨exec_wait_hasSign rfl hp rfl rfl (mulContract_hasSign (rm := rm) ha hb),
    fun hz => exec_wait_hasSign rfl hp rfl rfl (divContract_hasSign (rm := rm) ha hb hz), fun hc h => ?_,
    fun i x hi hc hx hne => ?_⟩
  · rw [exec_wait_zero (i := .fma fmt rm) rfl hp rfl (congrArg some (fmaContract_zero ha hb hc h)), zeroSumSign_eq]
  · refine exec_wait_sign_of_ne_zero hi hp (fun y hy => ?_) hx hne
    obtain rfl | rfl | rfl := eq_of_mem_usedOperands hy
    exacts [ha, hb, hc]

/-- Settles O56: beside a NaN as R119 says, and otherwise by the choice of log entry 11. -/
theorem unlistedInvalidOperationsGiveNaN : Obligations.UnlistedInvalidOperationsGiveNaN := by
  intro fmt rm i s hp (h : UnlistedInvalid fmt rm i s)
  obtain ⟨hl, hw⟩ := arithmeticOps_dispatched h.mem_arithmeticOps
  obtain ⟨raised, free, hk⟩ : ∃ raised free, contractOf i s.a s.b s.c = some (nanContract fmt raised free) := by
    by_cases hnan : ∃ x ∈ s.usedOperands i, fmt.isNaN x = true
    · obtain ⟨free, hk, -⟩ := contractOf_of_isNaN h.mem_arithmeticOps hnan
      exact ⟨_, free, hk⟩
    · exact ⟨false, true, h.contractOf_eq (by simpa using hnan)⟩
  obtain ⟨t, hexec, -, hst, hres, hflags, -⟩ := exec_wait_nanContract hl hp hw hk
  exact ⟨t, hexec, hst, hres, hflags⟩

end Sys2Proof.Machine
end

section
/-! The six comparisons as LOCAL commands of two operands (43_comparison.md R131 to R136), and their results read off the
one four-way comparison (R138). -/

namespace Sys2Proof.Machine

/-! ## The codes of the results -/

theorem boolBit_lt (p : Bool) : (boolBit p).toNat < 2 ^ 1 := by
  cases p <;> decide

theorem Ordering4.code_lt (c : Ordering4) : c.code.toNat < 2 ^ 2 := by
  cases c <;> decide

theorem boolBit_eq_one_iff (p : Bool) : boolBit p = 1 ↔ p = true := by
  cases p <;> decide

theorem Ordering4.code_eq_zero_iff (c : Ordering4) : c.code = 0 ↔ c = .less := by
  cases c <;> decide

theorem Ordering4.code_eq_one_iff (c : Ordering4) : c.code = 1 ↔ c = .equal := by
  cases c <;> decide

theorem Ordering4.code_eq_two_iff (c : Ordering4) : c.code = 2 ↔ c = .greater := by
  cases c <;> decide

/-! ## The row, the check and the completion of a comparison -/

/-- The comparisons of a format. -/
def comparisons (fmt : Fmt) : List Instr := [.eq fmt, .lt fmt, .le fmt, .ltq fmt, .leq fmt, .cmp fmt]

variable {fmt : Fmt} {i : Instr} {s : State}

/-- What the rows of the comparisons have in common (R54, R80). -/
theorem comparisons_row (hi : i ∈ comparisons fmt) :
    i.arity = 2 ∧ i.inWidth = fmt.width ∧ i.isLocal = true ∧ i.fmtCode = fmt.code ∧
      tableUsesRm i.opcode.toNat = false := by
  simp only [comparisons, List.mem_cons, List.not_mem_nil, or_false] at hi
  obtain rfl | rfl | rfl | rfl | rfl | rfl := hi <;> exact ⟨rfl, rfl, rfl, rfl, rfl⟩

theorem decode_comparison (hi : i ∈ comparisons fmt) (r : BitVec 3) :
    decode (0#6 ++ r ++ fmt.code ++ i.opcode) = .ok i := by
  obtain ⟨-, -, -, hcode, hrm⟩ := comparisons_row hi
  exact hcode ▸ decode_append_of_not_usesRm hrm r

theorem operandsFit_iff_twoFit (hi : i ∈ comparisons fmt) : i.operandsFit s.a s.b s.c = true ↔ s.TwoFit fmt := by
  obtain ⟨harity, hwidth, -⟩ := comparisons_row hi
  rw [operandsFit_iff_usedOperands]
  simp [State.usedOperands, harity, hwidth, State.TwoFit]

/-- A comparison with a malformed operand is rejected (R43, R176). -/
theorem exec_comparison_unfit (hi : i ∈ comparisons fmt) (hp : s.phase = .idle) (hfit : ¬ s.TwoFit fmt) :
    exec i s = .next (s.WithRejection .width) :=
  exec_idle_unfit i s hp (Bool.eq_false_iff.mpr (mt (operandsFit_iff_twoFit hi).mp hfit))

/-- A comparison whose operands fit finishes (R80). -/
theorem exec_comparison_fit {finish : State → State} (hi : i ∈ comparisons fmt)
    (he : exec i s = localCommand i finish s) (hp : s.phase = .idle) (hfit : s.TwoFit fmt) :
    exec i s = .next (finish s) :=
  he.trans (localCommand_idle i finish s hp ((operandsFit_iff_twoFit hi).mpr hfit))

/-- The result of a comparison depends on its operands alone, whether they fit or not. -/
theorem comparison_res_congr {s' : State} (hi : i ∈ comparisons fmt) (hp : s.phase = .idle)
    (hp' : s'.phase = .idle) (ha : s.a = s'.a) (hb : s.b = s'.b) :
    ∃ t t', exec i s = .next t ∧ exec i s' = .next t' ∧ t.res = t'.res := by
  have hfit_iff : s.TwoFit fmt ↔ s'.TwoFit fmt := by rw [State.TwoFit, State.TwoFit, ha, hb]
  by_cases hfit : s.TwoFit fmt
  · obtain ⟨-, -, hl, -⟩ := comparisons_row hi
    obtain ⟨v, fl, he⟩ := exec_of_local_reads_operands hl (by rintro rfl; simp [comparisons] at hi)
      (by rintro rfl; simp [comparisons] at hi)
    refine ⟨_, _, exec_comparison_fit hi (he s) hp hfit, exec_comparison_fit hi (he s') hp' (hfit_iff.mp hfit), ?_⟩
    rw [ha, hb]
    rfl
  · exact ⟨_, _, exec_comparison_unfit hi hp hfit, exec_comparison_unfit hi hp' (mt hfit_iff.mpr hfit), rfl⟩

/-- A completion with a result of its width is not masked (R88). -/
theorem State.complete_eq_withResponse {w : Nat} {v : XWord} (fl : FlagBits) (hw : w ≤ 128) (hv : v.toNat < 2 ^ w) :
    s.complete w v fl = s.WithResponse v fl := by
  rw [State.complete, low_eq_self w v hw ((fits_iff_lt w v hw).mpr hv)]
  rfl

/-- A predicate whose operands fit delivers its bit and its flags. -/
theorem exec_predicate {p : State → Bool} {fl : State → FlagBits} (hi : i ∈ comparisons fmt)
    (he : ∀ t, exec i t = localCommand i (fun s => s.complete 1 (boolBit (p s)) (fl s)) t) (hp : s.phase = .idle)
    (hfit : s.TwoFit fmt) : exec i s = .next (s.WithResponse (boolBit (p s)) (fl s)) := by
  rw [exec_comparison_fit hi (he s) hp hfit, State.complete_eq_withResponse _ (by decide) (boolBit_lt _)]

theorem exec_cmp (s : State) : exec (.cmp fmt) s =
    localCommand (.cmp fmt) (fun s => s.complete 2 (compare4 fmt s.a s.b).code (cmpFlags fmt s.a s.b)) s := rfl

section
variable (hp : s.phase = .idle) (hfit : s.TwoFit fmt)
include hp hfit

theorem exec_eq_fit : exec (.eq fmt) s =
    .next (s.WithResponse (eqBit fmt s.a s.b) (quietCompareFlags fmt s.a s.b)) :=
  exec_predicate (i := .eq fmt) (by simp [comparisons]) (fun _ => rfl) hp hfit

theorem exec_lt_fit : exec (.lt fmt) s =
    .next (s.WithResponse (ltBit fmt s.a s.b) (signalingCompareFlags fmt s.a s.b)) :=
  exec_predicate (i := .lt fmt) (by simp [comparisons]) (fun _ => rfl) hp hfit

theorem exec_le_fit : exec (.le fmt) s =
    .next (s.WithResponse (leBit fmt s.a s.b) (signalingCompareFlags fmt s.a s.b)) :=
  exec_predicate (i := .le fmt) (by simp [comparisons]) (fun _ => rfl) hp hfit

theorem exec_ltq_fit : exec (.ltq fmt) s =
    .next (s.WithResponse (ltBit fmt s.a s.b) (quietCompareFlags fmt s.a s.b)) :=
  exec_predicate (i := .ltq fmt) (by simp [comparisons]) (fun _ => rfl) hp hfit

theorem exec_leq_fit : exec (.leq fmt) s =
    .next (s.WithResponse (leBit fmt s.a s.b) (quietCompareFlags fmt s.a s.b)) :=
  exec_predicate (i := .leq fmt) (by simp [comparisons]) (fun _ => rfl) hp hfit

theorem exec_cmp_fit : exec (.cmp fmt) s =
    .next (s.WithResponse (compare4 fmt s.a s.b).code (cmpFlags fmt s.a s.b)) := by
  have hfinish := exec_comparison_fit (i := .cmp fmt) (by simp [comparisons]) (exec_cmp s) hp hfit
  rw [hfinish, State.complete_eq_withResponse _ (by decide) (Ordering4.code_lt _)]

end

/-! ## Results and flags as conditions on the operands (R130, R137) -/

section
variable (fmt : Fmt) (a b : XWord)

theorem unordered_iff : fmt.unordered a b = true ↔ fmt.isNaN a = true ∨ fmt.isNaN b = true :=
  Bool.or_eq_true_iff

theorem quietCompareFlags_eq :
    quietCompareFlags fmt a b = if fmt.isSNaN a ∨ fmt.isSNaN b then 0x10 else 0 := by
  simp [quietCompareFlags, flagIf, anySNaN, flagNV]

theorem signalingCompareFlags_eq :
    signalingCompareFlags fmt a b = if fmt.isNaN a ∨ fmt.isNaN b then 0x10 else 0 := by
  simp [signalingCompareFlags, flagIf, unordered_iff, flagNV]

theorem cmpFlags_eq : cmpFlags fmt a b =
    if fmt.isSNaN a ∨ fmt.isSNaN b ∨ (Config.cmpQnanInvalid ∧ (fmt.isNaN a ∨ fmt.isNaN b)) then 0x10 else 0 := by
  simp [cmpFlags, flagIf, anySNaN, unordered_iff, flagNV, or_assoc, and_comm]

/-- A test that is false on a NaN, as a bit. -/
theorem boolBit_ordered (p : Bool) : boolBit (!fmt.unordered a b && p) =
    if fmt.isNaN a ∨ fmt.isNaN b then 0 else if p then 1 else 0 := by
  simp only [← unordered_iff]
  cases fmt.unordered a b <;> rfl

theorem eqBit_eq : eqBit fmt a b =
    if fmt.isNaN a ∨ fmt.isNaN b then 0 else if fmt.ord a = fmt.ord b then 1 else 0 := by
  simp [eqBit, boolBit_ordered]

theorem ltBit_eq : ltBit fmt a b =
    if fmt.isNaN a ∨ fmt.isNaN b then 0 else if fmt.ord a < fmt.ord b then 1 else 0 := by
  simp [ltBit, boolBit_ordered]

theorem leBit_eq : leBit fmt a b =
    if fmt.isNaN a ∨ fmt.isNaN b then 0 else if fmt.ord a ≤ fmt.ord b then 1 else 0 := by
  simp [leBit, boolBit_ordered]

theorem compare4_code_eq : (compare4 fmt a b).code =
    if fmt.isNaN a ∨ fmt.isNaN b then 3 else if fmt.ord a < fmt.ord b then 0
    else if fmt.ord a = fmt.ord b then 1 else 2 := by
  simp only [compare4, unordered_iff, apply_ite Ordering4.code]
  rfl

/-! ## Every result by the four-way comparison (R138) -/

theorem compare4_eq_less_iff :
    compare4 fmt a b = .less ↔ fmt.unordered a b = false ∧ fmt.ord a < fmt.ord b := by
  unfold compare4
  split_ifs with hu hlt heq
  · simp [hu]
  · simp [hu, hlt]
  · simp [hlt]
  · simp [hlt]

theorem compare4_eq_equal_iff :
    compare4 fmt a b = .equal ↔ fmt.unordered a b = false ∧ fmt.ord a = fmt.ord b := by
  unfold compare4
  split_ifs with hu hlt heq
  · simp [hu]
  · simp [hlt.ne]
  · simp [hu, heq]
  · simp [heq]

theorem compare4_eq_greater_iff :
    compare4 fmt a b = .greater ↔ fmt.unordered a b = false ∧ fmt.ord b < fmt.ord a := by
  unfold compare4
  split_ifs with hu hlt heq
  · simp [hu]
  · simp [hlt.le]
  · simp [heq]
  · simpa [hu] using lt_of_le_of_ne (not_lt.mp hlt) (Ne.symm heq)

theorem eqBit_eq_one_iff : eqBit fmt a b = 1 ↔ (compare4 fmt a b).code = 1 := by
  rw [eqBit, boolBit_eq_one_iff, Ordering4.code_eq_one_iff, compare4_eq_equal_iff]
  simp

theorem ltBit_eq_one_iff : ltBit fmt a b = 1 ↔ (compare4 fmt a b).code = 0 := by
  rw [ltBit, boolBit_eq_one_iff, Ordering4.code_eq_zero_iff, compare4_eq_less_iff]
  simp

theorem leBit_eq_one_iff :
    leBit fmt a b = 1 ↔ (compare4 fmt a b).code = 0 ∨ (compare4 fmt a b).code = 1 := by
  rw [leBit, boolBit_eq_one_iff, Ordering4.code_eq_zero_iff, Ordering4.code_eq_one_iff, compare4_eq_less_iff,
    compare4_eq_equal_iff, ← and_or_left, ← le_iff_lt_or_eq]
  simp

/-- Exchanging the operands turns `Less` into `Greater`. -/
theorem compare4_swap : (compare4 fmt a b).code = 0 ↔ (compare4 fmt b a).code = 2 := by
  rw [Ordering4.code_eq_zero_iff, Ordering4.code_eq_two_iff, compare4_eq_less_iff, compare4_eq_greater_iff,
    Fmt.unordered, Fmt.unordered, Bool.or_comm]

end

end Sys2Proof.Machine
end

section
/-! The statements on the comparisons (43_comparison.md). -/

namespace Sys2Proof.Machine

/-- Settles O26: the bit of `EQ` and the flags of the quiet comparisons. -/
theorem eqComparesAndSignals : Obligations.EqComparesAndSignals := by
  intro fmt s hp
  have hi : Instr.eq fmt ∈ comparisons fmt := by simp [comparisons]
  refine ⟨fun r => decode_comparison hi r, fun hfit => ?_, exec_comparison_unfit hi hp⟩
  rw [exec_eq_fit hp hfit, eqBit_eq, quietCompareFlags_eq]

/-- Settles O27: the bits of the order and the flags of the signaling comparisons. -/
theorem signalingOrderPredicates : Obligations.SignalingOrderPredicates := by
  intro fmt s hp
  have hlt : Instr.lt fmt ∈ comparisons fmt := by simp [comparisons]
  have hle : Instr.le fmt ∈ comparisons fmt := by simp [comparisons]
  refine ⟨fun r => ⟨decode_comparison hlt r, decode_comparison hle r⟩, fun hfit => ?_,
    fun hfit => ⟨exec_comparison_unfit hlt hp hfit, exec_comparison_unfit hle hp hfit⟩⟩
  rw [exec_lt_fit hp hfit, exec_le_fit hp hfit, ltBit_eq, leBit_eq, signalingCompareFlags_eq]
  exact ⟨rfl, rfl⟩

/-- Settles O28: the bits of the order and the flags of the quiet comparisons. -/
theorem quietOrderPredicates : Obligations.QuietOrderPredicates := by
  intro fmt s hp
  have hltq : Instr.ltq fmt ∈ comparisons fmt := by simp [comparisons]
  have hleq : Instr.leq fmt ∈ comparisons fmt := by simp [comparisons]
  refine ⟨fun r => ⟨decode_comparison hltq r, decode_comparison hleq r⟩, fun hfit => ?_,
    fun hfit => ⟨exec_comparison_unfit hltq hp hfit, exec_comparison_unfit hleq hp hfit⟩⟩
  rw [exec_ltq_fit hp hfit, exec_leq_fit hp hfit, ltBit_eq, leBit_eq, quietCompareFlags_eq]
  exact ⟨rfl, rfl⟩

/-- Settles O29: the code of the four-way comparison and its flags. -/
theorem cmpReturnsTheFourWayResult : Obligations.CmpReturnsTheFourWayResult := by
  intro fmt s hp
  have hi : Instr.cmp fmt ∈ comparisons fmt := by simp [comparisons]
  refine ⟨fun r => decode_comparison hi r, fun hfit => ?_, exec_comparison_unfit hi hp⟩
  rw [exec_cmp_fit hp hfit, compare4_code_eq, cmpFlags_eq]

/-- Settles O30: each predicate is a test of the outcome of `CMP`, false on a NaN, and both read nothing but the operands. -/
theorem comparisonResultsAgree : Obligations.ComparisonResultsAgree := by
  refine ⟨fun fmt s hp hfit => ?_, fun fmt i s s' hi hp hp' ha hb => ?_⟩
  · have hswap : exec (.cmp fmt) { s with a := s.b, b := s.a } = _ := exec_cmp_fit (fmt := fmt) hp hfit.symm
    refine ⟨_, _, _, _, _, _, _, exec_eq_fit hp hfit, exec_lt_fit hp hfit, exec_le_fit hp hfit, exec_ltq_fit hp hfit,
      exec_leq_fit hp hfit, exec_cmp_fit hp hfit, hswap, ?_⟩
    refine ⟨Ordering4.code_lt _, eqBit_eq_one_iff fmt s.a s.b, ltBit_eq_one_iff fmt s.a s.b, rfl,
      leBit_eq_one_iff fmt s.a s.b, rfl, compare4_swap fmt s.a s.b, fun hnan => ?_⟩
    have heq := (eqBit_eq fmt s.a s.b).trans (if_pos hnan)
    have hlt := (ltBit_eq fmt s.a s.b).trans (if_pos hnan)
    have hle := (leBit_eq fmt s.a s.b).trans (if_pos hnan)
    exact ⟨heq, hlt, hle, hlt, hle, (compare4_code_eq fmt s.a s.b).trans (if_pos hnan)⟩
  · obtain ⟨t, t', he, he', hres⟩ := comparison_res_congr hi hp hp' ha hb
    exact ⟨t, t', he, he', hres, decode_comparison hi⟩

end Sys2Proof.Machine
end

section
/-! The rows of the conversions (30_encoding.md R54): whether one is dispatched, its widths and its contract. -/

namespace Sys2Proof.Machine

/-! ## Integer conversions (R140) -/

section
variable (ty : IntTy) (fmt : Fmt) (rm : Rm)

theorem fromIntOp_row : (fromIntOp ty fmt rm).isLocal = false ∧ (fromIntOp ty fmt rm).outWidth = fmt.width ∧
    ∀ a b c, contractOf (fromIntOp ty fmt rm) a b c = some (fromIntContract ty fmt rm a) := by
  cases ty <;> exact ⟨rfl, rfl, fun _ _ _ => rfl⟩

theorem toIntOp_row : (toIntOp ty fmt rm).isLocal = false ∧ (toIntOp ty fmt rm).outWidth = intWidth ty ∧
    ∀ a b c, contractOf (toIntOp ty fmt rm) a b c = some (toIntContract ty fmt rm a) := by
  cases ty <;> exact ⟨rfl, rfl, fun _ _ _ => rfl⟩

end

/-! ## Format conversions (R155, R156) -/

section
variable (dst fmt : Fmt) (rm : Rm)

theorem toFmtOp_row : (toFmtOp dst fmt rm).arity = 1 ∧ (toFmtOp dst fmt rm).inWidth = fmt.width ∧
    (toFmtOp dst fmt rm).outWidth = dst.width := by
  cases dst <;> exact ⟨rfl, rfl, rfl⟩

theorem toFmtOp_isLocal : (toFmtOp dst fmt rm).isLocal = (fmt == dst) := by
  cases dst <;> rfl

theorem toFmtOp_dispatched {dst fmt : Fmt} (h : fmt ≠ dst) : (toFmtOp dst fmt rm).isLocal = false ∧
    (toFmtOp dst fmt rm).outWidth = dst.width ∧
    ∀ a b c, contractOf (toFmtOp dst fmt rm) a b c = some (toFloatContract dst fmt rm a) := by
  rw [toFmtOp_isLocal, beq_false_of_ne h]
  cases dst <;> exact ⟨rfl, rfl, fun _ _ _ => rfl⟩

theorem toFmtOp_unitRequest (s : State) : s.unitRequest (toFmtOp dst fmt rm) =
    ⟨0b10000, 24 + dst.code.setWidth 5, fmt.code, rm.code, s.a, 0, 0⟩ := by
  cases dst <;> rfl

theorem toFmtOp_usedOperands (s : State) : s.usedOperands (toFmtOp dst fmt rm) = [s.a] := by
  cases dst <;> rfl

/-- The conversion to the operand's own format is LOCAL and copies the operand. -/
theorem exec_toFmtOp_self (s : State) : exec (toFmtOp fmt fmt rm) s =
    localCommand (toFmtOp fmt fmt rm) (fun s => s.complete fmt.width s.a 0) s := by
  cases fmt <;> rfl

end

end Sys2Proof.Machine
end

section
/-! Finite values rounded once to a format, as a dispatched command completes with them (44_conversion.md R150 (a), (c),
(d)): the shared part of the conversions to a format, and the values that the format has. -/

namespace Sys2Proof.Machine

variable {fmt : Fmt} {rm : Rm} {i : Instr} {s t : State} {neg : Bool} {m n : Nat} {e : Int} {x : ℚ}

/-- What R150 says of the response `t` to a conversion of the finite value `x` of the sign `neg`. -/
structure State.ConvertsValue (fmt : Fmt) (rm : Rm) (neg : Bool) (x : ℚ) (t : State) : Prop where
  status : t.status = .ok
  rounds : OF t.rflags = false → RoundsTo fmt rm (x : ℝ) t.res
  overflows : OverflowsAs fmt rm neg |x| t
  sign : fmt.sign t.res = neg
  underflows : UF t.rflags = true → x ≠ 0 ∧ |x| < (2 : ℚ) ^ (1 - (fmt.bias : ℤ))
  exact : NX t.rflags = false ↔ IsFinite fmt t.res ∧ realValue fmt t.res = x

/-- A correctly rounded response says of a rational what R150 does, once its sign and its overflow result are known. -/
theorem State.CorrectlyRounds.convertsValue (h : t.CorrectlyRounds fmt rm (x : ℝ)) (hst : t.status = .ok)
    (hsign : fmt.sign t.res = neg) (hmag : OF t.rflags = true → fmt.mag t.res = overflowedMagnitude fmt rm neg) :
    t.ConvertsValue fmt rm neg x := by
  obtain ⟨hround, hexact, hover, hhuge, htiny⟩ := h
  refine ⟨hst, hround, ⟨fun h => ⟨?_, hmag h⟩, fun h => hhuge (by exact_mod_cast h)⟩, hsign, fun h => ?_,
    by rw [hexact, Rat.cast_inj]⟩
  · have hlt : ((largestFinite fmt : ℚ) : ℝ) < |(x : ℝ)| := hover h
    exact_mod_cast hlt
  · obtain ⟨hne, hlt⟩ := htiny h
    generalize 1 - (fmt.bias : ℤ) = k at hlt ⊢
    exact ⟨by exact_mod_cast hne, (Rat.cast_lt (K := ℝ)).mp (by push_cast; exact hlt)⟩

section
variable (hl : i.isLocal = false) (hp : s.phase = .wait) (hw : i.outWidth = fmt.width)
  (hk : contractOf i s.a s.b s.c = some (.ofValue fmt rm (.fin neg m e)))
  (hx : (x : ℝ) = signFactor neg * (m * (2 : ℝ) ^ e))
include hl hp hw hk hx

/-- A command whose contract is a finite value rounds it once. -/
theorem exec_wait_ofValue : ∃ t, exec i s = .next t ∧ t.ConvertsValue fmt rm neg x := by
  rw [Contract.ofValue] at hk
  split_ifs at hk with hm
  · rw [hm, Nat.cast_zero, zero_mul, mul_zero] at hx
    refine ⟨_, exec_wait_zero hl hp hw hk, State.CorrectlyRounds.convertsValue ?_ rfl (sign_signedZero fmt neg)
      fun h => absurd (show OF 0 = true from h) (by decide)⟩
    exact hx ▸ correctlyRounds_zero s fmt rm neg
  · have hpos : (Magnitude.ratio m 1 e).Positive := ⟨Nat.pos_of_ne_zero hm, one_pos⟩
    have hreal : (x : ℝ) = signFactor neg * (Magnitude.ratio m 1 e).real := by
      rw [hx, Magnitude.real, Nat.cast_one, div_one]
    obtain ⟨t, hexec, hst, hrounds⟩ := exec_wait_correctlyRounds hpos hl hp hw hk hreal
    obtain ⟨t', hexec', -, hres, hsign, hof, -⟩ := exec_wait_rounded hpos hl hp hw hk
    cases hexec.symm.trans hexec'
    obtain ⟨-, hover, -⟩ := roundTo_correct fmt rm neg _ hpos
    refine ⟨t, hexec, hrounds.convertsValue hst hsign fun h => ?_⟩
    rw [hres, hover (hof ▸ h), fmt.mag_pattern neg _ (overflowMag_lt fmt rm neg), overflowMag_eq]

/-- A finite value that the format has comes out as that number, without a flag unless it is subnormal. -/
theorem exec_wait_ofValue_number (hn : n < fmt.infMag)
    (hgrid : gridValue fmt.fracWidth fmt.qMin n = m * (2 : ℝ) ^ e) :
    ∃ t, exec i s = .next t ∧ t.res = fmt.pattern neg n ∧
      ((x ≠ 0 → (2 : ℚ) ^ (1 - (fmt.bias : ℤ)) ≤ |x|) → t.rflags = 0) := by
  have hflags : ∀ (tiny : Bool) (fl : FlagBits), UF (0 ||| (flagIf tiny flagUF &&& fl)) = false →
      0 ||| (flagIf tiny flagUF &&& fl) = 0 := by decide
  obtain ⟨t, hexec, hvalue⟩ := exec_wait_ofValue hl hp hw hk hx
  obtain ⟨tiny, hof⟩ := ofValue_of_eq_gridValue rm neg hn hgrid
  obtain ⟨fl, hexec'⟩ := exec_wait_bits hl hp hw (hk.trans (congrArg some hof)) rfl
  cases hexec.symm.trans hexec'
  refine ⟨_, hexec, low_pattern fmt neg (hn.trans fmt.infMag_lt), fun hnormal => hflags tiny fl ?_⟩
  refine Bool.eq_false_iff.mpr fun huf => ?_
  obtain ⟨hne, hlt⟩ := hvalue.underflows huf
  exact absurd (hnormal hne) (not_le.mpr hlt)

end

end Sys2Proof.Machine
end

section
/-! Conversions from an integer and to another format (44_conversion.md R141 to R144, R150 to R157). -/

namespace Sys2Proof.Machine

variable {ty : IntTy} {dst fmt : Fmt} {rm : Rm} {s : State} {a b : XWord} {n : Nat}

/-! ## From an integer -/

theorem intCast_eq_signFactor_mul_natAbs (i : Int) :
    ((i : ℚ) : ℝ) = signFactor (decide (i < 0)) * ((i.natAbs : ℝ) * (2 : ℝ) ^ (0 : Int)) := by
  rw [zpow_zero, mul_one, signFactor_mul_natAbs, Rat.cast_intCast]

theorem exec_fromInt (hp : s.phase = .wait) : ∃ t, exec (fromIntOp ty fmt rm) s = .next t ∧
    t.ConvertsValue fmt rm (decide (intValue ty s.a < 0)) (intValue ty s.a) := by
  obtain ⟨hl, hw, hk⟩ := fromIntOp_row ty fmt rm
  exact exec_wait_ofValue hl hp hw (hk _ _ _) (intCast_eq_signFactor_mul_natAbs _)

theorem exec_fromInt_zero (hp : s.phase = .wait) (h : intValue ty s.a = 0) :
    exec (fromIntOp ty fmt rm) s = .next (s.WithResponse 0 0) := by
  obtain ⟨hl, hw, hk⟩ := fromIntOp_row ty fmt rm
  have hzero : fromIntContract ty fmt rm s.a = .zero fmt false := by simp [fromIntContract, h, Contract.ofValue]
  exact exec_wait_zero hl hp hw ((hk _ _ _).trans (congrArg some hzero))

/-- An integer of at most `F + 1` bits is a number of the format, and no subnormal one. -/
theorem exec_fromInt_exact (hp : s.phase = .wait) (h : (intValue ty s.a).natAbs < 2 ^ (fmt.fracWidth + 1)) :
    ∃ t, exec (fromIntOp ty fmt rm) s = .next t ∧ IsFinite fmt t.res ∧ realValue fmt t.res = intValue ty s.a ∧
      t.rflags = 0 := by
  obtain ⟨hl, hw, hk⟩ := fromIntOp_row ty fmt rm
  have hrange : fmt.fracWidth ≤ fmt.bias ∧ fmt.qMin ≤ 0 ∧ 1 - (fmt.bias : ℤ) ≤ 0 := by cases fmt <;> decide
  obtain ⟨hbias, hqMin, hnormal⟩ := hrange
  have hx := intCast_eq_signFactor_mul_natAbs (intValue ty s.a)
  obtain ⟨n, hn, hgrid⟩ := exists_finite_gridValue_eq (fmt := fmt) (e := 0) h hqMin (by
    rw [zpow_zero, mul_one]
    exact_mod_cast h.trans_le (Nat.pow_le_pow_right two_pos (Nat.succ_le_succ hbias)))
  obtain ⟨t, hexec, hres, hflags⟩ := exec_wait_ofValue_number hl hp hw (hk _ _ _) hx hn hgrid
  refine ⟨t, hexec, hres ▸ isFinite_pattern fmt _ n hn, ?_, hflags fun hne => ?_⟩
  · rw [← hgrid, ← realValue_pattern fmt _ n (hn.trans fmt.infMag_lt), ← hres] at hx
    exact_mod_cast hx.symm
  · calc (2 : ℚ) ^ (1 - (fmt.bias : ℤ)) ≤ 1 := zpow_le_one_of_nonpos₀ one_le_two hnormal
      _ ≤ |(intValue ty s.a : ℚ)| := by exact_mod_cast Int.one_le_abs (by exact_mod_cast hne)

/-! ## To another format -/

theorem toFloatContract_isNaN (ha : fmt.isNaN a = true) :
    toFloatContract dst fmt rm a = nanContract dst (fmt.isSNaN a) false := if_pos ha

theorem toFloatContract_isInf (ha : fmt.isInf a = true) :
    toFloatContract dst fmt rm a = .infinity dst (fmt.sign a) := by
  rw [toFloatContract, isNaN_of_isInf ha, valueOf_isInf ha]
  rfl

theorem toFloatContract_isFinite {v : Value} (ha : IsFinite fmt a) (hva : valueOf fmt a = v) :
    toFloatContract dst fmt rm a = .ofValue dst rm v := by
  rw [toFloatContract, ha.1, hva]
  rfl

section
variable (hne : fmt ≠ dst) (hp : s.phase = .wait)
include hne hp

theorem exec_toFmt_isNaN (ha : fmt.isNaN s.a = true) : ∃ t, exec (toFmtOp dst fmt rm) s = .next t ∧
    t.status = .ok ∧ dst.isNaN t.res = true ∧ NV t.rflags = fmt.isSNaN s.a := by
  obtain ⟨hl, hw, hk⟩ := toFmtOp_dispatched rm hne
  obtain ⟨t, hexec, -, hst, hnan, -, hraised, hclear⟩ := exec_wait_nanContract hl hp hw
    ((hk _ _ _).trans (congrArg some (toFloatContract_isNaN ha)))
  refine ⟨t, hexec, hst, hnan, ?_⟩
  cases hs : fmt.isSNaN s.a
  · exact hclear hs rfl
  · exact hraised hs

theorem exec_toFmt_isInf (ha : fmt.isInf s.a = true) : exec (toFmtOp dst fmt rm) s =
    .next (s.WithResponse (signedInfinity dst (fmt.sign s.a)) 0) := by
  obtain ⟨hl, hw, hk⟩ := toFmtOp_dispatched rm hne
  exact exec_wait_infinity hl hp hw ((hk _ _ _).trans (congrArg some (toFloatContract_isInf ha)))

variable (ha : IsFinite fmt s.a)
include ha

theorem exec_toFmt_isFinite : ∃ t, exec (toFmtOp dst fmt rm) s = .next t ∧
    t.ConvertsValue dst rm (fmt.sign s.a) (realValue fmt s.a) := by
  obtain ⟨hl, hw, hk⟩ := toFmtOp_dispatched rm hne
  obtain ⟨m, e, hva, hx⟩ := valueOf_eq_fin ha
  exact exec_wait_ofValue hl hp hw ((hk _ _ _).trans (congrArg some (toFloatContract_isFinite ha hva))) hx

/-- A value that the destination has comes out as that number, without a flag unless it is subnormal there. -/
theorem exec_toFmt_number (hn : n < dst.infMag)
    (hgrid : gridValue dst.fracWidth dst.qMin n = gridValue fmt.fracWidth fmt.qMin (fmt.mag s.a)) :
    ∃ t, exec (toFmtOp dst fmt rm) s = .next t ∧ t.res = dst.pattern (fmt.sign s.a) n ∧
      ((realValue fmt s.a ≠ 0 → (2 : ℚ) ^ (1 - (dst.bias : ℤ)) ≤ |realValue fmt s.a|) → t.rflags = 0) := by
  obtain ⟨hl, hw, hk⟩ := toFmtOp_dispatched rm hne
  obtain ⟨m, e, hva, hx⟩ := valueOf_eq_fin ha
  rw [mul_left_cancel₀ (signFactor_ne_zero _) ((realValue_eq fmt s.a).symm.trans hx)] at hgrid
  exact exec_wait_ofValue_number hl hp hw ((hk _ _ _).trans (congrArg some (toFloatContract_isFinite ha hva))) hx hn
    hgrid

end

/-! ## Widening -/

/-- The numbers of a format are numbers of every wider one, and none of them but zero is subnormal there. -/
theorem ranges_of_wider (h : fmt.width < dst.width) : fmt ≠ dst ∧ fmt.fracWidth ≤ dst.fracWidth ∧
    fmt.bias ≤ dst.bias ∧ dst.qMin ≤ fmt.qMin ∧ 1 - (dst.bias : ℤ) ≤ fmt.qMin := by
  revert h
  cases fmt <;> cases dst <;> decide

theorem two_zpow_qMin_le_abs_realValue (ha : IsFinite fmt a) (h : realValue fmt a ≠ 0) :
    (2 : ℚ) ^ fmt.qMin ≤ |realValue fmt a| := by
  obtain ⟨m, e, hva, -⟩ := valueOf_isFinite ha
  obtain ⟨-, he⟩ := valueOf_bounds hva
  rw [realValue_eq_of_valueOf hva] at h ⊢
  have hm : m ≠ 0 := fun hm => h (by simp [hm])
  rw [abs_signRat_mul, abs_of_nonneg (by positivity)]
  calc (2 : ℚ) ^ fmt.qMin ≤ 2 ^ e := zpow_le_zpow_right₀ one_le_two he
    _ ≤ m * 2 ^ e := le_mul_of_one_le_left (by positivity) (by exact_mod_cast Nat.pos_of_ne_zero hm)

/-- A number of a format has the same magnitude in every wider one. -/
theorem exists_gridValue_eq_of_wider (h : fmt.width < dst.width) (ha : IsFinite fmt a) : ∃ n < dst.infMag,
    gridValue dst.fracWidth dst.qMin n = gridValue fmt.fracWidth fmt.qMin (fmt.mag a) := by
  obtain ⟨-, hfrac, hbias, hqMin, -⟩ := ranges_of_wider h
  obtain ⟨m, e, hva, hx⟩ := valueOf_eq_fin ha
  obtain ⟨hm, he⟩ := valueOf_bounds hva
  rw [mul_left_cancel₀ (signFactor_ne_zero _) ((realValue_eq fmt a).symm.trans hx)]
  refine exists_finite_gridValue_eq (hm.trans_le (Nat.pow_le_pow_right two_pos (Nat.succ_le_succ hfrac)))
    (hqMin.trans he) ((valueOf_lt ha hva).trans_le (pow_le_pow_right₀ one_le_two (Nat.succ_le_succ hbias)))

theorem exec_toFmt_wider (h : fmt.width < dst.width) (hp : s.phase = .wait) (ha : IsFinite fmt s.a) :
    ∃ t, exec (toFmtOp dst fmt rm) s = .next t ∧ t.rflags = 0 ∧ IsFinite dst t.res ∧
      realValue dst t.res = realValue fmt s.a ∧ dst.sign t.res = fmt.sign s.a := by
  obtain ⟨hne, -, -, -, hnormal⟩ := ranges_of_wider h
  obtain ⟨n, hn, hgrid⟩ := exists_gridValue_eq_of_wider h ha
  obtain ⟨t, hexec, hres, hflags⟩ := exec_toFmt_number (rm := rm) hne hp ha hn hgrid
  refine ⟨t, hexec, hflags fun hx => ?_, hres ▸ isFinite_pattern dst _ n hn, ?_,
    hres ▸ dst.sign_pattern _ n (hn.trans dst.infMag_lt)⟩
  · exact (zpow_le_zpow_right₀ one_le_two hnormal).trans (two_zpow_qMin_le_abs_realValue ha hx)
  · have hreal : (realValue dst t.res : ℝ) = realValue fmt s.a := by
      rw [hres, realValue_pattern dst _ n (hn.trans dst.infMag_lt), hgrid, realValue_eq]
    exact_mod_cast hreal

/-- Values that are equal, under equal signs, have the same magnitude. -/
theorem gridValue_mag_eq (hv : realValue dst b = realValue fmt a) (hs : dst.sign b = fmt.sign a) :
    gridValue dst.fracWidth dst.qMin (dst.mag b) = gridValue fmt.fracWidth fmt.qMin (fmt.mag a) := by
  have hreal : (realValue dst b : ℝ) = realValue fmt a := by rw [hv]
  rw [realValue_eq, realValue_eq, hs] at hreal
  exact mul_left_cancel₀ (signFactor_ne_zero _) hreal

/-- Widening what is no NaN and narrowing it back gives the pattern again (R157). -/
theorem exec_toFmt_roundTrip (rm' : Rm) (h : fmt.width < dst.width) (hp : s.phase = .wait)
    (hfit : s.a.toNat < 2 ^ fmt.width) (hnan : fmt.isNaN s.a = false) :
    ∃ t u, exec (toFmtOp dst fmt rm) s = .next t ∧
      exec (toFmtOp fmt dst rm') { s with a := t.res } = .next u ∧ u.res = s.a := by
  obtain ⟨hne, -⟩ := ranges_of_wider h
  obtain hinf | hfin := isInf_or_isFinite hnan
  · refine ⟨_, _, exec_toFmt_isInf hne hp hinf, exec_toFmt_isInf hne.symm hp (isInf_signedInfinity dst _), ?_⟩
    calc signedInfinity fmt (dst.sign (signedInfinity dst (fmt.sign s.a)))
        = signedInfinity fmt (fmt.sign s.a) := by rw [sign_signedInfinity]
      _ = fmt.pattern (fmt.sign s.a) (fmt.mag s.a) := by rw [fmt.mag_of_isInf _ hinf]; rfl
      _ = s.a := fmt.pattern_sign_mag s.a hfit
  · obtain ⟨t, hexec, -, hfin', hv, hs⟩ := exec_toFmt_wider (rm := rm) h hp hfin
    obtain ⟨u, hexec', hres, -⟩ := exec_toFmt_number (rm := rm') (s := { s with a := t.res }) hne.symm hp hfin'
      ((isFinite_iff fmt s.a).mp hfin) (gridValue_mag_eq hv hs).symm
    exact ⟨t, u, hexec, hexec', by rw [hres, hs, fmt.pattern_sign_mag s.a hfit]⟩

end Sys2Proof.Machine
end

section
/-! Conversions to an integer (44_conversion.md R145 to R149): the contract by the integer the operand rounds to. -/

namespace Sys2Proof.Machine

variable {ty : IntTy} {fmt : Fmt} {rm : Rm} {s : State} {a : XWord} {j : Int}

/-! ## The ranges and representations of the types -/

theorem intMax_eq (ty : IntTy) : intMax ty = hiValue ty := by
  cases ty <;> rfl

theorem intMin_eq (ty : IntTy) : intMin ty = loValue ty := by
  cases ty <;> rfl

theorem loValue_le_hiValue (ty : IntTy) : loValue ty ≤ hiValue ty := by
  cases ty <;> decide

theorem intWidth_le (ty : IntTy) : intWidth ty ≤ 128 := by
  cases ty <;> decide

theorem low_intBits (ty : IntTy) (j : Int) : low (intWidth ty) (intBits ty j) = intBits ty j :=
  low_low _ _ (intWidth_le ty)

theorem intBits_toNat (ty : IntTy) (j : Int) : (intBits ty j).toNat = (j % 2 ^ intWidth ty).toNat := by
  rw [intBits, low_toNat _ _ (intWidth_le ty), BitVec.toNat_ofInt]
  cases ty <;> simp only [intWidth] <;> omega

/-! ## The contract (R149, R150 (b)) -/

theorem toIntContract_isNaN (ha : fmt.isNaN a = true) :
    toIntContract ty fmt rm a = saturated ty (Config.nanToMax ty) := if_pos ha

theorem toIntContract_isInf (ha : fmt.isInf a = true) : toIntContract ty fmt rm a = saturated ty (!fmt.sign a) := by
  rw [toIntContract, isNaN_of_isInf ha, valueOf_isInf ha]
  rfl

/-- A finite operand has the contract of the integer it rounds to, which is exact when it is the value. -/
theorem toIntContract_isFinite (ha : IsFinite fmt a) (hj : RoundsToInt rm (realValue fmt a) j) :
    ∃ changed, (realValue fmt a = j → changed = false) ∧ toIntContract ty fmt rm a =
      if hiValue ty < j then saturated ty true
      else if j < loValue ty then saturated ty false
      else { res := .bits (intBits ty j), must := 0, may := flagIf changed flagNX } := by
  obtain ⟨m, e, hva, -⟩ := valueOf_isFinite ha
  have hval := realValue_eq_of_valueOf hva
  obtain ⟨hrounds, hexact⟩ := roundToInteger_spec rm (fmt.sign a) m e
  obtain rfl := roundsToInt_unique hj (hval ▸ hrounds)
  refine ⟨(roundToInteger rm (fmt.sign a) m e).2, fun h => ?_, ?_⟩
  · rw [hval, signedInt_cast] at h
    exact hexact.mpr (mul_left_cancel₀ (left_ne_zero_of_mul_eq_one (signRat_mul_self _)) h)
  · rw [toIntContract, ha.1, hva, ← intMax_eq, ← intMin_eq]
    rfl

/-! ## The response -/

/-- A conversion to an integer completes with an answer made to meet its contract. -/
theorem exec_toInt (hp : s.phase = .wait) : ∃ raw : UnitAnswer, exec (toIntOp ty fmt rm) s =
    .next (s.complete (intWidth ty) (imposeResult (toIntContract ty fmt rm s.a).res raw.res)
      (imposeFlags (toIntContract ty fmt rm s.a) raw.flags)) := by
  obtain ⟨hl, hw, hk⟩ := toIntOp_row ty fmt rm
  rw [← hw]
  exact exec_wait_contract hl hp (hk _ _ _)

theorem low_boundary (ty : IntTy) (toMax : Bool) :
    low (intWidth ty) (intBits ty (if toMax then intMax ty else intMin ty)) =
      if toMax then hiPattern ty else loPattern ty := by
  cases ty <;> cases toMax <;> decide

theorem saturated_flags (fl : FlagBits) : NV (flagNV ||| ((flagOF ||| flagNX) &&& fl)) = true := by
  decide +revert

/-- A saturated conversion gives the pattern of the boundary, with `NV` (R149). -/
theorem exec_toInt_saturated {t : State} {toMax : Bool} (hp : s.phase = .wait)
    (hexec : exec (toIntOp ty fmt rm) s = .next t) (hk : toIntContract ty fmt rm s.a = saturated ty toMax) :
    t.res = (if toMax then hiPattern ty else loPattern ty) ∧ NV t.rflags = true := by
  obtain ⟨raw, hexec'⟩ := exec_toInt (ty := ty) (fmt := fmt) (rm := rm) hp
  rw [hk, imposeFlags_eq] at hexec'
  cases hexec.symm.trans hexec'
  exact ⟨low_boundary ty toMax, saturated_flags raw.flags⟩

/-- In the range no flag is raised but possibly `NX`, and none when the value is the integer (R150 (b), log entry 10). -/
theorem inRange_flags (changed : Bool) (fl : FlagBits) :
    FlagsWithin (0 ||| (flagIf changed flagNX &&& fl)) flagNX ∧
      (changed = false → 0 ||| (flagIf changed flagNX &&& fl) = 0) := by
  unfold FlagsWithin
  decide +revert

end Sys2Proof.Machine
end

section
/-! The statements on the conversions (44_conversion.md). -/

namespace Sys2Proof.Machine

/-- Settles O34: each conversion is dispatched, and its request and its widths are the columns of its row. -/
theorem integerConversionsAreDelegatedUnchanged : Obligations.IntegerConversionsAreDelegatedUnchanged :=
  fun fmt rm => ⟨runsAs_of_dispatched (i := .fromU32 fmt rm) rfl, runsAs_of_dispatched (i := .fromU64 fmt rm) rfl,
    runsAs_of_dispatched (i := .fromI32 fmt rm) rfl, runsAs_of_dispatched (i := .fromI64 fmt rm) rfl,
    runsAs_of_dispatched (i := .toU32 fmt rm) rfl, runsAs_of_dispatched (i := .toU64 fmt rm) rfl,
    runsAs_of_dispatched (i := .toI32 fmt rm) rfl, runsAs_of_dispatched (i := .toI64 fmt rm) rfl⟩

/-- Settles O35: dispatched by its row to another format, and the completion of the operand to its own. -/
theorem formatConversionsAreIdentityOrDelegated : Obligations.FormatConversionsAreIdentityOrDelegated := by
  intro dst fmt rm
  obtain ⟨harity, hin, hout⟩ := toFmtOp_row dst fmt rm
  refine ⟨fun hne => ?_, fun heq s hp => ?_⟩
  · have hruns := runsAs_of_dispatched (toFmtOp_dispatched rm hne).1
    simpa only [hin, hout, toFmtOp_unitRequest, toFmtOp_usedOperands] using hruns
  · subst heq
    rw [← hin]
    refine ⟨fun ha => ?_, exec_idle_of_wide harity hp⟩
    calc exec (toFmtOp fmt fmt rm) s
        = .next (s.complete fmt.width s.a 0) := exec_idle_of_narrow (exec_toFmtOp_self fmt rm s) harity hp ha
      _ = _ := congrArg _ (State.complete_of_fits fmt.width_le (hin ▸ ha))

/-- Settles O47: a zero by its contract, an integer of at most `F + 1` bits as a number of the format, any other rounded
once. -/
theorem integersConvertCorrectlyRounded : Obligations.IntegersConvertCorrectlyRounded := by
  intro ty fmt rm s hp
  obtain ⟨t, hexec, h⟩ := exec_fromInt (ty := ty) (fmt := fmt) (rm := rm) hp
  refine ⟨t, hexec, h.status, fun h0 => ?_, fun hsmall => ?_, h.rounds, h.overflows, by simp [h.sign], h.exact⟩
  · cases hexec.symm.trans (exec_fromInt_zero hp h0)
    exact ⟨rfl, rfl⟩
  · obtain ⟨t', hexec', hexact⟩ := exec_fromInt_exact (rm := rm) hp hsmall
    cases hexec.symm.trans hexec'
    exact hexact

/-- Settles O48: the contract of the integer, which is neither above nor below the range. -/
theorem inRangeConversionsToIntegers : Obligations.InRangeConversionsToIntegers := by
  intro ty fmt rm s j hp ha hj hlo hhi
  obtain ⟨changed, hexact, hk⟩ := toIntContract_isFinite (ty := ty) ha hj
  rw [if_neg (not_lt.mpr hhi), if_neg (not_lt.mpr hlo)] at hk
  obtain ⟨raw, hexec⟩ := exec_toInt (ty := ty) (fmt := fmt) (rm := rm) hp
  rw [hk, imposeResult_bits, imposeFlags_eq] at hexec
  obtain ⟨hflags, hzero⟩ := inRange_flags changed raw.flags
  exact ⟨_, hexec, rfl, (congrArg _ (low_intBits ty j)).trans (intBits_toNat ty j), hflags, fun h => hzero (hexact h)⟩

/-- Settles O49: in each of the cases the contract is that of a saturated conversion. -/
theorem outOfRangeConversionsSaturate : Obligations.OutOfRangeConversionsSaturate := by
  intro ty fmt rm s hp
  obtain ⟨raw, hexec⟩ := exec_toInt (ty := ty) (fmt := fmt) (rm := rm) hp
  refine ⟨_, hexec, rfl, fun hnan => exec_toInt_saturated hp hexec (toIntContract_isNaN hnan), fun hinf => ?_,
    fun j hfin hj => ?_⟩
  · obtain ⟨hres, hnv⟩ := exec_toInt_saturated hp hexec (toIntContract_isInf hinf)
    exact ⟨hres.trans (by cases fmt.sign s.a <;> rfl), hnv⟩
  · obtain ⟨changed, -, hk⟩ := toIntContract_isFinite (ty := ty) hfin hj
    refine ⟨fun hhi => exec_toInt_saturated hp hexec (hk.trans (if_pos hhi)), fun hlo => ?_⟩
    have hnhi : ¬ hiValue ty < j := not_lt.mpr (hlo.le.trans (loValue_le_hiValue ty))
    exact exec_toInt_saturated hp hexec (hk.trans ((if_neg hnhi).trans (if_pos hlo)))

/-- Settles O50: by the class of the operand. -/
theorem formatConversionsRoundOnce : Obligations.FormatConversionsRoundOnce := by
  intro dst fmt rm s hne hp
  cases hnan : fmt.isNaN s.a
  · obtain hinf | hfin := isInf_or_isFinite hnan
    · exact ⟨_, exec_toFmt_isInf hne.symm hp hinf, rfl, nofun,
        fun _ => ⟨isInf_signedInfinity dst _, sign_signedInfinity dst _, rfl⟩, fun h => nomatch hinf.symm.trans h.2⟩
    · obtain ⟨t, hexec, h⟩ := exec_toFmt_isFinite (rm := rm) hne.symm hp hfin
      exact ⟨t, hexec, h.status, nofun, fun h => (nomatch hfin.2.symm.trans h),
        fun _ => ⟨h.rounds, h.overflows, h.sign, h.underflows, h.exact⟩⟩
  · obtain ⟨t, hexec, hst, hres⟩ := exec_toFmt_isNaN (rm := rm) hne.symm hp hnan
    exact ⟨t, hexec, hst, fun _ => hres, fun h => (nomatch hnan.symm.trans (isNaN_of_isInf h)),
      fun h => nomatch hnan.symm.trans h.1⟩

/-- Settles O51: the value is a number of the wider format, and no subnormal one. -/
theorem wideningIsExact : Obligations.WideningIsExact :=
  fun _ _ _ _ => exec_toFmt_wider

/-- Settles O52: the infinities by their contract, a finite value as a number of both formats. -/
theorem wideningRoundTripReproduces : Obligations.WideningRoundTripReproduces :=
  fun _ rm' _ => exec_toFmt_roundTrip (dst := .f64) (fmt := .f32) rm' (by decide)

end Sys2Proof.Machine
end

section
/-! The flag commands (45_flag_access.md R160, R161), and what the value of the accumulator has to do with a command other
than `RDFLAGS`: nothing but that the command's flags are ORed into it (R162). -/

namespace Sys2Proof.Machine

variable {s t : State} {i : Instr} {f : FlagBits}

/-! ## The two flag commands -/

/-- `RDFLAGS` checks no operand: run in IDLE it always completes with the accumulator, five bits that no mask cuts. -/
theorem exec_rdflags_idle (hp : s.phase = .idle) : exec .rdflags s =
    .next { s with res := s.fflags.setWidth 128, rflags := 0, status := .ok, phase := .done } := by
  have hv : (s.fflags.setWidth 128).toNat < 2 ^ 5 :=
    (BitVec.toNat_setWidth_of_le (by decide)).trans_lt s.fflags.isLt
  calc exec .rdflags s
      = .next (s.complete 5 (s.fflags.setWidth 128) 0) :=
        localCommand_idle .rdflags (fun s => s.complete 5 (s.fflags.setWidth 128) 0) s hp rfl
    _ = _ := congrArg _ (State.complete_of_fits (by decide) hv)

/-- `CLRFLAGS` out of its turn changes nothing. -/
theorem exec_clrflags_busy (hp : s.phase ≠ .idle) : exec .clrflags s = .next s :=
  localCommand_busy .clrflags State.clearFlags s hp

/-! ## Commands under another value of the accumulator -/

/-- From `s`, and from `s` with the value `f` in the accumulator, the run goes on to one next state up to the accumulator,
into which it ORs the same flags. -/
def OrsSameFlags (run : State → Host.Outcome State Fault Refusal) (s : State) (f : FlagBits) : Prop :=
  ∃ t fl, run s = .next t ∧ run { s with fflags := f } = .next { t with fflags := f ||| fl } ∧
    t.fflags = s.fflags ||| fl

/-- A run that leaves both values of the accumulator alone ORs no flag into them. -/
theorem OrsSameFlags.of_unchanged {run : State → Host.Outcome State Fault Refusal} (h : run s = .next t)
    (h' : run { s with fflags := f } = .next { t with fflags := f }) (ht : t.fflags = s.fflags) :
    OrsSameFlags run s f :=
  ⟨t, 0#5, h, by rw [h', BitVec.or_zero], by rw [ht, BitVec.or_zero]⟩

theorem unitCommand_orsSameFlags (i : Instr) (s : State) (f : FlagBits) : OrsSameFlags (unitCommand i) s f := by
  obtain ⟨hp, hf, he⟩ | ⟨hp, hf, he⟩ | ⟨hp, he⟩ | ⟨hp, he⟩ := unitCommand_cases i s
  · exact .of_unchanged he (unitCommand_idle i { s with fflags := f } hp hf) rfl
  · exact .of_unchanged he (unitCommand_idle_unfit i { s with fflags := f } hp hf) rfl
  · exact ⟨_, _, he, unitCommand_wait i { s with fflags := f } hp, rfl⟩
  · exact .of_unchanged he (unitCommand_done i { s with fflags := f } hp) rfl

/-- A LOCAL command that finishes by a completion with flags computed from the operands. -/
theorem localCommand_orsSameFlags (i : Instr) (w : Nat) (v : XWord → XWord → XWord) (fl : XWord → XWord → FlagBits)
    (s : State) (f : FlagBits) :
    OrsSameFlags (localCommand i fun s => s.complete w (v s.a s.b) (fl s.a s.b)) s f := by
  by_cases hp : s.phase = .idle
  · cases hf : i.operandsFit s.a s.b s.c
    · exact .of_unchanged (localCommand_idle_unfit i _ s hp hf)
        (localCommand_idle_unfit i _ { s with fflags := f } hp hf) rfl
    · exact ⟨_, _, localCommand_idle i _ s hp hf, localCommand_idle i _ { s with fflags := f } hp hf, rfl⟩
  · exact .of_unchanged (localCommand_busy i _ s hp) (localCommand_busy i _ { s with fflags := f } hp) rfl

/-- Every command but `RDFLAGS`, in whatever phase it runs, unless it is the `CLRFLAGS` that clears: no such meaning reads
the accumulator. -/
theorem exec_orsSameFlags (hr : i ≠ .rdflags) (hclr : ¬ (i = .clrflags ∧ s.phase = .idle)) (f : FlagBits) :
    OrsSameFlags (exec i) s f := by
  cases hl : i.isLocal
  · rw [funext fun s => exec_of_not_local i s hl]
    exact unitCommand_orsSameFlags i s f
  · by_cases hc : i = .clrflags
    · subst hc
      have hp : s.phase ≠ .idle := fun hp => hclr ⟨rfl, hp⟩
      exact .of_unchanged (exec_clrflags_busy hp) (exec_clrflags_busy (s := { s with fflags := f }) hp) rfl
    · obtain ⟨v, fl, he⟩ := exec_of_local_reads_operands hl hr hc
      rw [funext he]
      exact localCommand_orsSameFlags i i.outWidth v fl s f

end Sys2Proof.Machine
end

section
/-! The statements on the flag commands (45_flag_access.md). -/

namespace Sys2Proof.Machine

/-- Settles O19: `CLRFLAGS` in IDLE clears either accumulator, and any other run ORs the same flags into both. -/
theorem accumulatorNeverInfluencesACommand : Obligations.AccumulatorNeverInfluencesACommand := by
  intro i s f hr
  by_cases hclr : i = .clrflags ∧ s.phase = .idle
  · obtain ⟨rfl, hp⟩ := hclr
    exact ⟨s.clearFlags, 0, exec_clrflags_idle hp, exec_clrflags_idle (s := { s with fflags := f }) hp,
      .inr ⟨rfl, rfl, rfl⟩⟩
  · obtain ⟨t, fl, he, he', ht⟩ := exec_orsSameFlags hr hclr f
    exact ⟨t, f ||| fl, he, he', .inl ⟨fl, ht, rfl⟩⟩

/-- Settles O32: the completion that clears, and the rejection of a word with a reserved bit set, which does not. -/
theorem clrflagsClearsTheAccumulator : Obligations.ClrflagsClearsTheAccumulator := by
  refine ⟨fun f r => (decode_append 29#5 f r).trans rfl, fun s hp => exec_clrflags_idle hp, fun s t hacc _ hrsv h => ?_⟩
  have hd : decode s.sampled.reqCw = .error .rsvd := decode_of_rsv (mt (cwRsv_eq_zero_iff _).mp hrsv)
  cases (step_of_accepting_error hacc hd).symm.trans h
  exact ⟨rfl, rfl⟩

/-- Settles O31: the completion with the accumulator zero-extended. -/
theorem rdflagsReadsTheAccumulator : Obligations.RdflagsReadsTheAccumulator := by
  refine ⟨fun f r => (decode_append 28#5 f r).trans rfl, fun s hp => ?_⟩
  rw [exec_rdflags_idle hp, BitVec.ofNat_toNat]

end Sys2Proof.Machine
end

section
/-! The statements on rejection (60_exceptions.md R174 to R178): no command with legal fields and operands of the right width
is rejected, and no step is stuck. -/

namespace Sys2Proof.Machine

/-- Settles O8: with no failing check `validate` answers `OK`, which leaves, of the three things an acceptance can do, the
LOCAL completion and the dispatch. -/
theorem validCommandsAreNeverRejected : Obligations.ValidCommandsAreNeverRejected := by
  intro s hacc hfirst
  have hok : validate s.sampled.reqCw s.sampled.reqA s.sampled.reqB s.sampled.reqC = .ok := by
    rw [validate_eq_firstFailure, hfirst]
    rfl
  obtain ⟨r, hval, -⟩ | ⟨-, i, hd, hl, v, fl, acc, he⟩ | ⟨-, i, hd, hl, he⟩ := step_of_accepting_cases hacc
  · cases hok.symm.trans hval
  · exact ⟨i, _, hd, he, .inl ⟨hl, rfl, rfl, rfl⟩⟩
  · exact ⟨i, _, hd, he, .inr ⟨hl, rfl, rfl, rfl, rfl, rfl, rfl⟩⟩

/-- Settles O13: a step runs the meaning of a command, which always answers, or its next state is written out. -/
theorem everyStepHasANextState : Obligations.EveryStepHasANextState := by
  intro s
  obtain ⟨-, hreset⟩ | ⟨-, -, -, r, -, hreject⟩ | ⟨-, -, -, i, -, haccept⟩ | ⟨-, -, -, i, -, hanswer⟩ |
    ⟨-, -, -, hdeliver⟩ | ⟨-, hhold, -⟩ := step_cases s
  · exact ⟨_, hreset⟩
  · exact ⟨_, hreject⟩
  · rw [haccept]
    exact exec_next i s.latched
  · rw [hanswer]
    exact exec_next i s.advance
  · exact ⟨_, hdeliver⟩
  · exact ⟨_, hhold⟩

end Sys2Proof.Machine
end

section
/-! The statements on reset (70_reset_and_hazards.md R190): it is looked at before the phase is. -/

namespace Sys2Proof.Machine

/-- A step with `rst` up is the `Reset` step, whatever the phase holds and the other ports offer. -/
theorem step_of_rst {s : State} (hrst : s.sampled.rst = true) : step s = .next s.advance.resetStep := by
  simpa [hrst] using step_cases s

/-- Settles O10: the step is the `Reset` step, whose fields are the reset values; the output ports follow from them. -/
theorem resetWinsInEveryPhase : Obligations.ResetWinsInEveryPhase := by
  intro s hrst
  refine ⟨s.advance.resetStep, step_of_rst hrst, ?_⟩
  simp [State.reqReady, State.rspValid, State.uValid]

end Sys2Proof.Machine
end
